-- ==== Sys2Proof/Word.lean ====
section
/-! DEFINITION. The word types of the bee2 DWP core (spec/00_scope.md R11, R13): octets, the 64-bit interface
registers, the 128-bit datapath values held as their integer `val`, and octet arrays of a fixed length. The byte views
between them are in Machine/Operands.lean. -/

namespace Sys2Proof

/-- One octet. -/
abbrev Byte := BitVec 8

/-- An interface register or a 64-bit length counter (R11: every interface register is 64 bits wide). -/
abbrev Word := BitVec 64

/-- A 128-bit datapath value (`C`, `R`, `T`), held as the integer `val` of its block (R13). -/
abbrev Block := BitVec 128

/-- An array of `n` octets, octet 0 first (R12). -/
abbrev Octets (n : Nat) := Vector Byte n

/-- The octet array of `n` zeros. -/
def Octets.zero (n : Nat) : Octets n := Vector.replicate n 0

end Sys2Proof
end

