-- ==== Sys2Proof/Config.lean ====
section
/-! DEFINITION. What an implementation fixes, and the free values (spec/00_scope.md R5 to R10, spec/93_implementation_defined.md
I5 to I7, I13 to I15). The shared operations take a `Params` as an argument, as the spec's parameters are arguments of its model,
so that they can be evaluated at an example set of parameters; the machine itself runs at `Config.params`, whose
fields are constants without a body: no proof can see what they are. -/

namespace Sys2Proof

/-- The three legal key lengths (R11). -/
inductive KeySize where
  | k16 | k24 | k32
deriving DecidableEq, Repr, Inhabited

/-- The number of key octets `n` (R92). -/
def KeySize.octets : KeySize → Nat
  | .k16 => 16
  | .k24 => 24
  | .k32 => 32

/-- `R_DERIV`, how START derives the hash key (R9, spec/90_conflicts.md C4). -/
inductive RDeriv where
  | single | double
deriving DecidableEq, Repr, Inhabited

/-- The parameters of the model. -/
structure Params where
  /-- `BELT_ENC` (R5): the block cipher under a scheduled key, a total function and nothing more. -/
  beltEnc : Octets 32 → Octets 16 → Octets 16
  /-- `BELT_KEYEXP` (R6): the key schedule, for each legal key length. -/
  keyExp : (n : KeySize) → Octets n.octets → Octets 32
  /-- `POLYMUL` (R7): the product of two field elements. -/
  polymul : Block → Block → Block
  /-- `BELT_H` (R8): the accumulator's first value. -/
  beltH : Octets 16
  /-- `R_DERIV` (R9). -/
  rDeriv : RDeriv
  /-- `BUF_ADDR_W` (R10): the width of a BUF address. -/
  bufAddrW : Nat
  bufAddrW_pos : 1 ≤ bufAddrW
  bufAddrW_le : bufAddrW ≤ 64
  /-- Draw number `k` of a register read while BUSY = 1 (R253): any value. -/
  drawWord : Nat → Word
  /-- Draw number `k` of a BUF read while BUSY = 1 (R68): any octet. -/
  drawOctet : Nat → Byte
  /-- Draw number `k` of a BUF write while BUSY = 1 (R68): whether the pending command sees it. -/
  drawSeen : Nat → Bool

opaque Config.beltEnc : Octets 32 → Octets 16 → Octets 16
opaque Config.keyExp : (n : KeySize) → Octets n.octets → Octets 32
opaque Config.polymul : Block → Block → Block
opaque Config.beltH : Octets 16
opaque Config.rDeriv : RDeriv
/-- One less than `BUF_ADDR_W`, so that the width is any of 1 to 64 (R10). -/
opaque Config.bufAddrWPred : Fin 64
opaque Config.drawWord : Nat → Word
opaque Config.drawOctet : Nat → Byte
opaque Config.drawSeen : Nat → Bool
/-- The cells the host's data puts into BUF before a run (R67, spec/93_implementation_defined.md I5): any list, so any
launch image (Laws/Memory.lean, `ofCells_eq`). -/
opaque Config.launch : List (Nat × Byte)

/-- The parameters of the machine: nothing about any of them is known beyond its type and R10's bounds. -/
def Config.params : Params where
  beltEnc := Config.beltEnc
  keyExp := Config.keyExp
  polymul := Config.polymul
  beltH := Config.beltH
  rDeriv := Config.rDeriv
  bufAddrW := Config.bufAddrWPred.val + 1
  bufAddrW_pos := Nat.succ_le_succ (Nat.zero_le _)
  bufAddrW_le := Config.bufAddrWPred.isLt
  drawWord := Config.drawWord
  drawOctet := Config.drawOctet
  drawSeen := Config.drawSeen

end Sys2Proof
end

