-- ==== Sys2Proof/Machine/Memory.lean ====
section
/-! DEFINITION. The byte buffer space BUF (spec/20_memory.md R61, R66): a list of cells in one canonical form, its reads and
writes, and the octets a run starts with (R67). -/

namespace Sys2Proof.Machine

/-- BUF: the octets that do not read as `Memory.unlisted`, by address, addresses strictly rising. -/
abbrev Memory := List Host.Cell

/-- The size of BUF in octets (R61). -/
def bufSize (p : Params) : Nat := 2 ^ p.bufAddrW

/-- What an address that BUF does not list reads as. It fixes the form of the list and no octet of a run: the octets at the
start of a run are those of `Memory.launch`. -/
def Memory.unlisted : Byte := 0

/-- `MemRead(a, 1)`. -/
def Memory.read : Memory → Nat → Byte
  | [], _ => Memory.unlisted
  | (b, w) :: m, a => if a = b then w else Memory.read m a

/-- `MemWrite(a, 1, v)`. -/
def Memory.write : Memory → Nat → Byte → Memory
  | [], a, v => if v = Memory.unlisted then [] else [(a, v)]
  | (b, w) :: m, a, v =>
    if a < b then if v = Memory.unlisted then (b, w) :: m else (a, v) :: (b, w) :: m
    else if a = b then if v = Memory.unlisted then m else (a, v) :: m
    else (b, w) :: Memory.write m a v

/-- The canonical form, where every listed address is at least `lo`: addresses strictly rise and no entry holds what an
unlisted address reads as. -/
def Memory.wfFrom : Nat → Memory → Bool
  | _, [] => true
  | lo, (b, w) :: m => decide (lo ≤ b) && decide (w ≠ Memory.unlisted) && Memory.wfFrom (b + 1) m

/-- The canonical form. -/
def Memory.wf (m : Memory) : Bool := Memory.wfFrom 0 m

/-- The octets at `a, a + 1, …, a + n - 1`, in increasing address (R66). -/
def Memory.readRange (m : Memory) : Nat → Nat → List Byte
  | _, 0 => []
  | a, n + 1 => m.read a :: Memory.readRange m (a + 1) n

/-- The copy loop of R191 and R193: octet by octet, in increasing address. -/
def Memory.copy : Memory → (src dst n : Nat) → Memory
  | m, _, _, 0 => m
  | m, src, dst, n + 1 => Memory.copy (m.write dst (m.read src)) (src + 1) (dst + 1) n

/-- The BUF of `k` octets that a list of cells gives: the first cell of an address counts, and a cell outside the space
gives nothing. -/
def Memory.ofCells (k : Nat) : List Host.Cell → Memory
  | [] => []
  | c :: l => if c.1 < k then (Memory.ofCells k l).write c.1 c.2 else Memory.ofCells k l

/-- The octets of BUF at the start of a run: the launch parameter of R67, under no law (log entry 4). -/
def Memory.launch : Memory := Memory.ofCells (bufSize Config.params) Config.launch

end Sys2Proof.Machine
end

