-- ==== Sys2Proof/Machine/State.lean ====
section
/-! DEFINITION. The state of the core (spec/10_state.md) with its byte buffer space BUF (spec/20_memory.md R61), the host's
pending actions (spec/30_encoding.md R98 to R100), the reasons a step can stop, and the state after reset (R42, R240). -/

namespace Sys2Proof.Machine

/-- `S.PHASE` (R30). IDLE is the phase before any START and after a session has ended. -/
inductive Phase where
  | idle | ad | ct | final
deriving DecidableEq, Repr

/-- `STATUS.ERR` by name (R210). OUT_OF_MEMORY is reserved and never written (R216). -/
inductive ResultCode where
  | ok | badInput | outOfMemory | badMac | badOrder | badCmd
deriving DecidableEq, Repr

/-- The names that `S.FAULTS` can hold (R254). -/
inductive ModelFault where
  /-- A host read or write of a BUF octet while BUSY = 1 (R68). -/
  | bufRace
deriving DecidableEq, Repr

/-- The interface registers that are storage of their own (R20). CMD, STATUS, LAD and LCT are the fields `cmdl`, `busy`,
`ovr`, `err` and views of the session. -/
structure Regs where
  src1 : Word
  cnt1 : Word
  src2 : Word
  cnt2 : Word
  dest : Word
  key0 : Word
  key1 : Word
  key2 : Word
  key3 : Word
  iv0 : Word
  iv1 : Word
  macIn : Word
  macOut : Word
deriving DecidableEq, Repr

/-- The internal session state (R30 to R37). -/
structure Session where
  phase : Phase
  /-- The scheduled key (R31). -/
  sk : Octets 32
  /-- The CTR counter (R32). -/
  c : Block
  /-- The last keystream block (R33). -/
  ks : Octets 16
  /-- How many octets at the end of `ks` are unused (R33). -/
  ksAvail : Fin 16
  /-- The polynomial-hash key (R34). -/
  r : Block
  /-- The polynomial accumulator (R35). -/
  t : Block
  /-- Bits of associated data (R36). -/
  lad : Word
  /-- Bits of ciphertext (R36). -/
  lct : Word
  /-- The partial block (R37). -/
  blk : Octets 16
  /-- How many octets of `blk` wait to be folded (R37). -/
  filled : Fin 16
deriving DecidableEq, Repr

/-- One action of the host on the block (R15, R98): a register access of `size` octets at a byte offset of the REG
window, or an access to one octet of BUF. -/
inductive HostAction where
  | regWrite (off size : Nat) (v : Word)
  | regRead (off size : Nat)
  | bufWrite (a : Nat) (v : Byte)
  | bufRead (a : Nat)
deriving DecidableEq, Repr

/-- One turn of the interleaving (R15, R100, R240, R250). -/
inductive Turn where
  /-- The host acts. -/
  | host (a : HostAction)
  /-- The host's `wait` (R98): STATUS is read until BUSY = 0. `polls` says how many reads come before the core's step. -/
  | wait (polls : Nat)
  /-- The core takes its step, which is enabled iff BUSY = 1. -/
  | core
  /-- The platform resets the block. -/
  | reset
deriving DecidableEq, Repr

/-- A value the host has read (R98). -/
inductive HostRead where
  | reg (off : Nat) (v : Word)
  | octet (a : Nat) (v : Byte)
deriving DecidableEq, Repr

/-- The model's own fields: what the host will do and has seen, and what the spec leaves free. -/
structure HostSide where
  /-- The turns still to be taken, next one first. -/
  turns : List Turn
  /-- The values read so far, last one first. -/
  reads : List HostRead
  /-- How many free values have been drawn. -/
  draws : Nat
  /-- BUF writes made while BUSY = 1 that the pending command does not see (R68), oldest first. -/
  late : List Host.Cell
deriving DecidableEq, Repr

/-- The whole state. -/
structure State where
  regs : Regs
  ses : Session
  /-- `S.CMDL`, the latched command word (R38). -/
  cmdl : Word
  busy : Bool
  ovr : Bool
  err : ResultCode
  /-- `S.FAULTS`, with no repeats (R39). -/
  faults : List ModelFault
  buf : Memory
  host : HostSide
deriving DecidableEq, Repr

/-- Why a step stops with a fault. No command raises one: only a host access outside the block's two address spaces. -/
inductive Fault where
  /-- Raised by a host access to BUF at an address of `2^BUF_ADDR_W` or more, where no octet exists (R61). Safe. -/
  | bufOutsideSpace
  /-- Raised by a host register access at an offset of 0x100 or more, where no register exists (R60). Safe. -/
  | regOutsideWindow
deriving DecidableEq, Repr

/-- Why a step is refused. -/
inductive Refusal where
  /-- Raised by `exec` for an instruction that has no meaning yet. Safe. -/
  | notModelled (mnemonic : String)
  /-- Raised by a host register access that is not one aligned 64-bit access (R65, parameter REG_NARROW_ACCESS). Safe. -/
  | regNarrowAccess
deriving DecidableEq, Repr

/-- Every register of R20 is 0 after reset (R42). -/
def Regs.reset : Regs where
  src1 := 0
  cnt1 := 0
  src2 := 0
  cnt2 := 0
  dest := 0
  key0 := 0
  key1 := 0
  key2 := 0
  key3 := 0
  iv0 := 0
  iv1 := 0
  macIn := 0
  macOut := 0

/-- The session fields after reset (R42), which are also what Wipe leaves (R154). -/
def Session.reset : Session where
  phase := .idle
  sk := Octets.zero 32
  c := 0
  ks := Octets.zero 16
  ksAvail := 0
  r := 0
  t := 0
  lad := 0
  lct := 0
  blk := Octets.zero 16
  filled := 0

/-- The host side at the start of a run: nothing scheduled, read or drawn (DESIGN CHOICE, log entries 5, 7 and 8). -/
def HostSide.reset : HostSide where
  turns := []
  reads := []
  draws := 0
  late := []

/-- The state right after the reset that starts a run (R42, R240). BUF holds the host's data, the launch
parameter of R67. -/
def State.reset : State where
  regs := Regs.reset
  ses := Session.reset
  cmdl := 0
  busy := false
  ovr := false
  err := .ok
  faults := []
  buf := Memory.launch
  host := HostSide.reset

end Sys2Proof.Machine
end

