-- ==== Sys2Proof/Machine/Flags.lean ====
section
/-! DEFINITION. The STATUS register (spec/10_state.md R22) and how a command ends (spec/60_exceptions.md R210, R212, R215;
spec/70_reset_and_hazards.md R250). The block has no trap: `finish` is what stands in the place of taking an exception, and
there is nothing to return from (R215). -/

namespace Sys2Proof.Machine

/-- The two-bit encoding of PHASE (R30). -/
def Phase.code : Phase → BitVec 2
  | .idle => 0
  | .ad => 1
  | .ct => 2
  | .final => 3

/-- The four-bit result codes (R210). -/
def ResultCode.code : ResultCode → BitVec 4
  | .ok => 0
  | .badInput => 1
  | .outOfMemory => 2
  | .badMac => 3
  | .badOrder => 4
  | .badCmd => 5

/-- A finish with one of these codes is a refusal: it has no effect of its own (R212). -/
def ResultCode.isRefusal : ResultCode → Bool
  | .badInput => true
  | .badOrder => true
  | .badCmd => true
  | .ok => false
  | .outOfMemory => false
  | .badMac => false

/-- STATUS as the host reads it while BUSY = 0, fields from bit 63 down (R22); every unnamed bit is 0. -/
def statusWord (s : State) : Word :=
  (0 : BitVec 36) ++ BitVec.ofFin (w := 4) s.ses.ksAvail ++ (0 : BitVec 4) ++ BitVec.ofFin (w := 4) s.ses.filled
    ++ (0 : BitVec 6) ++ s.ses.phase.code ++ s.err.code ++ (0 : BitVec 2) ++ BitVec.ofBool s.ovr ++ BitVec.ofBool s.busy

/-- STATUS as the host reads it while BUSY = 1: bits 1:0 are OVR and BUSY, the other 62 bits are a free draw (R253). -/
def busyStatusWord (s : State) (draw : Word) : Word :=
  draw.extractLsb' 2 62 ++ BitVec.ofBool s.ovr ++ BitVec.ofBool s.busy

/-- `finish(E)`: the result code is recorded and BUSY falls; OVR is not changed (R14, R250). -/
def finish (e : ResultCode) (s : State) : State := { s with err := e, busy := false }

/-- `S.FAULTS` gains a name (R39). -/
def addFault (f : ModelFault) (s : State) : State :=
  { s with faults := if f ∈ s.faults then s.faults else f :: s.faults }

end Sys2Proof.Machine
end

