-- ==== Sys2Proof/Syntax.lean ====
section
/-! DEFINITION. The commands of the core: one constructor for each row of spec/opcode_table.json (spec/30_encoding.md
R91). The operands are interface registers (R96), so a command word carries only the key-length code. -/

namespace Sys2Proof

/-- The two-bit key-length field KL (R92). `illegal` is `KL = 3`: it is decoded, and the command that carries it
finishes BAD_INPUT. -/
inductive KeyCode where
  | k16 | k24 | k32 | illegal
deriving DecidableEq, Repr

/-- The ten operations of R91. -/
inductive Instr where
  | start (kl : KeyCode)
  | stepi
  | stepe
  | stepd
  | stepa
  | stepg
  | stepv
  | wrap (kl : KeyCode)
  | unwrap (kl : KeyCode)
  | zeroize
deriving DecidableEq, Repr

end Sys2Proof
end

