-- ==== Sys2Proof/Machine/Operands.lean ====
section
/-! DEFINITION. Byte views of values (spec/00_scope.md R13, spec/20_memory.md R62), the operand registers of a command as
octet arrays (spec/10_state.md R25 to R28), and the operand checks (spec/42_stream.md R160, R161, spec/44_envelope.md R190). -/

namespace Sys2Proof.Machine

/-- The integer of an octet sequence, octet 0 least significant (R13, R62). -/
def leNat : List Byte → Nat
  | [] => 0
  | x :: xs => x.toNat + 256 * leNat xs

/-- `val` (R13): the integer of a 16-octet block. -/
def val (b : Octets 16) : Block := BitVec.ofNat 128 (leNat b.toList)

/-- `val64` (R13). -/
def val64 (b : Octets 8) : Word := BitVec.ofNat 64 (leNat b.toList)

/-- Octet `i` of a value is its bits `8·i+7` to `8·i` (R13). -/
def octetOf {w : Nat} (v : BitVec w) (i : Nat) : Byte := v.extractLsb' (8 * i) 8

/-- `oct` (R13): the 16 octets of a 128-bit value. -/
def oct (v : Block) : Octets 16 := Vector.ofFn fun i => octetOf v i.val

/-- `oct64` (R13), which is also how a register packs octets (R62 f). -/
def oct64 (v : Word) : Octets 8 := Vector.ofFn fun i => octetOf v i.val

/-- The first 8 octets of a block: the tag (R62 e, R133). -/
def tagOctets (t : Block) : Octets 8 := Vector.ofFn fun i => octetOf t i.val

/-- Register KEYk (R25). -/
def Regs.keyWord (g : Regs) : Nat → Word
  | 0 => g.key0
  | 1 => g.key1
  | 2 => g.key2
  | _ => g.key3

/-- Key octet `i`: octet `i mod 8` of KEY(i div 8) (R25). -/
def Regs.keyOctet (g : Regs) (i : Nat) : Byte := octetOf (g.keyWord (i / 8)) (i % 8)

/-- `KEY[0..n)` (R25, R92). -/
def Regs.key (g : Regs) (n : KeySize) : Octets n.octets := Vector.ofFn fun i => g.keyOctet i.val

/-- `IV[0..16)` (R26): octets 0 to 7 in IV0, 8 to 15 in IV1. -/
def Regs.iv (g : Regs) : Octets 16 :=
  Vector.ofFn fun i => octetOf (if i.val < 8 then g.iv0 else g.iv1) (i.val % 8)

/-- `MAC_IN_OCT[0..8)` (R27). -/
def Regs.macInOctets (g : Regs) : Octets 8 := oct64 g.macIn

end Sys2Proof.Machine

namespace Sys2Proof

/-- The key length of a code (R92); `KL = 3` has none. -/
def KeyCode.size? : KeyCode → Option KeySize
  | .k16 => some .k16
  | .k24 => some .k24
  | .k32 => some .k32
  | .illegal => none

end Sys2Proof

namespace Sys2Proof.Machine

/-- RangeOK (R160): an empty range is valid wherever it is, any other must end inside BUF; no wrap-around. -/
def rangeOK (p : Params) (a n : Nat) : Bool := n == 0 || decide (a + n ≤ bufSize p)

/-- A byte count added to a bit counter still fits the counter (R161). -/
def lengthOK (counter : Word) (n : Nat) : Bool := decide (counter.toNat + 8 * n ≤ 2 ^ 64 - 1)

/-- A bit counter after `n` more octets; used only where `lengthOK` holds (R135 b). -/
def addBits (counter : Word) (n : Nat) : Word := BitVec.ofNat 64 (counter.toNat + 8 * n)

/-- SRC1 and DEST are equal or their ranges are disjoint (R190, last line). -/
def aliasOK (a1 n1 d : Nat) : Bool :=
  a1 == d || n1 == 0 || decide (a1 + n1 ≤ d) || decide (d + n1 ≤ a1)

/-- EnvelopeOK (R190), on the registers SRC1, CNT1, SRC2, CNT2 and DEST. -/
def envelopeOK (p : Params) (kl : KeyCode) (g : Regs) : Bool :=
  kl != .illegal
    && (rangeOK p g.src1.toNat g.cnt1.toNat && rangeOK p g.src2.toNat g.cnt2.toNat
      && rangeOK p g.dest.toNat g.cnt1.toNat)
    && (lengthOK 0 g.cnt1.toNat && lengthOK 0 g.cnt2.toNat)
    && aliasOK g.src1.toNat g.cnt1.toNat g.dest.toNat

end Sys2Proof.Machine
end

