-- ==== Sys2Proof/Machine/Ops.lean ====
section
/-! DEFINITION. The named operations on the session and the registers: the shared datapath procedures of
spec/40_primitives.md, spec/41_session.md and spec/42_stream.md (Fold, Flush, Absorb, KsByte, Finalize, EnterCT, DeriveR, the
assignments of START, Wipe). -/

namespace Sys2Proof.Machine

/-- `E(x)` (R120). -/
def encBlock (p : Params) (sk : Octets 32) (x : Octets 16) : Octets 16 := p.beltEnc sk x

/-- `Ev(v)` (R120): the cipher on the limb view. -/
def encVal (p : Params) (sk : Octets 32) (v : Block) : Block := val (p.beltEnc sk (oct v))

/-- Fold of the value of one block (R128): `T ← (T ⊕ v) ⊗ R`. -/
def foldVal (p : Params) (v : Block) (q : Session) : Session := { q with t := p.polymul (q.t ^^^ v) q.r }

/-- Fold (R128). -/
def fold (p : Params) (b : Octets 16) (q : Session) : Session := foldVal p (val b) q

/-- A partial block with zeros after its first `k` octets (R129). -/
def padBlock (b : Octets 16) (k : Nat) : Octets 16 := Vector.ofFn fun i => if i.val < k then b[i] else 0

/-- The session with another partial block. -/
def setBlk (b : Octets 16) (k : Fin 16) (q : Session) : Session := { q with blk := b, filled := k }

/-- Flush (R129): the residue is zero-padded and folded; nothing happens when there is none. -/
def flush (p : Params) (q : Session) : Session :=
  if q.filled = 0 then q
  else setBlk (padBlock q.blk q.filled.val) 0 (fold p (padBlock q.blk q.filled.val) q)

/-- Absorb (R130). FILLED counts modulo 16: the block is folded when its sixteenth octet arrives. -/
def absorb (p : Params) (q : Session) (x : Byte) : Session :=
  if q.filled = 15 then setBlk (q.blk.set q.filled.val x) 0 (fold p (q.blk.set q.filled.val x) q)
  else setBlk (q.blk.set q.filled.val x) (q.filled + 1) q

/-- Absorb, octet after octet (R130, last paragraph). -/
def absorbAll (p : Params) (xs : List Byte) (q : Session) : Session := xs.foldl (absorb p) q

/-- The keystream step of R131 when no octet is left over: the counter moves on and its block is encrypted. -/
def nextBlock (p : Params) (q : Session) : Session :=
  { q with c := q.c + 1, ks := encBlock p q.sk (oct (q.c + 1)) }

/-- KsByte (R131): the keystream octet and the session after it. `KS[16 - KS_AVAIL]` is `KS[0]` right after a new block,
when KS_AVAIL is 16 inside the procedure and 15 after it. -/
def ksByte (p : Params) (q : Session) : Byte × Session :=
  if q.ksAvail = 0 then ((nextBlock p q).ks[0], { nextBlock p q with ksAvail := 15 })
  else (q.ks[(0 - q.ksAvail : Fin 16)], { q with ksAvail := q.ksAvail - 1 })

/-- The XOR loop of R166: `n` octets from address `a`, each read, XORed with the next keystream octet and written back. -/
def xorRange (p : Params) : (n a : Nat) → Memory → Session → Memory × Session
  | 0, _, m, q => (m, q)
  | n + 1, a, m, q => xorRange p n (a + 1) (m.write a (m.read a ^^^ (ksByte p q).1)) (ksByte p q).2

/-- The session in another phase. -/
def setPhase (ph : Phase) (q : Session) : Session := { q with phase := ph }

/-- The session with another count of associated-data bits. -/
def setLad (v : Word) (q : Session) : Session := { q with lad := v }

/-- The session with another count of ciphertext bits. -/
def setLct (v : Word) (q : Session) : Session := { q with lct := v }

/-- EnterCT (R165): from AD the residue is flushed and the phase becomes CT; in CT and FINAL nothing happens. -/
def enterCT (p : Params) (q : Session) : Session :=
  if q.phase = .ad then setPhase .ct (flush p q) else q

/-- "if n > 0: EnterCT()" (R164, R166, R191, R193). -/
def enterCTIf (p : Params) (n : Nat) (q : Session) : Session := if n = 0 then q else enterCT p q

/-- The length block (R62 d, R133): AD bits in the low half, CT bits in the high half. -/
def lengthBlock (q : Session) : Block := q.lct ++ q.lad

/-- Finalize (R133), the state it leaves; the tag is `tagOctets` of its `t`. -/
def finalize (p : Params) (q : Session) : Session :=
  let f := foldVal p (lengthBlock q) (flush p q)
  { f with t := encVal p f.sk f.t, phase := .final }

/-- DeriveR (R151, spec/90_conflicts.md C4). -/
def deriveR (p : Params) (sk : Octets 32) (c0 : Block) : Block :=
  match p.rDeriv with
  | .single => c0
  | .double => encVal p sk c0

/-- StartBody (R150, R191): the session START opens under a key and an IV. -/
def startBody (p : Params) (n : KeySize) (key : Octets n.octets) (iv : Octets 16) : Session :=
  let sk := p.keyExp n key
  let c := val (encBlock p sk iv)
  { phase := .ad
    sk := sk
    c := c
    ks := Octets.zero 16
    ksAvail := 0
    r := deriveR p sk c
    t := val p.beltH
    lad := 0
    lct := 0
    blk := Octets.zero 16
    filled := 0 }

/-- Wipe (R154): every session field at its reset value. -/
def wipe (s : State) : State := { s with ses := Session.reset }

/-- The state with another session. -/
def setSes (q : Session) (s : State) : State := { s with ses := q }

/-- The state with another BUF. -/
def setBuf (m : Memory) (s : State) : State := { s with buf := m }

/-- `REG.MAC_OUT <- v`. -/
def setMacOut (v : Word) (s : State) : State := { s with regs := { s.regs with macOut := v } }

end Sys2Proof.Machine
end

