-- ==== Sys2Proof/Machine/Finalize.lean ====
section
/-! DEFINITION. The finalizer commands STEPG and STEPV (spec/43_finalize.md R180, R182). -/

namespace Sys2Proof.Machine

/-- The computed tag equals MAC_IN in all 8 octets (R136). -/
def tagMatches (tag : Octets 8) (g : Regs) : Bool := decide (tag = g.macInOctets)

/-- STEPG (R180). -/
def cmdStepg (p : Params) (s : State) : State :=
  if s.ses.phase ≠ .ad ∧ s.ses.phase ≠ .ct then finish .badOrder s
  else finish .ok (setMacOut (val64 (tagOctets (finalize p s.ses).t)) (setSes (finalize p s.ses) s))

/-- STEPV (R182): MAC_OUT is not written (R183). -/
def cmdStepv (p : Params) (s : State) : State :=
  if s.ses.phase ≠ .ad ∧ s.ses.phase ≠ .ct then finish .badOrder s
  else
    finish (if tagMatches (tagOctets (finalize p s.ses).t) s.regs then .ok else .badMac) (setSes (finalize p s.ses) s)

/-- The meaning of STEPG. -/
def execStepg (s : State) : Host.Outcome State Fault Refusal := .next (cmdStepg Config.params s)

/-- The meaning of STEPV. -/
def execStepv (s : State) : Host.Outcome State Fault Refusal := .next (cmdStepv Config.params s)

end Sys2Proof.Machine
end

