-- ==== Sys2Proof/Machine/Stream.lean ====
section
/-! DEFINITION. The streaming commands STEPI, STEPA, STEPE and STEPD (spec/42_stream.md R162 to R167). The checks come in the
order of R214: the phase, then the operands. -/

namespace Sys2Proof.Machine

/-- STEPI (R162). -/
def cmdStepi (p : Params) (s : State) : State :=
  let a := s.regs.src1.toNat
  let n := s.regs.cnt1.toNat
  if s.ses.phase ≠ .ad then finish .badOrder s
  else if rangeOK p a n = false then finish .badInput s
  else if lengthOK s.ses.lad n = false then finish .badInput s
  else finish .ok (setSes (absorbAll p (s.buf.readRange a n) (setLad (addBits s.ses.lad n) s.ses)) s)

/-- The session STEPA leaves: into CT if there is an octet, the octets counted, then absorbed (R164). -/
def absorbCT (p : Params) (n : Nat) (xs : List Byte) (q : Session) : Session :=
  absorbAll p xs (setLct (addBits q.lct n) (enterCTIf p n q))

/-- STEPA (R164). -/
def cmdStepa (p : Params) (s : State) : State :=
  let a := s.regs.src1.toNat
  let n := s.regs.cnt1.toNat
  if s.ses.phase ≠ .ad ∧ s.ses.phase ≠ .ct then finish .badOrder s
  else if rangeOK p a n = false then finish .badInput s
  else if lengthOK s.ses.lct n = false then finish .badInput s
  else finish .ok (setSes (absorbCT p n (s.buf.readRange a n) s.ses) s)

/-- The operation STEPE and STEPD share (R166, R167): XOR with the keystream, in place. -/
def streamXor (p : Params) (s : State) : State :=
  let a := s.regs.src1.toNat
  let n := s.regs.cnt1.toNat
  if s.ses.phase = .idle then finish .badOrder s
  else if rangeOK p a n = false then finish .badInput s
  else
    let x := xorRange p n a s.buf (enterCTIf p n s.ses)
    finish .ok (setBuf x.1 (setSes x.2 s))

/-- STEPE (R166). -/
def cmdStepe (p : Params) (s : State) : State := streamXor p s

/-- STEPD (R167). -/
def cmdStepd (p : Params) (s : State) : State := streamXor p s

/-- The meaning of STEPI. -/
def execStepi (s : State) : Host.Outcome State Fault Refusal := .next (cmdStepi Config.params s)

/-- The meaning of STEPA. -/
def execStepa (s : State) : Host.Outcome State Fault Refusal := .next (cmdStepa Config.params s)

/-- The meaning of STEPE. -/
def execStepe (s : State) : Host.Outcome State Fault Refusal := .next (cmdStepe Config.params s)

/-- The meaning of STEPD. -/
def execStepd (s : State) : Host.Outcome State Fault Refusal := .next (cmdStepd Config.params s)

end Sys2Proof.Machine
end

