-- ==== Sys2Proof/Machine/Envelope.lean ====
section
/-! DEFINITION. The envelope commands WRAP and UNWRAP (spec/44_envelope.md R190 to R195). Each runs the steps of the state
machine in the order of its pseudocode, within one command. -/

namespace Sys2Proof.Machine

/-- "if a1 != d" copy SRC1 to DEST (R191, R193). -/
def copyPayload (m : Memory) (g : Regs) : Memory :=
  if g.src1 = g.dest then m else m.copy g.src1.toNat g.dest.toNat g.cnt1.toNat

/-- START and the StepI step of an envelope: a new session that has absorbed the associated data (R191, R193). -/
def envelopeAD (p : Params) (n : KeySize) (s : State) : Session :=
  absorbAll p (s.buf.readRange s.regs.src2.toNat s.regs.cnt2.toNat)
    (setLad (addBits 0 s.regs.cnt2.toNat) (startBody p n (s.regs.key n) s.regs.iv))

/-- BUF and session after WRAP's StepE on DEST (R191). -/
def wrapEncrypt (p : Params) (n : KeySize) (s : State) : Memory × Session :=
  xorRange p s.regs.cnt1.toNat s.regs.dest.toNat (copyPayload s.buf s.regs)
    (enterCTIf p s.regs.cnt1.toNat (envelopeAD p n s))

/-- The session after WRAP's StepA on DEST and StepG (R191). -/
def wrapFinal (p : Params) (n : KeySize) (s : State) : Session :=
  finalize p (absorbAll p ((wrapEncrypt p n s).1.readRange s.regs.dest.toNat s.regs.cnt1.toNat)
    (setLct (addBits 0 s.regs.cnt1.toNat) (wrapEncrypt p n s).2))

/-- WRAP (R191, R195). -/
def cmdWrap (p : Params) (kl : KeyCode) (s : State) : State :=
  match kl.size?, envelopeOK p kl s.regs with
  | some n, true =>
    finish .ok (wipe (setMacOut (val64 (tagOctets (wrapFinal p n s).t)) (setBuf (wrapEncrypt p n s).1 s)))
  | _, _ => finish .badInput s

/-- The session after UNWRAP's StepA on SRC1 and the finalization of StepV (R193). -/
def unwrapFinal (p : Params) (n : KeySize) (s : State) : Session :=
  finalize p (absorbAll p (s.buf.readRange s.regs.src1.toNat s.regs.cnt1.toNat)
    (setLct (addBits 0 s.regs.cnt1.toNat) (enterCTIf p s.regs.cnt1.toNat (envelopeAD p n s))))

/-- BUF after UNWRAP's copy and StepD on DEST, which run only when the tag matched (R193, R194). -/
def unwrapDecrypt (p : Params) (n : KeySize) (s : State) : Memory :=
  (xorRange p s.regs.cnt1.toNat s.regs.dest.toNat (copyPayload s.buf s.regs) (unwrapFinal p n s)).1

/-- UNWRAP (R193, R194, R195): MAC_OUT is not written (R183). -/
def cmdUnwrap (p : Params) (kl : KeyCode) (s : State) : State :=
  match kl.size?, envelopeOK p kl s.regs with
  | some n, true =>
    if tagMatches (tagOctets (unwrapFinal p n s).t) s.regs then finish .ok (wipe (setBuf (unwrapDecrypt p n s) s))
    else finish .badMac (wipe s)
  | _, _ => finish .badInput s

/-- The meaning of WRAP. -/
def execWrap (kl : KeyCode) (s : State) : Host.Outcome State Fault Refusal := .next (cmdWrap Config.params kl s)

/-- The meaning of UNWRAP. -/
def execUnwrap (kl : KeyCode) (s : State) : Host.Outcome State Fault Refusal := .next (cmdUnwrap Config.params kl s)

end Sys2Proof.Machine
end

