-- ==== Sys2Proof/Machine/Session.lean ====
section
/-! DEFINITION. START and ZEROIZE (spec/41_session.md R150, R152, R155). -/

namespace Sys2Proof.Machine

/-- START (R150), in every phase (R152): `KL = 3` is refused, otherwise a new session replaces the old one. -/
def cmdStart (p : Params) (kl : KeyCode) (s : State) : State :=
  match kl.size? with
  | none => finish .badInput s
  | some n => finish .ok (setSes (startBody p n (s.regs.key n) s.regs.iv) s)

/-- The registers after ZEROIZE (R155): key, IV, MAC_IN and MAC_OUT are 0, the address and count registers are kept. -/
def Regs.zeroized (g : Regs) : Regs :=
  { g with key0 := 0, key1 := 0, key2 := 0, key3 := 0, iv0 := 0, iv1 := 0, macIn := 0, macOut := 0 }

/-- ZEROIZE (R155): always accepted. -/
def cmdZeroize (s : State) : State := finish .ok { wipe s with regs := s.regs.zeroized }

/-- The meaning of START. -/
def execStart (kl : KeyCode) (s : State) : Host.Outcome State Fault Refusal := .next (cmdStart Config.params kl s)

/-- The meaning of ZEROIZE. -/
def execZeroize (s : State) : Host.Outcome State Fault Refusal := .next (cmdZeroize s)

end Sys2Proof.Machine
end

