-- ==== Sys2Proof/Machine/Dispatch.lean ====
section
/-! DEFINITION. One arm for each command (spec/30_encoding.md R91). -/

namespace Sys2Proof.Machine

def exec (i : Instr) (s : State) : Host.Outcome State Fault Refusal :=
  match i with
  | .start kl => Sys2Proof.Machine.execStart kl s
  | .stepi => Sys2Proof.Machine.execStepi s
  | .stepe => Sys2Proof.Machine.execStepe s
  | .stepd => Sys2Proof.Machine.execStepd s
  | .stepa => Sys2Proof.Machine.execStepa s
  | .stepg => Sys2Proof.Machine.execStepg s
  | .stepv => Sys2Proof.Machine.execStepv s
  | .wrap kl => Sys2Proof.Machine.execWrap kl s
  | .unwrap kl => Sys2Proof.Machine.execUnwrap kl s
  | .zeroize => Sys2Proof.Machine.execZeroize s

end Sys2Proof.Machine
end

