-- ==== Sys2Proof/WellFormed.lean ====
section
/-! DEFINITION. Which commands the assembler of spec/30_encoding.md R98 can write: START, WRAP and UNWRAP name a key
of 16, 24 or 32 octets. A command with `KL = 3` still decodes and still runs (R92, R95): it finishes BAD_INPUT. -/

namespace Sys2Proof

/-- `KL` encodes a legal key length (R92: `KL = 3` encodes none). -/
def KeyCode.legal : KeyCode → Bool
  | .k16 => true
  | .k24 => true
  | .k32 => true
  | .illegal => false

/-- The key length check of R92, R97 and R98. -/
def Instr.wellFormed : Instr → Bool
  | .start kl => kl.legal
  | .stepi => true
  | .stepe => true
  | .stepd => true
  | .stepa => true
  | .stepg => true
  | .stepv => true
  | .wrap kl => kl.legal
  | .unwrap kl => kl.legal
  | .zeroize => true

end Sys2Proof
end

