-- ==== Sys2Proof/Decode.lean ====
section
/-! DEFINITION. Decoding a command word and encoding a command, both written from the field table of spec/30_encoding.md
R90 to R95 and R97. Decoding is total over all 2^64 words; a word it rejects executes as `finish(BAD_CMD)` (R211). -/

namespace Sys2Proof

/-- Why a word does not decode (R93, R94, R95). Each of them finishes BAD_CMD. -/
inductive DecodeError where
  /-- A bit of 63:6 is set. -/
  | reservedBits
  /-- OP is 0x0 or 0xB to 0xF. -/
  | reservedOp
  /-- KL is not 0 and OP is none of START, WRAP, UNWRAP. -/
  | keyCodeNotAllowed
deriving DecidableEq, Repr

/-- Field OP, bits 3:0. -/
def opField (v : Word) : BitVec 4 := v.extractLsb' 0 4

/-- Field KL, bits 5:4. -/
def klField (v : Word) : BitVec 2 := v.extractLsb' 4 2

/-- Field RES, bits 63:6. -/
def resField (v : Word) : BitVec 58 := v.extractLsb' 6 58

/-- The key-length code of a KL field (R92). -/
def keyCodeOf (f : BitVec 2) : KeyCode :=
  match f.toNat with
  | 0 => .k16
  | 1 => .k24
  | 2 => .k32
  | _ => .illegal

/-- The KL field of a key-length code (R92). -/
def KeyCode.field : KeyCode → BitVec 2
  | .k16 => 0
  | .k24 => 1
  | .k32 => 2
  | .illegal => 3

/-- An operation that has no key-length field: KL must be 0 (R95, third line). -/
def withoutKeyCode (kl : BitVec 2) (i : Instr) : Except DecodeError Instr :=
  if kl = 0 then .ok i else .error .keyCodeNotAllowed

/-- The operation map of R91 with the checks of R95 on OP and KL. -/
def decodeOp (op : BitVec 4) (kl : BitVec 2) : Except DecodeError Instr :=
  match op.toNat with
  | 0x1 => .ok (.start (keyCodeOf kl))
  | 0x2 => withoutKeyCode kl .stepi
  | 0x3 => withoutKeyCode kl .stepe
  | 0x4 => withoutKeyCode kl .stepd
  | 0x5 => withoutKeyCode kl .stepa
  | 0x6 => withoutKeyCode kl .stepg
  | 0x7 => withoutKeyCode kl .stepv
  | 0x8 => .ok (.wrap (keyCodeOf kl))
  | 0x9 => .ok (.unwrap (keyCodeOf kl))
  | 0xA => withoutKeyCode kl .zeroize
  | _ => .error .reservedOp

/-- `decode` of R95, its three checks in that order. -/
def decode (v : Word) : Except DecodeError Instr :=
  if resField v = 0 then decodeOp (opField v) (klField v) else .error .reservedBits

/-- The OP value of a command (R91). -/
def Instr.op : Instr → BitVec 4
  | .start _ => 0x1
  | .stepi => 0x2
  | .stepe => 0x3
  | .stepd => 0x4
  | .stepa => 0x5
  | .stepg => 0x6
  | .stepv => 0x7
  | .wrap _ => 0x8
  | .unwrap _ => 0x9
  | .zeroize => 0xA

/-- The KL field of a command: 0 for every command but START, WRAP and UNWRAP (R90). -/
def Instr.kl : Instr → BitVec 2
  | .start kl => kl.field
  | .stepi => 0
  | .stepe => 0
  | .stepd => 0
  | .stepa => 0
  | .stepg => 0
  | .stepv => 0
  | .wrap kl => kl.field
  | .unwrap kl => kl.field
  | .zeroize => 0

/-- The command word: RES, KL and OP from the top bit down (R90). -/
def encode (i : Instr) : Word := (0 : BitVec 58) ++ i.kl ++ i.op

/-- The command the decoder reads from an opcode-table word: the table numbers the 64-bit command word itself, bit 0 the
least significant (R90), and every bit above `nbits` is 0. -/
def decodeTableWord (nbits w : Nat) : Option Instr :=
  match decode (BitVec.ofNat 64 (w % 2 ^ nbits)) with
  | .ok i => some i
  | .error _ => none

end Sys2Proof
end

