-- ==== Sys2Proof/Machine/HostPort.lean ====
section
/-! DEFINITION. What the host can do to the block: the register map with its access rights (spec/10_state.md R20 to R29),
register and BUF accesses while BUSY is 0 and while it is 1 (spec/20_memory.md R60, R61, R64, R65, R68;
spec/70_reset_and_hazards.md R252 to R254), and reset (R240). -/

namespace Sys2Proof.Machine

/-- The seventeen interface registers (R20). -/
inductive Reg where
  | cmd | status | src1 | cnt1 | src2 | cnt2 | dest | key0 | key1 | key2 | key3 | iv0 | iv1 | macIn | macOut | lad | lct
deriving DecidableEq, Repr

/-- Access rights (R20). -/
inductive Access where
  | ro | wo | rw
deriving DecidableEq, Repr

/-- The byte offset of a register in the REG window (R20). -/
def Reg.offset : Reg → Nat
  | .cmd => 0x00
  | .status => 0x08
  | .src1 => 0x10
  | .cnt1 => 0x18
  | .src2 => 0x20
  | .cnt2 => 0x28
  | .dest => 0x30
  | .key0 => 0x40
  | .key1 => 0x48
  | .key2 => 0x50
  | .key3 => 0x58
  | .iv0 => 0x60
  | .iv1 => 0x68
  | .macIn => 0x70
  | .macOut => 0x78
  | .lad => 0x80
  | .lct => 0x88

/-- The access rights of a register (R20). -/
def Reg.access : Reg → Access
  | .cmd => .wo
  | .status => .ro
  | .src1 => .rw
  | .cnt1 => .rw
  | .src2 => .rw
  | .cnt2 => .rw
  | .dest => .rw
  | .key0 => .wo
  | .key1 => .wo
  | .key2 => .wo
  | .key3 => .wo
  | .iv0 => .rw
  | .iv1 => .rw
  | .macIn => .rw
  | .macOut => .ro
  | .lad => .ro
  | .lct => .ro

/-- The register at an offset; every other offset of the window is reserved (R20, R64). -/
def regAt : Nat → Option Reg
  | 0x00 => some .cmd
  | 0x08 => some .status
  | 0x10 => some .src1
  | 0x18 => some .cnt1
  | 0x20 => some .src2
  | 0x28 => some .cnt2
  | 0x30 => some .dest
  | 0x40 => some .key0
  | 0x48 => some .key1
  | 0x50 => some .key2
  | 0x58 => some .key3
  | 0x60 => some .iv0
  | 0x68 => some .iv1
  | 0x70 => some .macIn
  | 0x78 => some .macOut
  | 0x80 => some .lad
  | 0x88 => some .lct
  | _ => none

/-- A host write to a register while BUSY = 0: a CMD write launches a command (R21), a write to a read-only register is
ignored (R64), any other register holds the value (R23 to R27). -/
def writeReg (r : Reg) (v : Word) (s : State) : State :=
  match r with
  | .cmd => { s with cmdl := v, busy := true, ovr := false }
  | .src1 => { s with regs := { s.regs with src1 := v } }
  | .cnt1 => { s with regs := { s.regs with cnt1 := v } }
  | .src2 => { s with regs := { s.regs with src2 := v } }
  | .cnt2 => { s with regs := { s.regs with cnt2 := v } }
  | .dest => { s with regs := { s.regs with dest := v } }
  | .key0 => { s with regs := { s.regs with key0 := v } }
  | .key1 => { s with regs := { s.regs with key1 := v } }
  | .key2 => { s with regs := { s.regs with key2 := v } }
  | .key3 => { s with regs := { s.regs with key3 := v } }
  | .iv0 => { s with regs := { s.regs with iv0 := v } }
  | .iv1 => { s with regs := { s.regs with iv1 := v } }
  | .macIn => { s with regs := { s.regs with macIn := v } }
  | .status => s
  | .macOut => s
  | .lad => s
  | .lct => s

/-- What a register reads as while BUSY = 0: a write-only register reads 0 (R64), LAD and LCT are views of the session
(R29). -/
def readReg (r : Reg) (s : State) : Word :=
  match r with
  | .cmd => 0
  | .status => statusWord s
  | .src1 => s.regs.src1
  | .cnt1 => s.regs.cnt1
  | .src2 => s.regs.src2
  | .cnt2 => s.regs.cnt2
  | .dest => s.regs.dest
  | .key0 => 0
  | .key1 => 0
  | .key2 => 0
  | .key3 => 0
  | .iv0 => s.regs.iv0
  | .iv1 => s.regs.iv1
  | .macIn => s.regs.macIn
  | .macOut => s.regs.macOut
  | .lad => s.ses.lad
  | .lct => s.ses.lct

/-- A host register write at an offset of the window (R21, R64, R252): while BUSY = 1 it is ignored and sets OVR, at a
reserved offset too. -/
def hostWriteReg (off : Nat) (v : Word) (s : State) : State :=
  if s.busy then { s with ovr := true }
  else
    match regAt off with
    | some r => writeReg r v s
    | none => s

/-- The value a register read returns while BUSY = 1 (R253). A reserved offset is no register: it reads 0 (R64; log entry
6). -/
def busyReadValue (p : Params) (off : Nat) (s : State) : Word :=
  match regAt off with
  | some .status => busyStatusWord s (p.drawWord s.host.draws)
  | some _ => p.drawWord s.host.draws
  | none => 0

/-- The value a register read returns while BUSY = 0 (R20, R64). -/
def idleReadValue (off : Nat) (s : State) : Word :=
  match regAt off with
  | some r => readReg r s
  | none => 0

/-- The host notes a value it has read. -/
def noteRead (x : HostRead) (s : State) : State := { s with host := { s.host with reads := x :: s.host.reads } }

/-- One free value has been drawn. -/
def countDraw (s : State) : State := { s with host := { s.host with draws := s.host.draws + 1 } }

/-- A host register read at an offset of the window. It changes nothing in the block (R69, R253). -/
def hostReadReg (p : Params) (off : Nat) (s : State) : State :=
  if s.busy then countDraw (noteRead (.reg off (busyReadValue p off s)) s)
  else noteRead (.reg off (idleReadValue off s)) s

/-- A host write of one octet of BUF. While BUSY = 1 it is the fault BUF_RACE, and whether the pending command sees it is a
free choice: if it does not, the octet lands when the command has ended (R68; log entry 7). -/
def hostWriteBuf (p : Params) (a : Nat) (v : Byte) (s : State) : State :=
  if s.busy then
    addFault .bufRace (countDraw
      { s with
        buf := if p.drawSeen s.host.draws then s.buf.write a v else s.buf
        host := { s.host with late := if p.drawSeen s.host.draws then s.host.late else s.host.late ++ [(a, v)] } })
  else { s with buf := s.buf.write a v }

/-- A host read of one octet of BUF. While BUSY = 1 it is the fault BUF_RACE and returns any octet (R68). -/
def hostReadBuf (p : Params) (a : Nat) (s : State) : State :=
  if s.busy then addFault .bufRace (countDraw (noteRead (.octet a (p.drawOctet s.host.draws)) s))
  else noteRead (.octet a (s.buf.read a)) s

/-- A register access that is one aligned 64-bit access (R65). -/
def regAccessOK (off size : Nat) : Bool := size == 8 && off % 8 == 0

/-- A register access: outside the window there is no register (R60), an access of another width or alignment is refused
(R65). -/
def regAccess (off size : Nat) (s : State) : Host.Outcome State Fault Refusal :=
  if off < 0x100 then if regAccessOK off size then .next s else .refused .regNarrowAccess
  else .fault .regOutsideWindow

/-- A BUF access: at `2^BUF_ADDR_W` and above there is no octet (R61). -/
def bufAccess (p : Params) (a : Nat) (s : State) : Host.Outcome State Fault Refusal :=
  if a < bufSize p then .next s else .fault .bufOutsideSpace

/-- One host action (R15, R98). -/
def hostAct (p : Params) (x : HostAction) (s : State) : Host.Outcome State Fault Refusal :=
  match x with
  | .regWrite off size v => regAccess off size (hostWriteReg off v s)
  | .regRead off size => regAccess off size (hostReadReg p off s)
  | .bufWrite a v => bufAccess p a (hostWriteBuf p a v s)
  | .bufRead a => bufAccess p a (hostReadBuf p a s)

/-- Reset (R240, R42): every register and internal field at its reset value, a pending command discarded; BUF, `S.FAULTS`
and what the host is about to do and has read are not the block's to clear. -/
def resetBlock (s : State) : State :=
  { State.reset with buf := s.buf, faults := s.faults, host := { s.host with late := [] } }

end Sys2Proof.Machine
end

