-- ==== Sys2Proof/Machine/Schedule.lean ====
section
/-! DEFINITION. The core step (spec/70_reset_and_hazards.md R250) and the turns of the interleaving (spec/00_scope.md R15,
spec/30_encoding.md R98, R100; R240). Which agent moves next is plain data in the state: `host.turns` (log entry 8). The
meaning of a decoded command is the argument `ex`: `exec` for the machine itself. -/

namespace Sys2Proof.Machine

/-- What a decoded command does. -/
abbrev Meaning := Instr → State → Host.Outcome State Fault Refusal

/-- The latched word is decoded and run; a word that does not decode finishes BAD_CMD (R211, R250). -/
def runLatched (ex : Meaning) (s : State) : Host.Outcome State Fault Refusal :=
  match decode s.cmdl with
  | .ok i => ex i s
  | .error _ => .next (finish .badCmd s)

/-- The octets of raced host writes that the ended command did not see reach BUF (R68; log entry 7). -/
def landLate (s : State) : State :=
  { s with buf := s.host.late.foldl (fun m x => m.write x.1 x.2) s.buf, host := { s.host with late := [] } }

/-- What follows a command that has ended. -/
def afterCommand : Host.Outcome State Fault Refusal → Host.Outcome State Fault Refusal
  | .next s => .next (landLate s)
  | .fault f => .fault f
  | .refused r => .refused r

/-- The core step, where it is enabled: BUSY = 1 (R250). -/
def coreStep (ex : Meaning) (s : State) : Host.Outcome State Fault Refusal := afterCommand (runLatched ex s)

/-- The core's turn: without a pending command nothing happens (R250). -/
def coreTurn (ex : Meaning) (s : State) : Host.Outcome State Fault Refusal :=
  if s.busy then coreStep ex s else .next s

/-- The state with other turns to come. -/
def setTurns (ts : List Turn) (s : State) : State := { s with host := { s.host with turns := ts } }

/-- The host's `wait` with `polls` reads to go before the core moves (R98): each read is one turn; a read that finds
BUSY = 0 ends the wait. -/
def waitTurn (p : Params) (ex : Meaning) (polls : Nat) (s : State) : Host.Outcome State Fault Refusal :=
  match s.busy, polls with
  | false, _ => .next (hostReadReg p Reg.status.offset s)
  | true, k + 1 => .next (hostReadReg p Reg.status.offset (setTurns (.wait k :: s.host.turns) s))
  | true, 0 => coreStep ex (setTurns (.wait 0 :: s.host.turns) s)

/-- One turn, already taken off the list. -/
def takeTurn (p : Params) (ex : Meaning) (t : Turn) (s : State) : Host.Outcome State Fault Refusal :=
  match t with
  | .host x => hostAct p x s
  | .wait polls => waitTurn p ex polls s
  | .core => coreTurn ex s
  | .reset => .next (resetBlock s)

/-- The next turn, or, when none is listed, the core's: a pending command is executed in the end (R251), and an idle core
waits for a CMD write (R241). -/
def nextTurn (p : Params) (ex : Meaning) (s : State) : Host.Outcome State Fault Refusal :=
  match s.host.turns with
  | [] => coreTurn ex s
  | t :: ts => takeTurn p ex t (setTurns ts s)

/-- The turns with the core's first; with none listed it is the core's turn already. -/
def coreFirst : List Turn → List Turn
  | [] => []
  | t :: ts => .core :: t :: ts

/-- `s` with a word latched as by an accepted CMD write, the core to move next. -/
def latchWord (w : Word) (s : State) : State :=
  { setTurns (coreFirst s.host.turns) s with cmdl := w, busy := true }

end Sys2Proof.Machine
end

