-- ==== Sys2Proof/Machine/Step.lean ====
section
/-! DEFINITION. One step of the machine: one turn of the host, the core or the platform (spec/00_scope.md R15). -/

namespace Sys2Proof.Machine

/-- One step. -/
def step (s : State) : Host.Outcome State Fault Refusal := nextTurn Config.params exec s

/-- `s` with an opcode-table word as the pending command, so that the next step runs it (log entry 9). -/
def State.withFetchWord (s : State) (nbits w : Nat) : State := latchWord (BitVec.ofNat 64 (w % 2 ^ nbits)) s

end Sys2Proof.Machine
end

