-- ==== Sys2Proof/Machine/Command.lean ====
section
/-! DEFINITION. The ten commands at any set of parameters. `exec` (Machine/Dispatch.lean) is this function at `Config.params`
(Laws/Commands.lean, `exec_eq`); an example set of parameters can be put in its place to evaluate a command. -/

namespace Sys2Proof.Machine

/-- The state a command leaves: every command ends with a result code, and none stops the core (spec/93_implementation_defined.md
section 1, last paragraph). -/
def command (p : Params) (i : Instr) (s : State) : State :=
  match i with
  | .start kl => cmdStart p kl s
  | .stepi => cmdStepi p s
  | .stepe => cmdStepe p s
  | .stepd => cmdStepd p s
  | .stepa => cmdStepa p s
  | .stepg => cmdStepg p s
  | .stepv => cmdStepv p s
  | .wrap kl => cmdWrap p kl s
  | .unwrap kl => cmdUnwrap p kl s
  | .zeroize => cmdZeroize s

/-- `command` as an outcome. -/
def commandOutcome (p : Params) (i : Instr) (s : State) : Host.Outcome State Fault Refusal := .next (command p i s)

end Sys2Proof.Machine
end

