-- ==== Sys2Proof/Safety.lean ====
section
/-! DEFINITION. The terms the statements use: the closed forms of the keystream and the tag (spec/40_primitives.md R132, R134),
written on octet sequences and not on the machine's procedures, and what a sound state is (spec/10_state.md R40). -/

namespace Sys2Proof.Safety

open Sys2Proof.Machine

/-- Octet `i` of an octet array. -/
def octetAt {n : Nat} (b : Octets n) (i : Nat) : Byte := b.toList.getD i 0

/-- Octet `m` of the keystream of a session under the scheduled key `sk` with the first counter `c0` (R132). -/
def keystreamAt (p : Params) (sk : Octets 32) (c0 : Block) (m : Nat) : Byte :=
  octetAt (p.beltEnc sk (oct (c0 + 1 + BitVec.ofNat 128 (m / 16)))) (m % 16)

/-- Octet `i` of the keystream that a session has not used yet: first the leftover octets, then those of the blocks to
come (R33, R131). -/
def keystreamAhead (p : Params) (q : Session) (i : Nat) : Byte :=
  if i < q.ksAvail.val then octetAt q.ks (16 - q.ksAvail.val + i)
  else keystreamAt p q.sk q.c (i - q.ksAvail.val)

/-- The octets of the current section that wait to be folded (R37). -/
def residue (q : Session) : List Byte := q.blk.toList.take q.filled.val

/-- `k` blocks of 16 octets folded in order: `T_i = (T_{i-1} ⊕ val(B_i)) ⊗ R` (R134). -/
def foldBlocks (p : Params) (r : Block) : Nat → Block → List Byte → Block
  | 0, t, _ => t
  | k + 1, t, xs => foldBlocks p r k (p.polymul (t ^^^ BitVec.ofNat 128 (leNat (xs.take 16))) r) (xs.drop 16)

/-- A section with zeros up to a multiple of 16 octets; nothing is added to one that is a multiple (R129, R134). -/
def padSection (xs : List Byte) : List Byte := xs ++ List.replicate ((16 - xs.length % 16) % 16) 0

/-- A whole section folded into `t` (R134). -/
def sectionHash (p : Params) (r t : Block) (xs : List Byte) : Block :=
  foldBlocks p r ((padSection xs).length / 16) t (padSection xs)

/-- The finalized block: the length block folded into `t`, then encrypted (R133, R134). -/
def finalBlock (p : Params) (sk : Octets 32) (r t : Block) (lad lct : Nat) : Block :=
  val (p.beltEnc sk (oct (p.polymul (t ^^^ BitVec.ofNat 128 (lad + 2 ^ 64 * lct)) r)))

/-- The tag of associated data `ad` and ciphertext `ct` as a 64-bit register value (R134, R62 e). -/
def tagOf (p : Params) (sk : Octets 32) (r : Block) (ad ct : List Byte) : Word :=
  (finalBlock p sk r (sectionHash p r (sectionHash p r (val p.beltH) ad) ct) (8 * ad.length) (8 * ct.length)).extractLsb' 0 64

/-- The scheduled key of a session opened with the key registers (R122). -/
def sessionKey (p : Params) (n : KeySize) (g : Regs) : Octets 32 := p.keyExp n (g.key n)

/-- The first counter, `E_K(IV)` (R150). -/
def firstCounter (p : Params) (n : KeySize) (g : Regs) : Block := val (p.beltEnc (sessionKey p n g) g.iv)

/-- The hash key (R151). -/
def hashKey (p : Params) (n : KeySize) (g : Regs) : Block :=
  match p.rDeriv with
  | .single => firstCounter p n g
  | .double => val (p.beltEnc (sessionKey p n g) (oct (firstCounter p n g)))

/-- The associated data of an envelope: the octets of `[SRC2, SRC2 + CNT2)`. -/
def adOctets (s : State) : List Byte := s.buf.readRange s.regs.src2.toNat s.regs.cnt2.toNat

/-- The payload of an envelope: the octets of `[SRC1, SRC1 + CNT1)`. -/
def srcOctets (s : State) : List Byte := s.buf.readRange s.regs.src1.toNat s.regs.cnt1.toNat

/-- The octets `xs` XORed with the keystream of a session that starts with key `sk` and counter `c0`. -/
def xorKeystream (p : Params) (sk : Octets 32) (c0 : Block) (xs : List Byte) : List Byte :=
  xs.mapIdx fun m x => x ^^^ keystreamAt p sk c0 m

/-- The host has put an address and a count into SRC1 and CNT1. -/
def withRange (a n : Word) (s : State) : State := { s with regs := { s.regs with src1 := a, cnt1 := n } }

/-- A streaming command run over consecutive chunks of the given lengths, from address `a` on. -/
def chunked (i : Instr) : Nat → List Nat → State → State
  | _, [], s => s
  | a, n :: ns, s =>
    match exec i (withRange (BitVec.ofNat 64 a) (BitVec.ofNat 64 n) s) with
    | .next t => chunked i (a + n) ns t
    | _ => s

/-- An operand range is valid: it is empty or ends inside BUF (R160). -/
abbrev InSpace (a n : Nat) : Prop := n = 0 ∨ a + n ≤ 2 ^ Config.params.bufAddrW

/-- The operand checks of WRAP and UNWRAP (R190), on the registers. -/
abbrev EnvelopeValid (kl : KeyCode) (g : Regs) : Prop :=
  kl ≠ .illegal ∧ InSpace g.src1.toNat g.cnt1.toNat ∧ InSpace g.src2.toNat g.cnt2.toNat ∧
    InSpace g.dest.toNat g.cnt1.toNat ∧ 8 * g.cnt1.toNat ≤ 2 ^ 64 - 1 ∧ 8 * g.cnt2.toNat ≤ 2 ^ 64 - 1 ∧
    (g.src1.toNat = g.dest.toNat ∨ g.cnt1.toNat = 0 ∨ g.src1.toNat + g.cnt1.toNat ≤ g.dest.toNat ∨
      g.dest.toNat + g.cnt1.toNat ≤ g.src1.toNat)

/-- The tag of a session whose hash ends now: its residue padded and folded, then the length block (R133). -/
def sessionTag (p : Params) (q : Session) : Word :=
  (finalBlock p q.sk q.r (sectionHash p q.r q.t (residue q)) q.lad.toNat q.lct.toNat).extractLsb' 0 64

/-- The tag an envelope computes from `n` key octets, the IV, its associated data and a ciphertext (R134). -/
def envelopeTag (p : Params) (n : KeySize) (s : State) (ct : List Byte) : Word :=
  tagOf p (sessionKey p n s.regs) (hashKey p n s.regs) (adOctets s) ct

/-- The phase after a command that is not refused, by the table of R158; `none` is an ORDER entry. `n` is CNT1. -/
def phaseTable (i : Instr) (ph : Phase) (n : Nat) : Option Phase :=
  match i, ph with
  | .start _, _ => some .ad
  | .stepi, .ad => some .ad
  | .stepi, _ => none
  | .stepa, .ad => some (if n = 0 then .ad else .ct)
  | .stepa, .ct => some .ct
  | .stepa, _ => none
  | .stepe, .ad => some (if n = 0 then .ad else .ct)
  | .stepe, .ct => some .ct
  | .stepe, .final => some .final
  | .stepe, .idle => none
  | .stepd, .ad => some (if n = 0 then .ad else .ct)
  | .stepd, .ct => some .ct
  | .stepd, .final => some .final
  | .stepd, .idle => none
  | .stepg, .ad => some .final
  | .stepg, .ct => some .final
  | .stepg, _ => none
  | .stepv, .ad => some .final
  | .stepv, .ct => some .final
  | .stepv, _ => none
  | .wrap _, _ => some .idle
  | .unwrap _, _ => some .idle
  | .zeroize, _ => some .idle

/-- The operand checks of a command that its phase permits (R160, R161, R190, R92). -/
def OperandsValid (i : Instr) (s : State) : Prop :=
  match i with
  | .start kl => kl ≠ .illegal
  | .stepi => InSpace s.regs.src1.toNat s.regs.cnt1.toNat ∧ s.ses.lad.toNat + 8 * s.regs.cnt1.toNat ≤ 2 ^ 64 - 1
  | .stepa => InSpace s.regs.src1.toNat s.regs.cnt1.toNat ∧ s.ses.lct.toNat + 8 * s.regs.cnt1.toNat ≤ 2 ^ 64 - 1
  | .stepe => InSpace s.regs.src1.toNat s.regs.cnt1.toNat
  | .stepd => InSpace s.regs.src1.toNat s.regs.cnt1.toNat
  | .stepg => True
  | .stepv => True
  | .wrap kl => EnvelopeValid kl s.regs
  | .unwrap kl => EnvelopeValid kl s.regs
  | .zeroize => True

/-- The tag comparison of a command that has one (R136). -/
def TagEqual (i : Instr) (s : State) : Prop :=
  match i with
  | .stepv => sessionTag Config.params s.ses = s.regs.macIn
  | .unwrap kl => ∀ n, kl.size? = some n → envelopeTag Config.params n s (srcOctets s) = s.regs.macIn
  | _ => True

/-- The core is the next to move: it is its turn, or no turn is listed. `ts` are the turns after it. -/
def CoreMoves (s : State) (ts : List Turn) : Prop := (s.host.turns = [] ∧ ts = []) ∨ s.host.turns = .core :: ts

/-- The step from `s` to `t` is one in which the core executes the latched word: a command is pending, and it is the core's
turn, or a `wait` with no poll left; raced host writes land at its end (R250, log entry 7). -/
def CoreRuns (s t : State) : Prop :=
  s.busy = true ∧ ∃ ts u, (CoreMoves s ts ∨ ∃ us, s.host.turns = .wait 0 :: us ∧ ts = .wait 0 :: us) ∧
    runLatched exec (setTurns ts s) = .next u ∧ t = landLate u

/-- What holds of the session fields between commands (R40, R158). -/
structure SessionSound (q : Session) : Prop where
  /-- In IDLE every session field holds its reset value. -/
  idle : q.phase = .idle → q = Session.reset
  /-- In AD no ciphertext has been counted and no keystream is left over. -/
  ad : q.phase = .ad → q.lct = 0 ∧ q.ksAvail = 0
  /-- In FINAL no residue is left. -/
  final : q.phase = .final → q.filled = 0
  /-- The length counters count whole octets. -/
  ladOctets : q.lad.toNat % 8 = 0
  lctOctets : q.lct.toNat % 8 = 0

/-- The invariant of the machine: the session is sound, BUF is in its canonical form and lies inside the buffer space,
OUT_OF_MEMORY is never recorded (R216), and a late BUF write is one of a recorded race under a pending command. -/
structure Sound (s : State) : Prop where
  session : SessionSound s.ses
  bufWf : s.buf.wf = true
  bufInSpace : ∀ c ∈ s.buf, c.1 < bufSize Config.params
  errWritten : s.err ≠ .outOfMemory
  lateInSpace : ∀ c ∈ s.host.late, c.1 < bufSize Config.params
  lateBusy : s.host.late ≠ [] → s.busy = true
  lateRaced : s.host.late ≠ [] → .bufRace ∈ s.faults

/-- The phase numbers of R30. -/
def phaseNumber : Phase → Nat
  | .idle => 0
  | .ad => 1
  | .ct => 2
  | .final => 3

/-- The result code numbers of R210. -/
def resultNumber : ResultCode → Nat
  | .ok => 0
  | .badInput => 1
  | .outOfMemory => 2
  | .badMac => 3
  | .badOrder => 4
  | .badCmd => 5

/-- `s` ended with a refusal code and nothing else changed (R212). -/
def refusedWith (e : ResultCode) (s : State) : State := { s with err := e, busy := false }

/-- How many steps the listed turns can take: a `wait` takes a step for each poll, one for the core and one to end. -/
def turnBound : List Turn → Nat
  | [] => 0
  | .wait polls :: ts => polls + 2 + turnBound ts
  | _ :: ts => 1 + turnBound ts

/-- `k` steps, as long as each answers a next state. -/
def steps : Nat → State → Option State
  | 0, s => some s
  | k + 1, s =>
    match step s with
    | .next t => steps k t
    | _ => none

/-- The turn is a host access to an octet of BUF. -/
def isBufAccess : Turn → Bool
  | .host (.bufWrite _ _) => true
  | .host (.bufRead _) => true
  | _ => false

/-- Two states that differ at most in what no register read may show: the key registers and the hidden session fields
(R25, R44, R218). -/
structure SameToHost (s t : State) : Prop where
  src1 : t.regs.src1 = s.regs.src1
  cnt1 : t.regs.cnt1 = s.regs.cnt1
  src2 : t.regs.src2 = s.regs.src2
  cnt2 : t.regs.cnt2 = s.regs.cnt2
  dest : t.regs.dest = s.regs.dest
  iv0 : t.regs.iv0 = s.regs.iv0
  iv1 : t.regs.iv1 = s.regs.iv1
  macIn : t.regs.macIn = s.regs.macIn
  macOut : t.regs.macOut = s.regs.macOut
  phase : t.ses.phase = s.ses.phase
  filled : t.ses.filled = s.ses.filled
  ksAvail : t.ses.ksAvail = s.ses.ksAvail
  lad : t.ses.lad = s.ses.lad
  lct : t.ses.lct = s.ses.lct
  busy : t.busy = s.busy
  ovr : t.ovr = s.ovr
  err : t.err = s.err
  buf : t.buf = s.buf
  host : t.host = s.host

/-- Two states that differ at most in a latched word that no command is pending under. -/
structure SameButLatch (s t : State) : Prop where
  rest : t = { s with cmdl := t.cmdl }
  pending : s.busy = true → t.cmdl = s.cmdl

/-- Octet `x` of BUF is in the range a command writes: that of SRC1 for STEPE and STEPD (R166, R167), that of DEST for WRAP
and UNWRAP (R191, R193). -/
def Writes (i : Instr) (g : Regs) (x : Nat) : Prop :=
  match i with
  | .stepe => g.src1.toNat ≤ x ∧ x < g.src1.toNat + g.cnt1.toNat
  | .stepd => g.src1.toNat ≤ x ∧ x < g.src1.toNat + g.cnt1.toNat
  | .wrap _ => g.dest.toNat ≤ x ∧ x < g.dest.toNat + g.cnt1.toNat
  | .unwrap _ => g.dest.toNat ≤ x ∧ x < g.dest.toNat + g.cnt1.toNat
  | .start _ => False
  | .stepi => False
  | .stepa => False
  | .stepg => False
  | .stepv => False
  | .zeroize => False

end Sys2Proof.Safety
end

