-- ==== Sys2Proof/Certificates/Slice0/Obligations.lean ====
section
/-! DEFINITION. The statements about the model, from the numbered rules of the spec. A statement is about every state unless
it names a premise; `s.buf.wf = true` is the canonical form of BUF, which `SoundKept` shows every step to keep. -/

open Sys2Proof Sys2Proof.Machine Sys2Proof.Safety

/-! ## The command word -/

/-- R90 to R95: the words that decode to a command are exactly its encoding, so no word stands for two commands and every
command has one word. -/
def Obligations.DecodeInvertsEncode : Prop :=
  ∀ (v : Word) (i : Instr), decode v = .ok i ↔ v = encode i

/-- R93, R94 and the third line of R95: the words that are malformed, by their bits alone. -/
def Obligations.MalformedWords : Prop :=
  ∀ v : Word, (∃ e, decode v = .error e) ↔
    (64 ≤ v.toNat ∨ v.toNat % 16 = 0 ∨ 0xB ≤ v.toNat % 16 ∨
      (v.toNat % 16 ≠ 1 ∧ v.toNat % 16 ≠ 8 ∧ v.toNat % 16 ≠ 9 ∧ v.toNat / 16 % 4 ≠ 0))

/-- R97: the table of command words. -/
def Obligations.SpecWordsDecode : Prop :=
  decode 0x01 = .ok (.start .k16) ∧ decode 0x11 = .ok (.start .k24) ∧ decode 0x21 = .ok (.start .k32) ∧
    decode 0x31 = .ok (.start .illegal) ∧ decode 0x02 = .ok .stepi ∧ decode 0x03 = .ok .stepe ∧
    decode 0x04 = .ok .stepd ∧ decode 0x05 = .ok .stepa ∧ decode 0x06 = .ok .stepg ∧ decode 0x07 = .ok .stepv ∧
    decode 0x08 = .ok (.wrap .k16) ∧ decode 0x18 = .ok (.wrap .k24) ∧ decode 0x28 = .ok (.wrap .k32) ∧
    decode 0x38 = .ok (.wrap .illegal) ∧ decode 0x09 = .ok (.unwrap .k16) ∧ decode 0x19 = .ok (.unwrap .k24) ∧
    decode 0x29 = .ok (.unwrap .k32) ∧ decode 0x39 = .ok (.unwrap .illegal) ∧ decode 0x0A = .ok .zeroize

/-! ## The core step -/

/-- R250: the core steps only under BUSY = 1; its step runs the decoded command (or records BAD_CMD), after which BUSY is 0
and OVR is as before. `late` holds raced host writes only (log entry 7); with none pending the step is the command. -/
def Obligations.StepRunsDecodedCommand : Prop :=
  ∀ (s : State) (ts : List Turn), CoreMoves s ts →
    (s.busy = false → step s = .next (setTurns ts s)) ∧
    (s.busy = true → ∀ i, decode s.cmdl = .ok i →
      step s = afterCommand (exec i (setTurns ts s)) ∧
      (s.host.late = [] → step s = exec i (setTurns ts s))) ∧
    (s.busy = true → ∀ e, decode s.cmdl = .error e → s.host.late = [] →
      step s = .next { setTurns ts s with err := .badCmd, busy := false }) ∧
    (s.busy = true → ∃ t, step s = .next t ∧ t.busy = false ∧ t.ovr = s.ovr)

/-- R211: a malformed word, by its bits, records BAD_CMD, clears BUSY and does nothing else. -/
def Obligations.BadCmdChangesNothing : Prop :=
  ∀ (s : State) (ts : List Turn), CoreMoves s ts → s.busy = true → s.host.late = [] →
    (64 ≤ s.cmdl.toNat ∨ s.cmdl.toNat % 16 = 0 ∨ 0xB ≤ s.cmdl.toNat % 16 ∨
      (s.cmdl.toNat % 16 ≠ 1 ∧ s.cmdl.toNat % 16 ≠ 8 ∧ s.cmdl.toNat % 16 ≠ 9 ∧ s.cmdl.toNat / 16 % 4 ≠ 0)) →
    step s = .next { s with err := .badCmd, busy := false, host := { s.host with turns := ts } }

/-- spec/93_implementation_defined.md section 1: every command terminates with a result code; R38 and R250: it writes neither
the latched word, OVR, the fault record nor the host's side; R216: the code is never OUT_OF_MEMORY. -/
def Obligations.EveryCommandEnds : Prop :=
  ∀ (i : Instr) (s : State), ∃ t, exec i s = .next t ∧ t.busy = false ∧ t.cmdl = s.cmdl ∧ t.ovr = s.ovr ∧
    t.faults = s.faults ∧ t.host = s.host ∧ t.err ≠ .outOfMemory

/-- R251: with a command pending, BUSY falls to 0 within a number of steps that the listed turns bound, unless the host
makes an access that stops the model first. That the core moves when no turn is listed is log entry 8. -/
def Obligations.PendingCommandEnds : Prop :=
  ∀ s : State, s.busy = true →
    ∃ k, k ≤ turnBound s.host.turns + 1 ∧ ∀ t, steps k s = some t → t.busy = false

/-- R98, `wait`: STATUS is read until BUSY = 0; each read is one host step. How many reads come before the core's step is
the schedule's (log entry 13). -/
def Obligations.WaitPollsStatus : Prop :=
  ∀ (s : State) (k : Nat) (ts : List Turn), s.host.turns = .wait k :: ts →
    (s.busy = false → ∃ t, step s = .next t ∧
      t = { s with host := { s.host with turns := ts, reads := .reg 0x08 (statusWord s) :: s.host.reads } }) ∧
    (s.busy = true → ∀ j, k = j + 1 → ∃ v : Word, v.getLsbD 0 = true ∧ v.getLsbD 1 = s.ovr ∧
      step s = .next { s with host := { s.host with
        turns := .wait j :: ts, reads := .reg 0x08 v :: s.host.reads, draws := s.host.draws + 1 } }) ∧
    (s.busy = true → k = 0 → ∃ t, step s = .next t ∧ t.busy = false ∧ t.host.turns = .wait 0 :: ts)

/-! ## Result codes and phases -/

/-- R212: a command that ends in BAD_INPUT or BAD_ORDER, and a word that ends in BAD_CMD, records its code, clears BUSY and
changes nothing else; BAD_MAC is no refusal. -/
def Obligations.RefusalHasNoEffect : Prop :=
  (∀ (i : Instr) (s t : State), exec i s = .next t → t.err = .badInput ∨ t.err = .badOrder ∨ t.err = .badCmd →
    t = { s with err := t.err, busy := false }) ∧
  (∀ (e : DecodeError) (s : State), decode s.cmdl = .error e →
    runLatched exec s = .next { s with err := .badCmd, busy := false }) ∧
  (∀ s t : State, exec .stepv s = .next t → t.err = .badMac → t.ses.phase = .final) ∧
  (∀ (kl : KeyCode) (s t : State), exec (.unwrap kl) s = .next t → t.err = .badMac → t.ses = Session.reset)

/-- R214: the result code is the first that applies, of BAD_CMD (the word), BAD_ORDER (the phase), BAD_INPUT (the
operands) and BAD_MAC (the tag). -/
def Obligations.CheckOrder : Prop :=
  (∀ (s : State) (e : DecodeError), decode s.cmdl = .error e → ∃ t, runLatched exec s = .next t ∧ t.err = .badCmd) ∧
  (∀ (s : State) (i : Instr), decode s.cmdl = .ok i → ∃ t, runLatched exec s = .next t ∧
    (phaseTable i s.ses.phase s.regs.cnt1.toNat = none → t.err = .badOrder) ∧
    (phaseTable i s.ses.phase s.regs.cnt1.toNat ≠ none → ¬ OperandsValid i s → t.err = .badInput) ∧
    (phaseTable i s.ses.phase s.regs.cnt1.toNat ≠ none → OperandsValid i s → ¬ TagEqual i s → t.err = .badMac) ∧
    (phaseTable i s.ses.phase s.regs.cnt1.toNat ≠ none → OperandsValid i s → TagEqual i s → t.err = .ok))

/-- R158 (the spec derives it from the command rules): the phase after every command in every phase. -/
def Obligations.PhaseTransitions : Prop :=
  ∀ (i : Instr) (s t : State), exec i s = .next t →
    (t.err = .badOrder ↔ phaseTable i s.ses.phase s.regs.cnt1.toNat = none) ∧
    (t.err = .badOrder ∨ t.err = .badInput → t.ses.phase = s.ses.phase) ∧
    (t.err = .ok ∨ t.err = .badMac → phaseTable i s.ses.phase s.regs.cnt1.toNat = some t.ses.phase)

/-- R159: StepI may follow only Start and StepI; finalization is one-shot, STEPE and STEPD excepted. -/
def Obligations.OrderingRule : Prop :=
  ∀ s : State,
    (s.ses.phase = .ct ∨ s.ses.phase = .final → exec .stepi s = .next (refusedWith .badOrder s)) ∧
    (s.ses.phase = .final →
      exec .stepa s = .next (refusedWith .badOrder s) ∧ exec .stepg s = .next (refusedWith .badOrder s) ∧
      exec .stepv s = .next (refusedWith .badOrder s) ∧
      ∀ i t, (i = .stepe ∨ i = .stepd) → exec i s = .next t → t.err ≠ .badOrder) ∧
    (∀ t, exec .stepi s = .next t → t.err = .ok → t.ses.phase = .ad) ∧
    (∀ i t, (i = .stepg ∨ i = .stepv) → exec i s = .next t → t.err ≠ .badOrder → t.ses.phase = .final)

/-- R160: RangeOK, for every command with a BUF operand. -/
def Obligations.RangeRule : Prop :=
  (∀ (i : Instr) (s : State), (i = .stepi ∨ i = .stepa ∨ i = .stepe ∨ i = .stepd) →
    phaseTable i s.ses.phase s.regs.cnt1.toNat ≠ none →
    ¬ (s.regs.cnt1.toNat = 0 ∨ s.regs.src1.toNat + s.regs.cnt1.toNat ≤ 2 ^ Config.params.bufAddrW) →
    exec i s = .next (refusedWith .badInput s)) ∧
  (∀ (i : Instr) (kl : KeyCode) (s : State), (i = .wrap kl ∨ i = .unwrap kl) →
    ¬ ((s.regs.cnt1.toNat = 0 ∨ s.regs.src1.toNat + s.regs.cnt1.toNat ≤ 2 ^ Config.params.bufAddrW) ∧
      (s.regs.cnt2.toNat = 0 ∨ s.regs.src2.toNat + s.regs.cnt2.toNat ≤ 2 ^ Config.params.bufAddrW) ∧
      (s.regs.cnt1.toNat = 0 ∨ s.regs.dest.toNat + s.regs.cnt1.toNat ≤ 2 ^ Config.params.bufAddrW)) →
    exec i s = .next (refusedWith .badInput s)) ∧
  (∀ (i : Instr) (s : State), (i = .stepi ∨ i = .stepa ∨ i = .stepe ∨ i = .stepd) → s.regs.cnt1.toNat = 0 →
    phaseTable i s.ses.phase s.regs.cnt1.toNat ≠ none →
    exec i s = .next (refusedWith .ok s)) ∧
  (∀ (i : Instr) (kl : KeyCode) (s : State), (i = .wrap kl ∨ i = .unwrap kl) → kl ≠ .illegal →
    s.regs.cnt1.toNat = 0 → s.regs.cnt2.toNat = 0 → ∃ t, exec i s = .next t ∧ t.err ≠ .badInput)

/-- R161: a bit count that would pass `2^64 - 1` is refused, so the counters never wrap nor saturate. -/
def Obligations.LengthRule : Prop :=
  (∀ s : State, s.ses.phase = .ad → 2 ^ 64 - 1 < s.ses.lad.toNat + 8 * s.regs.cnt1.toNat →
    exec .stepi s = .next (refusedWith .badInput s)) ∧
  (∀ s : State, s.ses.phase = .ad ∨ s.ses.phase = .ct → 2 ^ 64 - 1 < s.ses.lct.toNat + 8 * s.regs.cnt1.toNat →
    exec .stepa s = .next (refusedWith .badInput s)) ∧
  (∀ s t : State, exec .stepi s = .next t → t.err = .ok →
    t.ses.lad.toNat = s.ses.lad.toNat + 8 * s.regs.cnt1.toNat ∧
    (s.ses.lad.toNat % 8 = 0 → t.ses.lad.toNat ≤ 2 ^ 64 - 8)) ∧
  (∀ s t : State, exec .stepa s = .next t → t.err = .ok →
    t.ses.lct.toNat = s.ses.lct.toNat + 8 * s.regs.cnt1.toNat ∧
    (s.ses.lct.toNat % 8 = 0 → t.ses.lct.toNat ≤ 2 ^ 64 - 8))

/-! ## START and ZEROIZE -/

/-- R150, R122, R151 and R152: START opens a session in every phase and replaces every session field; `KL = 3` is
refused. -/
def Obligations.StartOpensSession : Prop :=
  (∀ s : State, exec (.start .illegal) s = .next { s with err := .badInput, busy := false }) ∧
  (∀ (kl : KeyCode) (n : KeySize) (s : State), kl.size? = some n →
    exec (.start kl) s = .next { s with
      err := .ok
      busy := false
      ses :=
        { phase := .ad
          sk := Config.params.keyExp n (s.regs.key n)
          c := val (Config.params.beltEnc (Config.params.keyExp n (s.regs.key n)) s.regs.iv)
          ks := Octets.zero 16
          ksAvail := 0
          r := hashKey Config.params n s.regs
          t := val Config.params.beltH
          lad := 0
          lct := 0
          blk := Octets.zero 16
          filled := 0 } })

/-- R151: under SINGLE the hash key is the first counter, under DOUBLE its encryption. -/
def Obligations.HashKeyDerivation : Prop :=
  ∀ (kl : KeyCode) (n : KeySize) (s t : State), kl.size? = some n → exec (.start kl) s = .next t →
    (Config.params.rDeriv = .single → t.ses.r = t.ses.c) ∧
    (Config.params.rDeriv = .double → t.ses.r = val (Config.params.beltEnc t.ses.sk (oct t.ses.c))) ∧
    t.ses.c = val (Config.params.beltEnc t.ses.sk s.regs.iv)

/-- R25: the key octets past `n` are ignored by START, WRAP and UNWRAP: two states whose key registers agree on the first
`n` octets give the same results. -/
def Obligations.UnusedKeyOctetsIgnored : Prop :=
  ∀ (kl : KeyCode) (n : KeySize) (i : Instr) (s : State) (k0 k1 k2 k3 : Word), kl.size? = some n →
    (i = .start kl ∨ i = .wrap kl ∨ i = .unwrap kl) →
    (∀ j, j < n.octets →
      ({ s.regs with key0 := k0, key1 := k1, key2 := k2, key3 := k3 } : Regs).keyOctet j = s.regs.keyOctet j) →
    ∃ t t', exec i s = .next t ∧
      exec i { s with regs := { s.regs with key0 := k0, key1 := k1, key2 := k2, key3 := k3 } } = .next t' ∧
      t' = { t with regs := { t.regs with key0 := k0, key1 := k1, key2 := k2, key3 := k3 } }

/-- R25, R26, R27 and R62 (f): octet 0 of each register is its low 8 bits, and the register order is the octet order. -/
def Obligations.RegistersPackOctets : Prop :=
  ∀ g : Regs,
    (∀ k j, k < 4 → j < 8 →
      (g.key .k32).toList.getD (8 * k + j) 0
        = ([g.key0, g.key1, g.key2, g.key3].getD k 0).extractLsb' (8 * j) 8) ∧
    (∀ k j, k < 2 → j < 8 →
      g.iv.toList.getD (8 * k + j) 0 = ([g.iv0, g.iv1].getD k 0).extractLsb' (8 * j) 8) ∧
    (∀ j, j < 8 → g.macInOctets.toList.getD j 0 = g.macIn.extractLsb' (8 * j) 8) ∧
    (∀ n : KeySize, (g.key n).toList = (g.key .k32).toList.take n.octets)

/-- R154 and R155: ZEROIZE puts every session field, the key, IV and MAC registers at 0 in every phase; the address and
count registers, BUF and everything else are kept. -/
def Obligations.ZeroizeClears : Prop :=
  ∀ s : State, exec .zeroize s = .next { s with
    err := .ok
    busy := false
    regs := { s.regs with key0 := 0, key1 := 0, key2 := 0, key3 := 0, iv0 := 0, iv1 := 0, macIn := 0, macOut := 0 }
    ses :=
      { phase := .idle
        sk := Octets.zero 32
        c := 0
        ks := Octets.zero 16
        ksAvail := 0
        r := 0
        t := 0
        lad := 0
        lct := 0
        blk := Octets.zero 16
        filled := 0 } }

/-- R242 (the spec derives it): after ZEROIZE the block is as after a reset but for the address and count registers and
OVR; the latched word, which no host read shows, is kept too (log entry 14). -/
def Obligations.ZeroizeAgainstReset : Prop :=
  ∀ (s : State) (ts : List Turn), s.host.turns = .reset :: ts → s.host.late = [] → ∃ z r, exec .zeroize s = .next z ∧
    step s = .next r ∧
    z = { r with
      regs := { r.regs with
        src1 := s.regs.src1, cnt1 := s.regs.cnt1, src2 := s.regs.src2, cnt2 := s.regs.cnt2, dest := s.regs.dest }
      ovr := s.ovr
      cmdl := s.cmdl
      host := { r.host with turns := .reset :: ts } }

/-! ## STEPI, STEPA, STEPE, STEPD -/

/-- R162: STEPI counts `8·n` bits and absorbs its `n` octets behind the residue, folding each full block; nothing else
changes. Its refusals come in the order phase, range, length. -/
def Obligations.StepiAbsorbs : Prop :=
  ∀ s : State,
    (s.ses.phase ≠ .ad → exec .stepi s = .next (refusedWith .badOrder s)) ∧
    (s.ses.phase = .ad → ¬ (InSpace s.regs.src1.toNat s.regs.cnt1.toNat ∧
        s.ses.lad.toNat + 8 * s.regs.cnt1.toNat ≤ 2 ^ 64 - 1) → exec .stepi s = .next (refusedWith .badInput s)) ∧
    (s.ses.phase = .ad → InSpace s.regs.src1.toNat s.regs.cnt1.toNat →
      s.ses.lad.toNat + 8 * s.regs.cnt1.toNat ≤ 2 ^ 64 - 1 →
      ∃ t, exec .stepi s = .next t ∧
        t = { s with err := .ok, busy := false, ses := { s.ses with
          lad := t.ses.lad, t := t.ses.t, blk := t.ses.blk, filled := t.ses.filled } } ∧
        t.ses.lad.toNat = s.ses.lad.toNat + 8 * s.regs.cnt1.toNat ∧
        t.ses.filled.val = (s.ses.filled.val + s.regs.cnt1.toNat) % 16 ∧
        t.ses.t = foldBlocks Config.params s.ses.r ((s.ses.filled.val + s.regs.cnt1.toNat) / 16) s.ses.t
          (residue s.ses ++ srcOctets s) ∧
        residue t.ses = (residue s.ses ++ srcOctets s).drop (16 * ((s.ses.filled.val + s.regs.cnt1.toNat) / 16)) ∧
        (s.regs.cnt1.toNat = 0 → t = { s with err := .ok, busy := false }))

/-- R164 and R165: STEPA is STEPI for the ciphertext section; from AD its first octet pads and folds the AD residue and
enters CT, so that AD and CT octets never share a block. -/
def Obligations.StepaAbsorbs : Prop :=
  ∀ s : State,
    (s.ses.phase ≠ .ad → s.ses.phase ≠ .ct → exec .stepa s = .next (refusedWith .badOrder s)) ∧
    ((s.ses.phase = .ad ∨ s.ses.phase = .ct) → ¬ (InSpace s.regs.src1.toNat s.regs.cnt1.toNat ∧
        s.ses.lct.toNat + 8 * s.regs.cnt1.toNat ≤ 2 ^ 64 - 1) → exec .stepa s = .next (refusedWith .badInput s)) ∧
    ((s.ses.phase = .ad ∨ s.ses.phase = .ct) → InSpace s.regs.src1.toNat s.regs.cnt1.toNat →
      s.ses.lct.toNat + 8 * s.regs.cnt1.toNat ≤ 2 ^ 64 - 1 →
      ∃ t, exec .stepa s = .next t ∧
        t = { s with err := .ok, busy := false, ses := { s.ses with
          phase := t.ses.phase, lct := t.ses.lct, t := t.ses.t, blk := t.ses.blk, filled := t.ses.filled } } ∧
        t.ses.lct.toNat = s.ses.lct.toNat + 8 * s.regs.cnt1.toNat ∧
        (s.regs.cnt1.toNat = 0 → t = { s with err := .ok, busy := false }) ∧
        (s.regs.cnt1.toNat ≠ 0 → t.ses.phase = .ct) ∧
        (s.regs.cnt1.toNat ≠ 0 → s.ses.phase = .ad →
          t.ses.filled.val = s.regs.cnt1.toNat % 16 ∧
          t.ses.t = foldBlocks Config.params s.ses.r (s.regs.cnt1.toNat / 16)
            (sectionHash Config.params s.ses.r s.ses.t (residue s.ses)) (srcOctets s) ∧
          residue t.ses = (srcOctets s).drop (16 * (s.regs.cnt1.toNat / 16))) ∧
        (s.regs.cnt1.toNat ≠ 0 → s.ses.phase = .ct →
          t.ses.filled.val = (s.ses.filled.val + s.regs.cnt1.toNat) % 16 ∧
          t.ses.t = foldBlocks Config.params s.ses.r ((s.ses.filled.val + s.regs.cnt1.toNat) / 16) s.ses.t
            (residue s.ses ++ srcOctets s) ∧
          residue t.ses = (residue s.ses ++ srcOctets s).drop (16 * ((s.ses.filled.val + s.regs.cnt1.toNat) / 16))))

/-- R166, R167 and R163: STEPE and STEPD XOR their range with the keystream in place and leave every other octet of BUF as
it was; the hash moves only by the flush of an AD residue, and the length counters not at all. -/
def Obligations.StepeStepdXor : Prop :=
  ∀ (i : Instr) (s : State), (i = .stepe ∨ i = .stepd) →
    (s.ses.phase = .idle → exec i s = .next (refusedWith .badOrder s)) ∧
    (s.ses.phase ≠ .idle → ¬ InSpace s.regs.src1.toNat s.regs.cnt1.toNat →
      exec i s = .next (refusedWith .badInput s)) ∧
    (s.ses.phase ≠ .idle → InSpace s.regs.src1.toNat s.regs.cnt1.toNat → s.buf.wf = true →
      ∃ t, exec i s = .next t ∧
        t = { s with err := .ok, busy := false, buf := t.buf, ses := { s.ses with
          phase := t.ses.phase, c := t.ses.c, ks := t.ses.ks, ksAvail := t.ses.ksAvail,
          t := t.ses.t, blk := t.ses.blk, filled := t.ses.filled } } ∧
        (∀ k, k < s.regs.cnt1.toNat → t.buf.read (s.regs.src1.toNat + k)
          = s.buf.read (s.regs.src1.toNat + k) ^^^ keystreamAhead Config.params s.ses k) ∧
        (∀ a, a < s.regs.src1.toNat ∨ s.regs.src1.toNat + s.regs.cnt1.toNat ≤ a → t.buf.read a = s.buf.read a) ∧
        (∀ k, keystreamAhead Config.params t.ses k
          = keystreamAhead Config.params s.ses (s.regs.cnt1.toNat + k)) ∧
        t.ses.c = s.ses.c + BitVec.ofNat 128 ((s.regs.cnt1.toNat - s.ses.ksAvail.val + 15) / 16) ∧
        t.ses.ksAvail.val = (s.ses.ksAvail.val + 15 * s.regs.cnt1.toNat) % 16 ∧
        (s.regs.cnt1.toNat = 0 → t = { s with err := .ok, busy := false }) ∧
        (s.regs.cnt1.toNat ≠ 0 → s.ses.phase = .ad → t.ses.phase = .ct ∧ t.ses.filled = 0 ∧
          t.ses.t = sectionHash Config.params s.ses.r s.ses.t (residue s.ses)) ∧
        (s.ses.phase ≠ .ad → t.ses.phase = s.ses.phase ∧ t.ses.filled = s.ses.filled ∧ t.ses.blk = s.ses.blk ∧
          t.ses.t = s.ses.t))

/-- R167: STEPD has exactly the effect of STEPE. -/
def Obligations.StepdIsStepe : Prop :=
  ∀ s : State, exec .stepd s = exec .stepe s ∧ encode .stepd = 0x04 ∧ encode .stepe = 0x03

/-! ## STEPG, STEPV -/

/-- R180 and R133: STEPG pads and folds the residue, folds the length block, encrypts, and puts the first 8 octets into
MAC_OUT; the length counters, the key, the counter and the keystream are kept. -/
def Obligations.StepgEmitsTag : Prop :=
  ∀ s : State,
    (s.ses.phase ≠ .ad → s.ses.phase ≠ .ct → exec .stepg s = .next (refusedWith .badOrder s)) ∧
    (s.ses.phase = .ad ∨ s.ses.phase = .ct → ∃ t, exec .stepg s = .next t ∧
      t = { s with
        err := .ok
        busy := false
        regs := { s.regs with macOut := t.ses.t.extractLsb' 0 64 }
        ses := { s.ses with phase := .final, t := t.ses.t, blk := t.ses.blk, filled := 0 } } ∧
      t.ses.t = val (Config.params.beltEnc s.ses.sk (oct (Config.params.polymul
        (sectionHash Config.params s.ses.r s.ses.t (residue s.ses)
          ^^^ BitVec.ofNat 128 (s.ses.lad.toNat + 2 ^ 64 * s.ses.lct.toNat)) s.ses.r))))

/-- R182, R183 and R136: STEPV finalizes as STEPG does and answers only whether the 8 tag octets equal MAC_IN; MAC_OUT is
not written. -/
def Obligations.StepvChecksTag : Prop :=
  ∀ s : State,
    (s.ses.phase ≠ .ad → s.ses.phase ≠ .ct → exec .stepv s = .next (refusedWith .badOrder s)) ∧
    (s.ses.phase = .ad ∨ s.ses.phase = .ct → ∃ t, exec .stepv s = .next t ∧
      t = { s with
        err := t.err
        busy := false
        ses := { s.ses with phase := .final, t := t.ses.t, blk := t.ses.blk, filled := 0 } } ∧
      t.ses.t = val (Config.params.beltEnc s.ses.sk (oct (Config.params.polymul
        (sectionHash Config.params s.ses.r s.ses.t (residue s.ses)
          ^^^ BitVec.ofNat 128 (s.ses.lad.toNat + 2 ^ 64 * s.ses.lct.toNat)) s.ses.r))) ∧
      (t.ses.t.extractLsb' 0 64 = s.regs.macIn → t.err = .ok) ∧
      (t.ses.t.extractLsb' 0 64 ≠ s.regs.macIn → t.err = .badMac))

/-- R181: after STEPG or STEPV no command resumes hashing in the session; the key, the counter and the keystream survive,
so STEPE and STEPD still run and leave the hash alone. -/
def Obligations.Finality : Prop :=
  (∀ (i : Instr) (s t : State), (i = .stepg ∨ i = .stepv) → exec i s = .next t → t.err ≠ .badOrder →
    t.ses.phase = .final ∧ t.ses.sk = s.ses.sk ∧ t.ses.c = s.ses.c ∧ t.ses.ks = s.ses.ks ∧
      t.ses.ksAvail = s.ses.ksAvail) ∧
  (∀ (i : Instr) (s t : State), s.ses.phase = .final → exec i s = .next t →
    (t.ses.phase = .final ∧ t.ses.t = s.ses.t ∧ t.ses.lad = s.ses.lad ∧ t.ses.lct = s.ses.lct ∧
      t.ses.blk = s.ses.blk ∧ t.ses.filled = s.ses.filled) ∨
    (∃ kl, i = .start kl ∨ i = .wrap kl ∨ i = .unwrap kl ∨ i = .zeroize))

/-- R183: STEPV and UNWRAP leave MAC_OUT unchanged, whatever the result. -/
def Obligations.NoTagDisclosure : Prop :=
  ∀ (i : Instr) (kl : KeyCode) (s t : State), (i = .stepv ∨ i = .unwrap kl) → exec i s = .next t →
    t.regs.macOut = s.regs.macOut

/-! ## WRAP, UNWRAP -/

/-- R190: EnvelopeOK decides BAD_INPUT for WRAP and UNWRAP, and a command that fails it changes nothing, not even the
session. -/
def Obligations.EnvelopeOperandCheck : Prop :=
  ∀ (i : Instr) (kl : KeyCode) (s : State), (i = .wrap kl ∨ i = .unwrap kl) →
    (¬ (kl ≠ .illegal ∧
        (s.regs.cnt1.toNat = 0 ∨ s.regs.src1.toNat + s.regs.cnt1.toNat ≤ 2 ^ Config.params.bufAddrW) ∧
        (s.regs.cnt2.toNat = 0 ∨ s.regs.src2.toNat + s.regs.cnt2.toNat ≤ 2 ^ Config.params.bufAddrW) ∧
        (s.regs.cnt1.toNat = 0 ∨ s.regs.dest.toNat + s.regs.cnt1.toNat ≤ 2 ^ Config.params.bufAddrW) ∧
        8 * s.regs.cnt1.toNat ≤ 2 ^ 64 - 1 ∧ 8 * s.regs.cnt2.toNat ≤ 2 ^ 64 - 1 ∧
        (s.regs.src1.toNat = s.regs.dest.toNat ∨ s.regs.cnt1.toNat = 0 ∨
          s.regs.src1.toNat + s.regs.cnt1.toNat ≤ s.regs.dest.toNat ∨
          s.regs.dest.toNat + s.regs.cnt1.toNat ≤ s.regs.src1.toNat)) →
      exec i s = .next (refusedWith .badInput s)) ∧
    (EnvelopeValid kl s.regs → ∃ t, exec i s = .next t ∧ t.err ≠ .badInput)

/-- R191: WRAP writes the payload XORed with the session's keystream to DEST, the tag of the associated data and that
ciphertext to MAC_OUT, and ends with the session wiped; nothing else changes. -/
def Obligations.WrapSeals : Prop :=
  ∀ (kl : KeyCode) (s : State),
    (¬ EnvelopeValid kl s.regs → exec (.wrap kl) s = .next (refusedWith .badInput s)) ∧
    (∀ n, kl.size? = some n → EnvelopeValid kl s.regs → s.buf.wf = true →
      ∃ t, exec (.wrap kl) s = .next t ∧
        t = { s with
          err := .ok
          busy := false
          ses := Session.reset
          buf := t.buf
          regs := { s.regs with macOut := t.regs.macOut } } ∧
        t.regs.macOut = envelopeTag Config.params n s (t.buf.readRange s.regs.dest.toNat s.regs.cnt1.toNat) ∧
        (∀ k, k < s.regs.cnt1.toNat → t.buf.read (s.regs.dest.toNat + k)
          = s.buf.read (s.regs.src1.toNat + k) ^^^
            keystreamAt Config.params (sessionKey Config.params n s.regs) (firstCounter Config.params n s.regs) k) ∧
        (∀ a, a < s.regs.dest.toNat ∨ s.regs.dest.toNat + s.regs.cnt1.toNat ≤ a → t.buf.read a = s.buf.read a))

/-- R193: UNWRAP checks the tag of the associated data and the ciphertext against MAC_IN; only a match writes the plaintext
to DEST; match or not, the session is wiped, and nothing else changes. -/
def Obligations.UnwrapOpens : Prop :=
  ∀ (kl : KeyCode) (s : State),
    (¬ EnvelopeValid kl s.regs → exec (.unwrap kl) s = .next (refusedWith .badInput s)) ∧
    (∀ n, kl.size? = some n → EnvelopeValid kl s.regs → envelopeTag Config.params n s (srcOctets s) ≠ s.regs.macIn →
      exec (.unwrap kl) s = .next { s with err := .badMac, busy := false, ses := Session.reset }) ∧
    (∀ n, kl.size? = some n → EnvelopeValid kl s.regs → envelopeTag Config.params n s (srcOctets s) = s.regs.macIn →
      s.buf.wf = true →
      ∃ t, exec (.unwrap kl) s = .next t ∧
        t = { s with err := .ok, busy := false, ses := Session.reset, buf := t.buf } ∧
        (∀ k, k < s.regs.cnt1.toNat → t.buf.read (s.regs.dest.toNat + k)
          = s.buf.read (s.regs.src1.toNat + k) ^^^
            keystreamAt Config.params (sessionKey Config.params n s.regs) (firstCounter Config.params n s.regs) k) ∧
        (∀ a, a < s.regs.dest.toNat ∨ s.regs.dest.toNat + s.regs.cnt1.toNat ≤ a → t.buf.read a = s.buf.read a))

/-- R194: UNWRAP writes no octet of BUF unless the full tag of the associated data and the ciphertext matched MAC_IN. -/
def Obligations.PlaintextGate : Prop :=
  ∀ (kl : KeyCode) (s t : State), exec (.unwrap kl) s = .next t →
    (t.err ≠ .ok → t.buf = s.buf) ∧
    (t.buf ≠ s.buf → ∃ n, kl.size? = some n ∧ envelopeTag Config.params n s (srcOctets s) = s.regs.macIn)

/-- R195: an envelope command that passes R190 leaves no session, on success and on BAD_MAC; one that fails it keeps the
session in progress. -/
def Obligations.EnvelopeEndsSession : Prop :=
  ∀ (i : Instr) (kl : KeyCode) (s t : State), (i = .wrap kl ∨ i = .unwrap kl) → exec i s = .next t →
    (EnvelopeValid kl s.regs → t.ses = Session.reset) ∧ (¬ EnvelopeValid kl s.regs → t.ses = s.ses)

/-- R197 (the spec derives it): UNWRAP of WRAP's ciphertext with WRAP's tag, under the same key, IV and associated data,
finishes OK and gives the payload back, wherever the two commands' operands lie. -/
def Obligations.RoundTrip : Prop :=
  ∀ (kl : KeyCode) (s t u : State), EnvelopeValid kl s.regs → s.buf.wf = true → exec (.wrap kl) s = .next t →
    EnvelopeValid kl u.regs → u.buf.wf = true →
    (∀ n, u.regs.key n = s.regs.key n) → u.regs.iv = s.regs.iv → adOctets u = adOctets s →
    srcOctets u = t.buf.readRange s.regs.dest.toNat s.regs.cnt1.toNat → u.regs.macIn = t.regs.macOut →
    ∃ v, exec (.unwrap kl) u = .next v ∧ v.err = .ok ∧
      v.buf.readRange u.regs.dest.toNat u.regs.cnt1.toNat = srcOctets s

/-- R168 and R192 (the spec derives them): START, the associated data through STEPI in any chunks, the payload (standing at
DEST in a BUF `m`) through STEPE in any chunks, the ciphertext through STEPA in any chunks, then STEPG: the ciphertext
and the tag are those of WRAP. -/
def Obligations.StreamingEqualsWrap : Prop :=
  ∀ (kl : KeyCode) (s w t0 : State) (m : Memory) (ads ps cs : List Nat),
    EnvelopeValid kl s.regs → s.buf.wf = true → exec (.wrap kl) s = .next w → exec (.start kl) s = .next t0 →
    ads.sum = s.regs.cnt2.toNat → ps.sum = s.regs.cnt1.toNat → cs.sum = s.regs.cnt1.toNat →
    m.wf = true → m.readRange s.regs.dest.toNat s.regs.cnt1.toNat = srcOctets s →
    ∃ t, exec .stepg (chunked .stepa s.regs.dest.toNat cs (chunked .stepe s.regs.dest.toNat ps
        (setBuf m (chunked .stepi s.regs.src2.toNat ads t0)))) = .next t ∧
      t.err = .ok ∧ t.regs.macOut = w.regs.macOut ∧
      t.buf.readRange s.regs.dest.toNat s.regs.cnt1.toNat = w.buf.readRange s.regs.dest.toNat s.regs.cnt1.toNat

/-! ## What commands and steps leave alone -/

/-- R23, R24, R25, R26, R27 and R28: no command writes an address or count register; only ZEROIZE writes the key, IV and
MAC_IN registers; only STEPG, WRAP and ZEROIZE write MAC_OUT. -/
def Obligations.OperandRegistersKept : Prop :=
  ∀ (i : Instr) (s t : State), exec i s = .next t →
    (t.regs.src1 = s.regs.src1 ∧ t.regs.cnt1 = s.regs.cnt1 ∧ t.regs.src2 = s.regs.src2 ∧ t.regs.cnt2 = s.regs.cnt2 ∧
      t.regs.dest = s.regs.dest) ∧
    (i ≠ .zeroize → t.regs = { s.regs with macOut := t.regs.macOut }) ∧
    (i ≠ .zeroize → i ≠ .stepg → (∀ kl, i ≠ .wrap kl) → t.regs.macOut = s.regs.macOut)

/-- R31 and R34: the scheduled key and the hash key are constant from START to the end of the session: a step changes
them only by executing START, WRAP, UNWRAP or ZEROIZE, or by a reset. -/
def Obligations.SessionKeysConstant : Prop :=
  ∀ s t : State, step s = .next t → t.ses.sk ≠ s.ses.sk ∨ t.ses.r ≠ s.ses.r →
    (s.busy = true ∧ ∃ kl i, decode s.cmdl = .ok i ∧
      (i = .start kl ∨ i = .wrap kl ∨ i = .unwrap kl ∨ i = .zeroize)) ∨
    (∃ ts, s.host.turns = .reset :: ts)

/-- R74 and R252: while a command is pending, nothing but a reset changes the operand registers or the latched word before
the core step, so the command runs on the values they had at its CMD write. -/
def Obligations.OperandsStableWhileBusy : Prop :=
  ∀ s t : State, step s = .next t → s.busy = true →
    (t.busy = true → t.regs = s.regs ∧ t.cmdl = s.cmdl ∧ t.ses = s.ses ∧ t.err = s.err) ∧
    (t.busy = false → (∃ ts, s.host.turns = .reset :: ts) ∨ t.cmdl = s.cmdl ∧ ∃ ts, (∃ u,
      runLatched exec (setTurns ts s) = .next u ∧ t = landLate u))

/-! ## The host port -/

/-- R21: a CMD write is latched and sets BUSY and clears OVR while BUSY = 0; while BUSY = 1 it is ignored and sets OVR; a
read returns 0 while BUSY = 0 (R253 governs a read while BUSY = 1). -/
def Obligations.CmdWriteLaunches : Prop :=
  ∀ (s : State) (ts : List Turn),
    (∀ v, s.host.turns = .host (.regWrite 0x00 8 v) :: ts → s.busy = false →
      step s = .next { s with cmdl := v, busy := true, ovr := false, host := { s.host with turns := ts } }) ∧
    (∀ v, s.host.turns = .host (.regWrite 0x00 8 v) :: ts → s.busy = true →
      step s = .next { s with ovr := true, host := { s.host with turns := ts } }) ∧
    (s.host.turns = .host (.regRead 0x00 8) :: ts → s.busy = false →
      step s = .next { s with host := { s.host with turns := ts, reads := .reg 0x00 0 :: s.host.reads } }) ∧
    State.reset.cmdl = 0

/-- R20, R23 to R27: a write to SRC1, CNT1, SRC2, CNT2, DEST, KEY0 to KEY3, IV0, IV1 or MAC_IN while BUSY = 0 puts the
value into that register and changes nothing else. -/
def Obligations.RegisterWrites : Prop :=
  ∀ (s : State) (off : Nat) (v : Word) (ts : List Turn), s.busy = false →
    s.host.turns = .host (.regWrite off 8 v) :: ts →
    (off = 0x10 → step s = .next { setTurns ts s with regs := { s.regs with src1 := v } }) ∧
    (off = 0x18 → step s = .next { setTurns ts s with regs := { s.regs with cnt1 := v } }) ∧
    (off = 0x20 → step s = .next { setTurns ts s with regs := { s.regs with src2 := v } }) ∧
    (off = 0x28 → step s = .next { setTurns ts s with regs := { s.regs with cnt2 := v } }) ∧
    (off = 0x30 → step s = .next { setTurns ts s with regs := { s.regs with dest := v } }) ∧
    (off = 0x40 → step s = .next { setTurns ts s with regs := { s.regs with key0 := v } }) ∧
    (off = 0x48 → step s = .next { setTurns ts s with regs := { s.regs with key1 := v } }) ∧
    (off = 0x50 → step s = .next { setTurns ts s with regs := { s.regs with key2 := v } }) ∧
    (off = 0x58 → step s = .next { setTurns ts s with regs := { s.regs with key3 := v } }) ∧
    (off = 0x60 → step s = .next { setTurns ts s with regs := { s.regs with iv0 := v } }) ∧
    (off = 0x68 → step s = .next { setTurns ts s with regs := { s.regs with iv1 := v } }) ∧
    (off = 0x70 → step s = .next { setTurns ts s with regs := { s.regs with macIn := v } })

/-- R20, R22 to R29: what each readable register returns while BUSY = 0; a read changes nothing (R69) but what the host
has seen. -/
def Obligations.RegisterReads : Prop :=
  ∀ (s : State) (off : Nat) (ts : List Turn), s.busy = false → s.host.turns = .host (.regRead off 8) :: ts →
    off < 0x100 → off % 8 = 0 →
    ∃ v, step s = .next { s with host := { s.host with turns := ts, reads := .reg off v :: s.host.reads } } ∧
      (off = 0x08 → v = statusWord s) ∧ (off = 0x10 → v = s.regs.src1) ∧ (off = 0x18 → v = s.regs.cnt1) ∧
      (off = 0x20 → v = s.regs.src2) ∧ (off = 0x28 → v = s.regs.cnt2) ∧ (off = 0x30 → v = s.regs.dest) ∧
      (off = 0x60 → v = s.regs.iv0) ∧ (off = 0x68 → v = s.regs.iv1) ∧ (off = 0x70 → v = s.regs.macIn) ∧
      (off = 0x78 → v = s.regs.macOut) ∧ (off = 0x80 → v = s.ses.lad) ∧ (off = 0x88 → v = s.ses.lct) ∧
      (0x40 ≤ off → off < 0x60 → v = 0)

/-- R64: reserved offsets and read-only registers ignore a write (while BUSY = 1 it sets OVR); reserved offsets and
write-only registers read 0 (R253 governs register reads while BUSY = 1). -/
def Obligations.ReservedAndReadOnlyOffsets : Prop :=
  ∀ (s : State) (off : Nat) (v : Word) (ts : List Turn), off < 0x100 → off % 8 = 0 →
    (off = 0x38 ∨ 0x90 ≤ off ∨ off = 0x08 ∨ off = 0x78 ∨ off = 0x80 ∨ off = 0x88 →
      s.host.turns = .host (.regWrite off 8 v) :: ts →
      step s = .next { s with ovr := s.busy || s.ovr, host := { s.host with turns := ts } }) ∧
    (off = 0x38 ∨ 0x90 ≤ off ∨ off = 0x00 ∨ (0x40 ≤ off ∧ off < 0x60) →
      s.host.turns = .host (.regRead off 8) :: ts → s.busy = false →
      step s = .next { s with host := { s.host with turns := ts, reads := .reg off 0 :: s.host.reads } })

/-- R22, R30 and R210: the bits of STATUS. -/
def Obligations.StatusLayout : Prop :=
  ∀ s : State, (readReg .status s).toNat
    = s.busy.toNat + 2 * s.ovr.toNat + 2 ^ 4 * resultNumber s.err + 2 ^ 8 * phaseNumber s.ses.phase
      + 2 ^ 16 * s.ses.filled.val + 2 ^ 24 * s.ses.ksAvail.val

/-- R252: a register write while BUSY = 1 is ignored and sets OVR; OVR falls only by an accepted CMD write (or a reset); the
operand registers do not change while a command is pending. -/
def Obligations.WritesWhileBusyIgnored : Prop :=
  (∀ (s : State) (off : Nat) (v : Word) (ts : List Turn), s.host.turns = .host (.regWrite off 8 v) :: ts →
    off < 0x100 → off % 8 = 0 → s.busy = true →
    step s = .next { s with ovr := true, host := { s.host with turns := ts } }) ∧
  (∀ s t : State, step s = .next t → s.ovr = true → t.ovr = false →
    (∃ v ts, s.host.turns = .host (.regWrite 0x00 8 v) :: ts ∧ s.busy = false ∧ t.busy = true) ∨
    (∃ ts, s.host.turns = .reset :: ts)) ∧
  (∀ s t : State, step s = .next t → s.busy = true → t.busy = true → t.regs = s.regs)

/-- R253: a STATUS read while BUSY = 1 shows BUSY = 1 and the current OVR, and no register read while BUSY = 1 has a side
effect or is a fault. The value's other bits are the next free draw, about which nothing is known. -/
def Obligations.ReadsWhileBusy : Prop :=
  ∀ (s : State) (r : Reg) (ts : List Turn), s.host.turns = .host (.regRead r.offset 8) :: ts → s.busy = true →
    ∃ v : Word, step s = .next { s with host := { s.host with
        turns := ts, reads := .reg r.offset v :: s.host.reads, draws := s.host.draws + 1 } } ∧
      (r = .status → v.getLsbD 0 = true ∧ v.getLsbD 1 = s.ovr)

/-- R39 and R254: a BUF access while BUSY = 1, read or write, records BUF_RACE; nothing else records a fault; no step, a
reset included, removes one; a run starts with none. -/
def Obligations.FaultRecord : Prop :=
  (∀ (s : State) (x : HostAction) (ts : List Turn) (t : State), s.host.turns = .host x :: ts →
    isBufAccess (.host x) = true → s.busy = true → step s = .next t → .bufRace ∈ t.faults) ∧
  (∀ (s t : State) (f : ModelFault), step s = .next t → f ∈ s.faults → f ∈ t.faults) ∧
  (∀ (s t : State) (f : ModelFault), step s = .next t → f ∈ t.faults → f ∉ s.faults →
    f = .bufRace ∧ s.busy = true ∧ ∃ x ts, s.host.turns = x :: ts ∧ isBufAccess x = true) ∧
  State.reset.faults = []

/-- R61 and R66: a host write of one octet while BUSY = 0 changes that octet and nothing else, and a host read returns the
octet, at every address of the buffer space; outside it there is no octet (log entry 12). -/
def Obligations.HostBufAccess : Prop :=
  ∀ (s : State) (a : Nat) (v : Byte) (ts : List Turn), s.busy = false →
    (a < 2 ^ Config.params.bufAddrW → s.buf.wf = true → s.host.turns = .host (.bufWrite a v) :: ts →
      ∃ t, step s = .next t ∧ t = { s with buf := t.buf, host := { s.host with turns := ts } } ∧
        t.buf.read a = v ∧ ∀ x, x ≠ a → t.buf.read x = s.buf.read x) ∧
    (a < 2 ^ Config.params.bufAddrW → s.host.turns = .host (.bufRead a) :: ts →
      step s = .next { s with
        host := { s.host with turns := ts, reads := .octet a (s.buf.read a) :: s.host.reads } }) ∧
    (2 ^ Config.params.bufAddrW ≤ a →
      s.host.turns = .host (.bufRead a) :: ts ∨ s.host.turns = .host (.bufWrite a v) :: ts →
      step s = .fault .bufOutsideSpace)

/-- R65: a register access that is not one aligned 64-bit access is refused. -/
def Obligations.NarrowAccessRefused : Prop :=
  ∀ (s : State) (off size : Nat) (v : Word) (ts : List Turn), off < 0x100 → size ≠ 8 ∨ off % 8 ≠ 0 →
    s.host.turns = .host (.regRead off size) :: ts ∨ s.host.turns = .host (.regWrite off size v) :: ts →
    step s = .refused .regNarrowAccess

/-- R44 and R218: register reads carry no secret: two states that differ in the key registers and the hidden session fields
(and in the latched word and the fault record, which no read shows) show the host the same values while BUSY = 0. A read
while BUSY = 1 is a free draw (R253), of which nothing is said. -/
def Obligations.SecretsUnreadable : Prop :=
  ∀ (s s' : State) (off size : Nat) (ts : List Turn), SameToHost s s' → s.busy = false →
    s.host.turns = .host (.regRead off size) :: ts →
    (∀ t, step s = .next t → ∃ t', step s' = .next t' ∧ t'.host = t.host ∧ SameToHost t t')

/-- R42 and R240: a reset, taken between any two steps, puts every register and internal field at its reset value and
discards a pending command; BUF and the fault record are kept. The state of a run's start has those values too. -/
def Obligations.ResetSets : Prop :=
  ∀ (s : State) (ts : List Turn), s.host.turns = .reset :: ts → ∃ t, step s = .next t ∧
    t = { s with
      regs :=
        { src1 := 0, cnt1 := 0, src2 := 0, cnt2 := 0, dest := 0, key0 := 0, key1 := 0, key2 := 0, key3 := 0,
          iv0 := 0, iv1 := 0, macIn := 0, macOut := 0 }
      ses :=
        { phase := .idle
          sk := Octets.zero 32
          c := 0
          ks := Octets.zero 16
          ksAvail := 0
          r := 0
          t := 0
          lad := 0
          lct := 0
          blk := Octets.zero 16
          filled := 0 }
      cmdl := 0
      busy := false
      ovr := false
      err := .ok
      host := t.host } ∧
    State.reset.regs = t.regs ∧ State.reset.ses = t.ses ∧ State.reset.cmdl = t.cmdl ∧ State.reset.busy = t.busy ∧
    State.reset.ovr = t.ovr ∧ State.reset.err = t.err ∧ State.reset.faults = []

/-! ## The invariant -/

/-- R40: the state right after reset is sound, whatever the launch image that its BUF holds (R67, log entry 4). -/
def Obligations.SoundAtReset : Prop := Sound State.reset

/-- R40 (the spec derives it): every step keeps the invariant: in IDLE every session field is at its reset value, in AD no
ciphertext is counted, FINAL holds no residue, the length counters count whole octets, OUT_OF_MEMORY is never recorded,
BUF stays canonical and inside the buffer space. -/
def Obligations.SoundKept : Prop :=
  ∀ s t : State, Sound s → step s = .next t → Sound t

/-! ## The latched word and the launch octets -/

/-- R21 and R38: with no command pending, the latched word is unseen: every step of two states that differ in it alone
answers alike and leaves two such states. So, up to that word, ZEROIZE reaches the reset state as R242 (which the spec
derives) compares them: the address and count registers and OVR are kept (log entry 14). -/
def Obligations.IdleLatchUnseen : Prop :=
  (∀ s s' : State, SameButLatch s s' →
    (∀ t, step s = .next t → ∃ t', step s' = .next t' ∧ SameButLatch t t') ∧
    (∀ f, step s = .fault f → step s' = .fault f) ∧ (∀ r, step s = .refused r → step s' = .refused r)) ∧
  (∀ (s : State) (ts : List Turn), s.host.turns = .reset :: ts → s.host.late = [] → ∃ z r, exec .zeroize s = .next z ∧
    step s = .next r ∧
    SameButLatch
      { r with
        regs := { r.regs with
          src1 := s.regs.src1, cnt1 := s.regs.cnt1, src2 := s.regs.src2, cnt2 := s.regs.cnt2, dest := s.regs.dest }
        ovr := s.ovr
        host := { r.host with turns := .reset :: ts } } z)

/-- R67: an octet that neither the host nor the core writes keeps its value, the launch value at the start of a run: a step
changes an octet only if the host writes it in that step, or the core executes the latched word in that step and either a
raced host write of the octet lands then (log entry 7) or the command has the octet in the range it writes. So a reset, a
register access, a BUF read, a poll and an idle core turn change none, whatever command is pending. -/
def Obligations.OctetsKeptUnlessWritten : Prop :=
  ∀ (s t : State) (x : Nat), s.buf.wf = true → step s = .next t → t.buf.read x ≠ s.buf.read x →
    (∃ v ts, s.host.turns = .host (.bufWrite x v) :: ts) ∨
    (CoreRuns s t ∧ ((∃ v, (x, v) ∈ s.host.late) ∨ ∃ i, decode s.cmdl = .ok i ∧ Writes i s.regs x))
end

