-- ==== Sys2Proof/Laws/Bytes.lean ====
section
/-! SUPPORT. The byte views are what spec/00_scope.md R13 and spec/20_memory.md R62 say: `val` and `oct` are inverse, octet `i`
of a value is octet `i` of the array, and a tag is the low half of its block. -/

namespace Sys2Proof.Machine

theorem leNat_lt (xs : List Byte) : leNat xs < 256 ^ xs.length := by
  induction xs with
  | nil => simp [leNat]
  | cons x xs ih =>
    have hx := x.isLt
    simp only [leNat, List.length_cons, Nat.pow_succ]
    omega

theorem leNat_append (xs ys : List Byte) : leNat (xs ++ ys) = leNat xs + 256 ^ xs.length * leNat ys := by
  induction xs with
  | nil => simp [leNat]
  | cons x xs ih =>
    simp only [List.cons_append, leNat, ih, List.length_cons, Nat.pow_succ]
    ring

@[simp] theorem leNat_replicate_zero (k : Nat) : leNat (List.replicate k 0#8) = 0 := by
  induction k with
  | zero => rfl
  | succ k ih => simp [List.replicate_succ, leNat, ih]

/-- Zero octets at the end do not change the integer of an octet sequence. -/
theorem leNat_pad (xs : List Byte) (k : Nat) : leNat (xs ++ List.replicate k 0#8) = leNat xs := by
  simp [leNat_append]

/-- Octet `i` of the integer of an octet sequence is octet `i` of the sequence. -/
theorem leNat_octet (xs : List Byte) (i : Nat) (h : i < xs.length) :
    leNat xs / 256 ^ i % 256 = (xs[i]).toNat := by
  induction xs generalizing i with
  | nil => simp at h
  | cons x xs ih =>
    have hx := x.isLt
    cases i with
    | zero => simp only [leNat, Nat.pow_zero, Nat.div_one, List.getElem_cons_zero]; omega
    | succ i =>
      have : leNat (x :: xs) / 256 ^ (i + 1) = leNat xs / 256 ^ i := by
        rw [Nat.pow_succ, Nat.mul_comm, ← Nat.div_div_eq_div_mul]
        congr 1
        simp only [leNat]
        omega
      rw [this]
      simpa using ih i (by simpa using h)

theorem octetOf_toNat {w : Nat} (v : BitVec w) (i : Nat) : (octetOf v i).toNat = v.toNat / 256 ^ i % 256 := by
  simp [octetOf, BitVec.extractLsb'_toNat, Nat.shiftRight_eq_div_pow, Nat.pow_mul]

theorem val_toNat (b : Octets 16) : (val b).toNat = leNat b.toList := by
  have h := leNat_lt b.toList
  simp only [Vector.length_toList] at h
  simpa [val] using h

theorem val64_toNat (b : Octets 8) : (val64 b).toNat = leNat b.toList := by
  have h := leNat_lt b.toList
  simp only [Vector.length_toList] at h
  simpa [val64] using h

@[simp] theorem octetOf_val (b : Octets 16) (i : Nat) (h : i < 16) : octetOf (val b) i = b[i] := by
  apply BitVec.eq_of_toNat_eq
  rw [octetOf_toNat, val_toNat, leNat_octet _ _ (by simpa using h)]
  simp

@[simp] theorem octetOf_val64 (b : Octets 8) (i : Nat) (h : i < 8) : octetOf (val64 b) i = b[i] := by
  apply BitVec.eq_of_toNat_eq
  rw [octetOf_toNat, val64_toNat, leNat_octet _ _ (by simpa using h)]
  simp

/-- `oct` after `val` gives the block back. -/
@[simp] theorem oct_val (b : Octets 16) : oct (val b) = b := by
  ext i h
  simp [oct]

@[simp] theorem oct64_val64 (b : Octets 8) : oct64 (val64 b) = b := by
  ext i h
  simp [oct64]

/-- Two values of `8·n` bits with the same octets are equal. -/
theorem eq_of_octets {n : Nat} {v w : BitVec (8 * n)} (h : ∀ i < n, octetOf v i = octetOf w i) : v = w := by
  apply BitVec.eq_of_getLsbD_eq
  intro j hj
  have hk := congrArg (fun b : Byte => b.getLsbD (j % 8)) (h (j / 8) (by omega))
  have hm : j % 8 < 8 := Nat.mod_lt _ (by decide)
  simp only [octetOf, BitVec.getLsbD_extractLsb', hm, decide_true, Bool.true_and] at hk
  rwa [show 8 * (j / 8) + j % 8 = j by omega] at hk

/-- `val` after `oct` gives the value back. -/
@[simp] theorem val_oct (v : Block) : val (oct v) = v :=
  eq_of_octets (n := 16) fun i h => by rw [octetOf_val _ _ h]; simp [oct]

@[simp] theorem val64_oct64 (v : Word) : val64 (oct64 v) = v :=
  eq_of_octets (n := 8) fun i h => by rw [octetOf_val64 _ _ h]; simp [oct64]

theorem oct64_injective {v w : Word} (h : oct64 v = oct64 w) : v = w := by
  rw [← val64_oct64 v, h, val64_oct64]

/-- The tag octets are the octets of the low 64 bits of the block (R62 e, R133). -/
theorem tagOctets_eq (t : Block) : tagOctets t = oct64 (t.extractLsb' 0 64) := by
  ext i h
  rename_i j hj
  simp only [tagOctets, oct64, octetOf, Vector.getElem_ofFn, BitVec.getElem_extractLsb', BitVec.getLsbD_extractLsb']
  have : 8 * i + j < 64 := by omega
  simp [this]

/-- As a register value the tag is the low 64 bits of the block. -/
@[simp] theorem val64_tagOctets (t : Block) : val64 (tagOctets t) = t.extractLsb' 0 64 := by
  rw [tagOctets_eq, val64_oct64]

/-- The comparison of all 8 octets (R136) is the comparison of the tag with the MAC_IN register. -/
theorem tagMatches_iff (t : Block) (g : Regs) : tagMatches (tagOctets t) g = true ↔ t.extractLsb' 0 64 = g.macIn := by
  simp only [tagMatches, tagOctets_eq, Regs.macInOctets, decide_eq_true_eq]
  exact ⟨oct64_injective, fun h => by rw [h]⟩

/-- The length block is `LAD + 2^64 · LCT` (R62 d). -/
theorem lengthBlock_toNat (q : Session) : (lengthBlock q).toNat = q.lad.toNat + 2 ^ 64 * q.lct.toNat := by
  have h : (q.lct ++ q.lad).toNat = 2 ^ 64 * q.lct.toNat + q.lad.toNat := by
    rw [BitVec.toNat_append, Nat.shiftLeft_eq, ← Nat.shiftLeft_eq,
      ← Nat.shiftLeft_add_eq_or_of_lt q.lad.isLt, Nat.shiftLeft_eq, Nat.mul_comm]
  rw [show (lengthBlock q).toNat = (q.lct ++ q.lad).toNat from rfl, h, Nat.add_comm]

/-- A counter that may take `n` more octets holds exactly the sum afterwards (R135 b). -/
theorem addBits_toNat {c : Word} {n : Nat} (h : lengthOK c n = true) : (addBits c n).toNat = c.toNat + 8 * n := by
  simp only [lengthOK, decide_eq_true_eq] at h
  simp only [addBits, BitVec.toNat_ofNat]
  exact Nat.mod_eq_of_lt (by omega)

@[simp] theorem addBits_zero (c : Word) : addBits c 0 = c := by simp [addBits]

end Sys2Proof.Machine
end

