-- ==== Sys2Proof/Laws/Memory.lean ====
section
/-! SUPPORT. BUF: reading after writing, ranges, copies, and that every memory operation keeps the canonical form and the
address bound. -/

namespace Sys2Proof.Machine.Memory

open Sys2Proof.Machine

/-- Reading a written octet gives the value written; every other octet reads as before. -/
theorem read_write (m : Memory) (a : Nat) (v : Byte) (x : Nat) {lo : Nat} (h : wfFrom lo m = true) :
    (m.write a v).read x = if x = a then v else m.read x := by
  induction m generalizing lo with
  | nil =>
    by_cases hv : v = unlisted <;> by_cases hx : x = a <;> simp [write, read, hv, hx]
  | cons c m ih =>
    obtain ⟨b, w⟩ := c
    simp only [wfFrom, Bool.and_eq_true, decide_eq_true_eq] at h
    obtain ⟨⟨-, hw⟩, hm⟩ := h
    have low : ∀ {lo : Nat} {m : Memory}, wfFrom lo m = true → ∀ y < lo, read m y = unlisted := by
      intro lo m
      induction m generalizing lo with
      | nil => intros; rfl
      | cons c m ih =>
        intro h y hy
        simp only [wfFrom, Bool.and_eq_true, decide_eq_true_eq] at h
        have h1 : ¬ y = c.1 := by omega
        simp only [read, h1, if_false]
        exact ih h.2 y (by omega)
    simp only [write]
    split
    · rename_i hab
      split
      · rename_i hv
        by_cases hx : x = a
        · subst hx
          have : ¬ x = b := by omega
          simp [read, hv, this, low hm x (by omega)]
        · simp [hx]
      · simp [read]
    · split
      · rename_i hab
        subst hab
        split
        · rename_i hv
          by_cases hx : x = a
          · subst hx; simp [hv, low hm x (by omega)]
          · simp [read, hx]
        · by_cases hx : x = a <;> simp [read, hx]
      · rename_i hlt hne
        by_cases hx : x = b
        · subst hx
          have : ¬ x = a := fun h => hne h.symm
          simp [read, this]
        · simp [read, hx, ih hm]

theorem wfFrom_mono {lo lo' : Nat} {m : Memory} (hl : lo' ≤ lo) (h : wfFrom lo m = true) : wfFrom lo' m = true := by
  cases m with
  | nil => rfl
  | cons c m =>
    simp only [wfFrom, Bool.and_eq_true, decide_eq_true_eq] at h ⊢
    exact ⟨⟨by omega, h.1.2⟩, h.2⟩

theorem wfFrom_write {lo : Nat} {m : Memory} (a : Nat) (v : Byte) (h : wfFrom lo m = true) (ha : lo ≤ a) :
    wfFrom lo (m.write a v) = true := by
  induction m generalizing lo with
  | nil => by_cases hv : v = unlisted <;> simp [write, wfFrom, hv, ha]
  | cons c m ih =>
    obtain ⟨b, w⟩ := c
    have h' := h
    simp only [wfFrom, Bool.and_eq_true, decide_eq_true_eq] at h
    obtain ⟨⟨hlo, hw⟩, hm⟩ := h
    simp only [write]
    split
    · split
      · exact h'
      · rename_i hab hv
        have : a + 1 ≤ b := hab
        simp [wfFrom, ha, hv, this, hw, hm]
    · split
      · split
        · exact wfFrom_mono (by omega) hm
        · rename_i hab hv
          subst hab
          simp [wfFrom, ha, hv, hm]
      · have : b + 1 ≤ a := by omega
        simp [wfFrom, hlo, hw, ih hm this]

/-- A write keeps the canonical form. -/
theorem wf_write {m : Memory} (h : wf m = true) (a : Nat) (v : Byte) : wf (m.write a v) = true :=
  wfFrom_write a v h (Nat.zero_le _)

theorem read_write_self {m : Memory} (h : wf m = true) (a : Nat) (v : Byte) : (m.write a v).read a = v := by
  rw [read_write m a v a h]; simp

theorem read_write_other {m : Memory} (h : wf m = true) {a x : Nat} (v : Byte) (hx : x ≠ a) :
    (m.write a v).read x = m.read x := by
  rw [read_write m a v x h]; simp [hx]

/-- Every listed address is below `n`. -/
def Within (n : Nat) (m : Memory) : Prop := ∀ c ∈ m, c.1 < n

theorem within_nil (n : Nat) : Within n [] := by simp [Within]

theorem within_write {n : Nat} {m : Memory} (h : Within n m) {a : Nat} (ha : a < n) (v : Byte) : Within n (m.write a v) := by
  induction m with
  | nil => by_cases hv : v = unlisted <;> simp [write, Within, hv, ha]
  | cons c m ih =>
    obtain ⟨b, w⟩ := c
    have hb : b < n := h (b, w) (by simp)
    have hm : Within n m := fun c hc => h c (List.mem_cons_of_mem _ hc)
    intro c hc
    simp only [write] at hc
    split at hc
    · split at hc
      · exact h c hc
      · rcases List.mem_cons.1 hc with rfl | hc
        · exact ha
        · exact h c hc
    · split at hc
      · split at hc
        · exact hm c hc
        · rcases List.mem_cons.1 hc with rfl | hc
          · exact ha
          · exact hm c hc
      · rcases List.mem_cons.1 hc with rfl | hc
        · exact hb
        · exact ih hm c hc

@[simp] theorem length_readRange (m : Memory) (a n : Nat) : (m.readRange a n).length = n := by
  induction n generalizing a with
  | zero => rfl
  | succ n ih => simp [readRange, ih]

theorem getElem_readRange (m : Memory) (a n i : Nat) (h : i < (m.readRange a n).length) :
    (m.readRange a n)[i] = m.read (a + i) := by
  induction n generalizing a i with
  | zero => simp [readRange] at h
  | succ n ih =>
    cases i with
    | zero => simp [readRange]
    | succ i =>
      simp only [readRange, List.getElem_cons_succ]
      rw [ih, show a + 1 + i = a + (i + 1) by omega]

theorem readRange_append (m : Memory) (a n k : Nat) :
    m.readRange a (n + k) = m.readRange a n ++ m.readRange (a + n) k := by
  induction n generalizing a with
  | zero => simp [readRange]
  | succ n ih =>
    rw [show n + 1 + k = (n + k) + 1 by omega]
    simp only [readRange, List.cons_append, ih, show a + 1 + n = a + (n + 1) by omega]

/-- Ranges read alike when their octets do. -/
theorem readRange_congr {m m' : Memory} {a a' n : Nat} (h : ∀ i < n, m.read (a + i) = m'.read (a' + i)) :
    m.readRange a n = m'.readRange a' n := by
  apply List.ext_getElem (by simp)
  intro i h1 h2
  rw [getElem_readRange, getElem_readRange, h i (by simpa using h1)]

/-- Octet by octet, ranges that read alike have the same octets. -/
theorem read_of_readRange_eq {m m' : Memory} {a a' n : Nat} (h : m.readRange a n = m'.readRange a' n) (i : Nat)
    (hi : i < n) : m.read (a + i) = m'.read (a' + i) := by
  have h1 : i < (m.readRange a n).length := by simpa using hi
  have h2 : i < (m'.readRange a' n).length := by simpa using hi
  rw [← getElem_readRange m a n i h1, ← getElem_readRange m' a' n i h2]
  simp [h]

theorem wf_copy {m : Memory} (h : wf m = true) (src dst n : Nat) : wf (m.copy src dst n) = true := by
  induction n generalizing m src dst with
  | zero => exact h
  | succ n ih => exact ih (wf_write h _ _) _ _

theorem within_copy {k : Nat} {m : Memory} (h : Within k m) {src dst n : Nat} (hd : dst + n ≤ k) :
    Within k (m.copy src dst n) := by
  induction n generalizing m src dst with
  | zero => exact h
  | succ n ih => exact ih (within_write h (by omega) _) (by omega)

/-- The copy changes no octet outside its destination. -/
theorem read_copy_outside {m : Memory} (h : wf m = true) {src dst n x : Nat} (hx : x < dst ∨ dst + n ≤ x) :
    (m.copy src dst n).read x = m.read x := by
  induction n generalizing m src dst with
  | zero => rfl
  | succ n ih =>
    simp only [copy]
    rw [ih (wf_write h _ _) (by omega), read_write_other h _ (by omega)]

/-- Between disjoint ranges the copy copies. -/
theorem read_copy_inside {m : Memory} (h : wf m = true) {src dst n i : Nat} (hd : src + n ≤ dst ∨ dst + n ≤ src)
    (hi : i < n) : (m.copy src dst n).read (dst + i) = m.read (src + i) := by
  induction n generalizing m src dst i with
  | zero => omega
  | succ n ih =>
    simp only [copy]
    cases i with
    | zero =>
      rw [read_copy_outside (wf_write h _ _) (by omega)]
      simpa using read_write_self h dst _
    | succ i =>
      have := ih (m := m.write dst (m.read src)) (wf_write h _ _) (src := src + 1) (dst := dst + 1) (i := i) (by omega)
        (by omega)
      rw [show dst + (i + 1) = dst + 1 + i by omega, this, show src + (i + 1) = src + 1 + i by omega,
        read_write_other h _ (by omega)]

/-- A cell in front of addresses that all lie above it. -/
theorem write_below {a : Nat} {v : Byte} {m : Memory} (hv : v ≠ unlisted) (h : wfFrom (a + 1) m = true) :
    m.write a v = (a, v) :: m := by
  cases m with
  | nil => simp [write, hv]
  | cons c m =>
    simp only [wfFrom, Bool.and_eq_true, decide_eq_true_eq] at h
    have : a < c.1 := h.1.1
    simp [write, hv, this]

theorem wf_ofCells (k : Nat) (l : List Host.Cell) : wf (ofCells k l) = true := by
  induction l with
  | nil => rfl
  | cons c l ih =>
    simp only [ofCells]
    split
    · exact wf_write ih _ _
    · exact ih

theorem within_ofCells (k : Nat) (l : List Host.Cell) : Within k (ofCells k l) := by
  induction l with
  | nil => exact within_nil k
  | cons c l ih =>
    simp only [ofCells]
    split
    · exact within_write ih ‹_› _
    · exact ih

theorem ofCells_eq_from {k lo : Nat} {m : Memory} (h : wfFrom lo m = true) (hk : Within k m) : ofCells k m = m := by
  induction m generalizing lo with
  | nil => rfl
  | cons c m ih =>
    simp only [wfFrom, Bool.and_eq_true, decide_eq_true_eq] at h
    rw [ofCells, if_pos (hk c (by simp)), ih h.2 (fun c hc => hk c (List.mem_cons_of_mem _ hc)), write_below h.1.2 h.2]

/-- Every BUF is the BUF that some list of cells gives, namely its own: the launch image can be any. -/
theorem ofCells_eq {k : Nat} {m : Memory} (h : wf m = true) (hk : Within k m) : ofCells k m = m := ofCells_eq_from h hk

theorem wf_launch : wf launch = true := wf_ofCells _ _

theorem within_launch : Within (bufSize Config.params) launch := within_ofCells _ _

end Sys2Proof.Machine.Memory
end

