-- ==== Sys2Proof/Laws/State.lean ====
section
/-! SUPPORT. What each named update of the state does to each field of it, so that no proof unfolds a record update. -/

namespace Sys2Proof.Machine

variable (s : State)

@[simp] theorem finish_regs (e : ResultCode) : (finish e s).regs = s.regs := rfl
@[simp] theorem finish_ses (e : ResultCode) : (finish e s).ses = s.ses := rfl
@[simp] theorem finish_cmdl (e : ResultCode) : (finish e s).cmdl = s.cmdl := rfl
@[simp] theorem finish_busy (e : ResultCode) : (finish e s).busy = false := rfl
@[simp] theorem finish_ovr (e : ResultCode) : (finish e s).ovr = s.ovr := rfl
@[simp] theorem finish_err (e : ResultCode) : (finish e s).err = e := rfl
@[simp] theorem finish_faults (e : ResultCode) : (finish e s).faults = s.faults := rfl
@[simp] theorem finish_buf (e : ResultCode) : (finish e s).buf = s.buf := rfl
@[simp] theorem finish_host (e : ResultCode) : (finish e s).host = s.host := rfl

@[simp] theorem setSes_regs (q : Session) : (setSes q s).regs = s.regs := rfl
@[simp] theorem setSes_ses (q : Session) : (setSes q s).ses = q := rfl
@[simp] theorem setSes_cmdl (q : Session) : (setSes q s).cmdl = s.cmdl := rfl
@[simp] theorem setSes_busy (q : Session) : (setSes q s).busy = s.busy := rfl
@[simp] theorem setSes_ovr (q : Session) : (setSes q s).ovr = s.ovr := rfl
@[simp] theorem setSes_err (q : Session) : (setSes q s).err = s.err := rfl
@[simp] theorem setSes_faults (q : Session) : (setSes q s).faults = s.faults := rfl
@[simp] theorem setSes_buf (q : Session) : (setSes q s).buf = s.buf := rfl
@[simp] theorem setSes_host (q : Session) : (setSes q s).host = s.host := rfl

@[simp] theorem setBuf_regs (m : Memory) : (setBuf m s).regs = s.regs := rfl
@[simp] theorem setBuf_ses (m : Memory) : (setBuf m s).ses = s.ses := rfl
@[simp] theorem setBuf_cmdl (m : Memory) : (setBuf m s).cmdl = s.cmdl := rfl
@[simp] theorem setBuf_busy (m : Memory) : (setBuf m s).busy = s.busy := rfl
@[simp] theorem setBuf_ovr (m : Memory) : (setBuf m s).ovr = s.ovr := rfl
@[simp] theorem setBuf_err (m : Memory) : (setBuf m s).err = s.err := rfl
@[simp] theorem setBuf_faults (m : Memory) : (setBuf m s).faults = s.faults := rfl
@[simp] theorem setBuf_buf (m : Memory) : (setBuf m s).buf = m := rfl
@[simp] theorem setBuf_host (m : Memory) : (setBuf m s).host = s.host := rfl

@[simp] theorem setMacOut_regs (v : Word) : (setMacOut v s).regs = { s.regs with macOut := v } := rfl
@[simp] theorem setMacOut_ses (v : Word) : (setMacOut v s).ses = s.ses := rfl
@[simp] theorem setMacOut_cmdl (v : Word) : (setMacOut v s).cmdl = s.cmdl := rfl
@[simp] theorem setMacOut_busy (v : Word) : (setMacOut v s).busy = s.busy := rfl
@[simp] theorem setMacOut_ovr (v : Word) : (setMacOut v s).ovr = s.ovr := rfl
@[simp] theorem setMacOut_err (v : Word) : (setMacOut v s).err = s.err := rfl
@[simp] theorem setMacOut_faults (v : Word) : (setMacOut v s).faults = s.faults := rfl
@[simp] theorem setMacOut_buf (v : Word) : (setMacOut v s).buf = s.buf := rfl
@[simp] theorem setMacOut_host (v : Word) : (setMacOut v s).host = s.host := rfl

@[simp] theorem wipe_regs : (wipe s).regs = s.regs := rfl
@[simp] theorem wipe_ses : (wipe s).ses = Session.reset := rfl
@[simp] theorem wipe_cmdl : (wipe s).cmdl = s.cmdl := rfl
@[simp] theorem wipe_busy : (wipe s).busy = s.busy := rfl
@[simp] theorem wipe_ovr : (wipe s).ovr = s.ovr := rfl
@[simp] theorem wipe_err : (wipe s).err = s.err := rfl
@[simp] theorem wipe_faults : (wipe s).faults = s.faults := rfl
@[simp] theorem wipe_buf : (wipe s).buf = s.buf := rfl
@[simp] theorem wipe_host : (wipe s).host = s.host := rfl

@[simp] theorem noteRead_regs (x : HostRead) : (noteRead x s).regs = s.regs := rfl
@[simp] theorem noteRead_ses (x : HostRead) : (noteRead x s).ses = s.ses := rfl
@[simp] theorem noteRead_cmdl (x : HostRead) : (noteRead x s).cmdl = s.cmdl := rfl
@[simp] theorem noteRead_busy (x : HostRead) : (noteRead x s).busy = s.busy := rfl
@[simp] theorem noteRead_ovr (x : HostRead) : (noteRead x s).ovr = s.ovr := rfl
@[simp] theorem noteRead_err (x : HostRead) : (noteRead x s).err = s.err := rfl
@[simp] theorem noteRead_faults (x : HostRead) : (noteRead x s).faults = s.faults := rfl
@[simp] theorem noteRead_buf (x : HostRead) : (noteRead x s).buf = s.buf := rfl
@[simp] theorem noteRead_host (x : HostRead) : (noteRead x s).host = { s.host with reads := x :: s.host.reads } := rfl

@[simp] theorem countDraw_regs : (countDraw s).regs = s.regs := rfl
@[simp] theorem countDraw_ses : (countDraw s).ses = s.ses := rfl
@[simp] theorem countDraw_cmdl : (countDraw s).cmdl = s.cmdl := rfl
@[simp] theorem countDraw_busy : (countDraw s).busy = s.busy := rfl
@[simp] theorem countDraw_ovr : (countDraw s).ovr = s.ovr := rfl
@[simp] theorem countDraw_err : (countDraw s).err = s.err := rfl
@[simp] theorem countDraw_faults : (countDraw s).faults = s.faults := rfl
@[simp] theorem countDraw_buf : (countDraw s).buf = s.buf := rfl
@[simp] theorem countDraw_host : (countDraw s).host = { s.host with draws := s.host.draws + 1 } := rfl

@[simp] theorem addFault_regs (f : ModelFault) : (addFault f s).regs = s.regs := rfl
@[simp] theorem addFault_ses (f : ModelFault) : (addFault f s).ses = s.ses := rfl
@[simp] theorem addFault_cmdl (f : ModelFault) : (addFault f s).cmdl = s.cmdl := rfl
@[simp] theorem addFault_busy (f : ModelFault) : (addFault f s).busy = s.busy := rfl
@[simp] theorem addFault_ovr (f : ModelFault) : (addFault f s).ovr = s.ovr := rfl
@[simp] theorem addFault_err (f : ModelFault) : (addFault f s).err = s.err := rfl
@[simp] theorem addFault_faults (f : ModelFault) : (addFault f s).faults = if f ∈ s.faults then s.faults else f :: s.faults := rfl
@[simp] theorem addFault_buf (f : ModelFault) : (addFault f s).buf = s.buf := rfl
@[simp] theorem addFault_host (f : ModelFault) : (addFault f s).host = s.host := rfl

@[simp] theorem setTurns_regs (ts : List Turn) : (setTurns ts s).regs = s.regs := rfl
@[simp] theorem setTurns_ses (ts : List Turn) : (setTurns ts s).ses = s.ses := rfl
@[simp] theorem setTurns_cmdl (ts : List Turn) : (setTurns ts s).cmdl = s.cmdl := rfl
@[simp] theorem setTurns_busy (ts : List Turn) : (setTurns ts s).busy = s.busy := rfl
@[simp] theorem setTurns_ovr (ts : List Turn) : (setTurns ts s).ovr = s.ovr := rfl
@[simp] theorem setTurns_err (ts : List Turn) : (setTurns ts s).err = s.err := rfl
@[simp] theorem setTurns_faults (ts : List Turn) : (setTurns ts s).faults = s.faults := rfl
@[simp] theorem setTurns_buf (ts : List Turn) : (setTurns ts s).buf = s.buf := rfl
@[simp] theorem setTurns_host (ts : List Turn) : (setTurns ts s).host = { s.host with turns := ts } := rfl

@[simp] theorem landLate_regs : (landLate s).regs = s.regs := rfl
@[simp] theorem landLate_ses : (landLate s).ses = s.ses := rfl
@[simp] theorem landLate_cmdl : (landLate s).cmdl = s.cmdl := rfl
@[simp] theorem landLate_busy : (landLate s).busy = s.busy := rfl
@[simp] theorem landLate_ovr : (landLate s).ovr = s.ovr := rfl
@[simp] theorem landLate_err : (landLate s).err = s.err := rfl
@[simp] theorem landLate_faults : (landLate s).faults = s.faults := rfl
@[simp] theorem landLate_buf : (landLate s).buf = s.host.late.foldl (fun m x => m.write x.1 x.2) s.buf := rfl
@[simp] theorem landLate_host : (landLate s).host = { s.host with late := [] } := rfl

@[simp] theorem resetBlock_regs : (resetBlock s).regs = Regs.reset := rfl
@[simp] theorem resetBlock_ses : (resetBlock s).ses = Session.reset := rfl
@[simp] theorem resetBlock_cmdl : (resetBlock s).cmdl = 0 := rfl
@[simp] theorem resetBlock_busy : (resetBlock s).busy = false := rfl
@[simp] theorem resetBlock_ovr : (resetBlock s).ovr = false := rfl
@[simp] theorem resetBlock_err : (resetBlock s).err = .ok := rfl
@[simp] theorem resetBlock_faults : (resetBlock s).faults = s.faults := rfl
@[simp] theorem resetBlock_buf : (resetBlock s).buf = s.buf := rfl
@[simp] theorem resetBlock_host : (resetBlock s).host = { s.host with late := [] } := rfl

variable (q : Session)

@[simp] theorem setPhase_phase (ph : Phase) : (setPhase ph q).phase = ph := rfl
@[simp] theorem setPhase_sk (ph : Phase) : (setPhase ph q).sk = q.sk := rfl
@[simp] theorem setPhase_c (ph : Phase) : (setPhase ph q).c = q.c := rfl
@[simp] theorem setPhase_ks (ph : Phase) : (setPhase ph q).ks = q.ks := rfl
@[simp] theorem setPhase_ksAvail (ph : Phase) : (setPhase ph q).ksAvail = q.ksAvail := rfl
@[simp] theorem setPhase_r (ph : Phase) : (setPhase ph q).r = q.r := rfl
@[simp] theorem setPhase_t (ph : Phase) : (setPhase ph q).t = q.t := rfl
@[simp] theorem setPhase_lad (ph : Phase) : (setPhase ph q).lad = q.lad := rfl
@[simp] theorem setPhase_lct (ph : Phase) : (setPhase ph q).lct = q.lct := rfl
@[simp] theorem setPhase_blk (ph : Phase) : (setPhase ph q).blk = q.blk := rfl
@[simp] theorem setPhase_filled (ph : Phase) : (setPhase ph q).filled = q.filled := rfl

@[simp] theorem setLad_phase (v : Word) : (setLad v q).phase = q.phase := rfl
@[simp] theorem setLad_sk (v : Word) : (setLad v q).sk = q.sk := rfl
@[simp] theorem setLad_c (v : Word) : (setLad v q).c = q.c := rfl
@[simp] theorem setLad_ks (v : Word) : (setLad v q).ks = q.ks := rfl
@[simp] theorem setLad_ksAvail (v : Word) : (setLad v q).ksAvail = q.ksAvail := rfl
@[simp] theorem setLad_r (v : Word) : (setLad v q).r = q.r := rfl
@[simp] theorem setLad_t (v : Word) : (setLad v q).t = q.t := rfl
@[simp] theorem setLad_lad (v : Word) : (setLad v q).lad = v := rfl
@[simp] theorem setLad_lct (v : Word) : (setLad v q).lct = q.lct := rfl
@[simp] theorem setLad_blk (v : Word) : (setLad v q).blk = q.blk := rfl
@[simp] theorem setLad_filled (v : Word) : (setLad v q).filled = q.filled := rfl

@[simp] theorem setLct_phase (v : Word) : (setLct v q).phase = q.phase := rfl
@[simp] theorem setLct_sk (v : Word) : (setLct v q).sk = q.sk := rfl
@[simp] theorem setLct_c (v : Word) : (setLct v q).c = q.c := rfl
@[simp] theorem setLct_ks (v : Word) : (setLct v q).ks = q.ks := rfl
@[simp] theorem setLct_ksAvail (v : Word) : (setLct v q).ksAvail = q.ksAvail := rfl
@[simp] theorem setLct_r (v : Word) : (setLct v q).r = q.r := rfl
@[simp] theorem setLct_t (v : Word) : (setLct v q).t = q.t := rfl
@[simp] theorem setLct_lad (v : Word) : (setLct v q).lad = q.lad := rfl
@[simp] theorem setLct_lct (v : Word) : (setLct v q).lct = v := rfl
@[simp] theorem setLct_blk (v : Word) : (setLct v q).blk = q.blk := rfl
@[simp] theorem setLct_filled (v : Word) : (setLct v q).filled = q.filled := rfl

@[simp] theorem setBlk_phase (b : Octets 16) (k : Fin 16) : (setBlk b k q).phase = q.phase := rfl
@[simp] theorem setBlk_sk (b : Octets 16) (k : Fin 16) : (setBlk b k q).sk = q.sk := rfl
@[simp] theorem setBlk_c (b : Octets 16) (k : Fin 16) : (setBlk b k q).c = q.c := rfl
@[simp] theorem setBlk_ks (b : Octets 16) (k : Fin 16) : (setBlk b k q).ks = q.ks := rfl
@[simp] theorem setBlk_ksAvail (b : Octets 16) (k : Fin 16) : (setBlk b k q).ksAvail = q.ksAvail := rfl
@[simp] theorem setBlk_r (b : Octets 16) (k : Fin 16) : (setBlk b k q).r = q.r := rfl
@[simp] theorem setBlk_t (b : Octets 16) (k : Fin 16) : (setBlk b k q).t = q.t := rfl
@[simp] theorem setBlk_lad (b : Octets 16) (k : Fin 16) : (setBlk b k q).lad = q.lad := rfl
@[simp] theorem setBlk_lct (b : Octets 16) (k : Fin 16) : (setBlk b k q).lct = q.lct := rfl
@[simp] theorem setBlk_blk (b : Octets 16) (k : Fin 16) : (setBlk b k q).blk = b := rfl
@[simp] theorem setBlk_filled (b : Octets 16) (k : Fin 16) : (setBlk b k q).filled = k := rfl

/-- Two sessions that agree on every field are one session. -/
theorem Session.eq_of_fields {a b : Session} (h1 : a.phase = b.phase) (h2 : a.sk = b.sk) (h3 : a.c = b.c)
    (h4 : a.ks = b.ks) (h5 : a.ksAvail = b.ksAvail) (h6 : a.r = b.r) (h7 : a.t = b.t) (h8 : a.lad = b.lad)
    (h9 : a.lct = b.lct) (h10 : a.blk = b.blk) (h11 : a.filled = b.filled) : a = b := by
  cases a
  cases b
  simp_all

end Sys2Proof.Machine
end

