-- ==== Sys2Proof/Laws/Datapath.lean ====
section
/-! SUPPORT. What the shared procedures of spec/40_primitives.md do, in the closed forms of Safety.lean: Absorb, Flush, Finalize,
KsByte and the XOR loop. -/

namespace Sys2Proof.Machine

open Sys2Proof.Safety

variable (p : Params)

/-! Folding blocks. -/

theorem foldBlocks_append (r : Block) (j k : Nat) (t : Block) (xs : List Byte) :
    foldBlocks p r (j + k) t xs = foldBlocks p r k (foldBlocks p r j t xs) (xs.drop (16 * j)) := by
  induction j generalizing t xs with
  | zero => simp [foldBlocks]
  | succ j ih =>
    rw [show j + 1 + k = (j + k) + 1 by omega]
    simp only [foldBlocks, ih, List.drop_drop]
    rw [show 16 + 16 * j = 16 * (j + 1) by omega]

/-- Only the octets of the folded blocks matter. -/
theorem foldBlocks_congr (r : Block) (k : Nat) (t : Block) {xs ys : List Byte} (h : xs.take (16 * k) = ys.take (16 * k)) :
    foldBlocks p r k t xs = foldBlocks p r k t ys := by
  induction k generalizing t xs ys with
  | zero => rfl
  | succ k ih =>
    have h1 : xs.take 16 = ys.take 16 := by
      have := congrArg (List.take 16) h
      simpa [List.take_take, Nat.min_eq_left (show 16 ≤ 16 * (k + 1) by omega)] using this
    have h2 : (xs.drop 16).take (16 * k) = (ys.drop 16).take (16 * k) := by
      have := congrArg (List.drop 16) h
      simpa [List.drop_take, show 16 * (k + 1) - 16 = 16 * k by omega] using this
    simp only [foldBlocks, h1, ih _ h2]

theorem foldBlocks_append_right (r : Block) (t : Block) (xs ys : List Byte) (k : Nat) (h : 16 * k ≤ xs.length) :
    foldBlocks p r k t (xs ++ ys) = foldBlocks p r k t xs :=
  foldBlocks_congr p r k t (by rw [List.take_append_of_le_length h])

/-! Absorb (R130). -/

/-- The session fields that Absorb, Flush, EnterCT and Finalize leave alone. -/
structure SameButHash (q q' : Session) : Prop where
  sk : q'.sk = q.sk
  c : q'.c = q.c
  ks : q'.ks = q.ks
  ksAvail : q'.ksAvail = q.ksAvail
  r : q'.r = q.r
  lad : q'.lad = q.lad
  lct : q'.lct = q.lct

theorem SameButHash.rfl' (q : Session) : SameButHash q q := ⟨rfl, rfl, rfl, rfl, rfl, rfl, rfl⟩

theorem SameButHash.trans' {a b c : Session} (h : SameButHash a b) (k : SameButHash b c) : SameButHash a c :=
  ⟨k.1.trans h.1, k.2.trans h.2, k.3.trans h.3, k.4.trans h.4, k.5.trans h.5, k.6.trans h.6, k.7.trans h.7⟩

/-- Writing only the hash fields and the phase, as one record. -/
theorem SameButHash.eq {q q' : Session} (h : SameButHash q q') :
    q' = { q with phase := q'.phase, t := q'.t, blk := q'.blk, filled := q'.filled } := by
  obtain ⟨h1, h2, h3, h4, h5, h6, h7⟩ := h
  cases q; cases q'
  simp_all

theorem length_residue (q : Session) : (residue q).length = q.filled.val := by
  simp [residue]

theorem take_set_self (b : Octets 16) (k : Nat) (hk : k < 16) (x : Byte) :
    (b.set k x hk).toList.take (k + 1) = b.toList.take k ++ [x] := by
  apply List.ext_getElem
  · simp; omega
  · intro i h1 h2
    simp only [List.length_take, Vector.length_toList, List.length_append, List.length_singleton] at h1 h2
    simp only [List.getElem_take, Vector.getElem_toList, Vector.getElem_set, List.getElem_append, List.length_take,
      Vector.length_toList, List.getElem_singleton]
    by_cases hi : i < k
    · simp [hi, show k ≠ i by omega, show i < 16 by omega]
    · have : i = k := by omega
      subst this; simp

theorem absorb_same (q : Session) (x : Byte) : SameButHash q (absorb p q x) := by
  unfold absorb
  split <;> exact ⟨rfl, rfl, rfl, rfl, rfl, rfl, rfl⟩

@[simp] theorem absorb_phase (q : Session) (x : Byte) : (absorb p q x).phase = q.phase := by
  unfold absorb
  split <;> rfl

/-- One octet: the residue grows by it, and a residue of 16 octets is folded. -/
theorem absorb_spec (q : Session) (x : Byte) :
    (absorb p q x).t = foldBlocks p q.r ((residue q ++ [x]).length / 16) q.t (residue q ++ [x]) ∧
      residue (absorb p q x) = (residue q ++ [x]).drop (16 * ((residue q ++ [x]).length / 16)) := by
  have hl := length_residue q
  have hf := q.filled.isLt
  unfold absorb
  split
  · rename_i h
    have hv : q.filled.val = 15 := by rw [h]; rfl
    have hlen : (residue q ++ [x]).length = 16 := by simp [hl, hv]
    have ht := take_set_self q.blk q.filled.val q.filled.isLt x
    have hall : (q.blk.set q.filled.val x q.filled.isLt).toList = residue q ++ [x] := by
      rw [← show (q.blk.set q.filled.val x q.filled.isLt).toList.take (q.filled.val + 1) = residue q ++ [x] from ht]
      exact (List.take_of_length_le (by simp [hv])).symm
    rw [hlen]
    refine ⟨?_, ?_⟩
    · simp only [fold, foldVal, foldBlocks, val, hall, setBlk_t]
      rw [List.take_of_length_le (by omega)]
    · simp [residue, hv]
  · rename_i h
    have hv : q.filled.val ≠ 15 := fun e => h (Fin.ext e)
    have hlt : q.filled.val + 1 < 16 := by omega
    have hadd : (q.filled + 1).val = q.filled.val + 1 := by
      rw [Fin.val_add]; exact Nat.mod_eq_of_lt hlt
    have hlen : (residue q ++ [x]).length / 16 = 0 := by simp [hl]; omega
    rw [hlen]
    refine ⟨rfl, ?_⟩
    simp only [residue, hadd, Nat.mul_zero, List.drop_zero, setBlk_blk, setBlk_filled]
    exact take_set_self q.blk q.filled.val q.filled.isLt x

theorem absorbAll_same (xs : List Byte) (q : Session) : SameButHash q (absorbAll p xs q) := by
  induction xs generalizing q with
  | nil => exact .rfl' q
  | cons x xs ih => exact (absorb_same p q x).trans' (ih _)

@[simp] theorem absorbAll_phase (xs : List Byte) (q : Session) : (absorbAll p xs q).phase = q.phase := by
  induction xs generalizing q with
  | nil => rfl
  | cons x xs ih => exact (ih _).trans (absorb_phase p q x)

/-- Octets in a row: the residue and the input are one sequence, its full blocks are folded and the rest waits (R130,
R134). -/
theorem absorbAll_spec (xs : List Byte) (q : Session) :
    (absorbAll p xs q).t = foldBlocks p q.r ((residue q ++ xs).length / 16) q.t (residue q ++ xs) ∧
      residue (absorbAll p xs q) = (residue q ++ xs).drop (16 * ((residue q ++ xs).length / 16)) := by
  induction xs generalizing q with
  | nil =>
    have : (residue q).length / 16 = 0 := by rw [length_residue]; omega
    simp [absorbAll, this, foldBlocks]
  | cons x xs ih =>
    obtain ⟨h1, h2⟩ := absorb_spec p q x
    obtain ⟨i1, i2⟩ := ih (absorb p q x)
    have hr := (absorb_same p q x).r
    have hx : absorbAll p (x :: xs) q = absorbAll p xs (absorb p q x) := rfl
    have hs : residue q ++ x :: xs = (residue q ++ [x]) ++ xs := by simp
    generalize residue q ++ [x] = ys at *
    have hys : 16 * (ys.length / 16) ≤ ys.length := by omega
    have hk : (ys ++ xs).length / 16 = ys.length / 16 + (residue (absorb p q x) ++ xs).length / 16 := by
      simp only [h2, List.length_append, List.length_drop]
      omega
    have hd : (ys ++ xs).drop (16 * (ys.length / 16)) = residue (absorb p q x) ++ xs := by
      rw [h2, List.drop_append_of_le_length hys]
    rw [hx, hs]
    refine ⟨?_, ?_⟩
    · rw [i1, hr, h1, hk, foldBlocks_append, hd, foldBlocks_append_right p _ _ _ _ _ hys]
    · rw [i2, hk, Nat.mul_add, ← List.drop_drop, hd]

theorem absorbAll_filled (xs : List Byte) (q : Session) :
    (absorbAll p xs q).filled.val = (q.filled.val + xs.length) % 16 := by
  rw [← length_residue, (absorbAll_spec p xs q).2]
  simp only [List.length_drop, List.length_append, length_residue]
  omega

theorem absorbAll_append (xs ys : List Byte) (q : Session) :
    absorbAll p (xs ++ ys) q = absorbAll p ys (absorbAll p xs q) := List.foldl_append

@[simp] theorem absorbAll_nil (q : Session) : absorbAll p [] q = q := rfl

/-- The accumulator does not read the length counters, the keystream or the phase. -/
theorem absorbAll_congr (xs : List Byte) {q q' : Session} (ht : q'.t = q.t) (hr : q'.r = q.r)
    (hres : residue q' = residue q) :
    (absorbAll p xs q').t = (absorbAll p xs q).t ∧ residue (absorbAll p xs q') = residue (absorbAll p xs q) := by
  rw [(absorbAll_spec p xs q).1, (absorbAll_spec p xs q).2, (absorbAll_spec p xs q').1, (absorbAll_spec p xs q').2, ht, hr,
    hres]
  exact ⟨rfl, rfl⟩

@[simp] theorem residue_setPhase (ph : Phase) (q : Session) : residue (setPhase ph q) = residue q := rfl

@[simp] theorem residue_setLad (v : Word) (q : Session) : residue (setLad v q) = residue q := rfl

@[simp] theorem residue_setLct (v : Word) (q : Session) : residue (setLct v q) = residue q := rfl

theorem absorbAll_setLad (xs : List Byte) (q : Session) (v : Word) :
    absorbAll p xs (setLad v q) = setLad v (absorbAll p xs q) := by
  induction xs generalizing q with
  | nil => rfl
  | cons x xs ih =>
    have : absorb p (setLad v q) x = setLad v (absorb p q x) := by
      simp only [absorb, setLad_filled, setLad_blk]
      by_cases h : q.filled = 15 <;> simp only [h, if_true, if_false] <;> rfl
    change absorbAll p xs (absorb p (setLad v q) x) = _
    rw [this, ih]
    rfl

theorem absorbAll_setLct (xs : List Byte) (q : Session) (v : Word) :
    absorbAll p xs (setLct v q) = setLct v (absorbAll p xs q) := by
  induction xs generalizing q with
  | nil => rfl
  | cons x xs ih =>
    have : absorb p (setLct v q) x = setLct v (absorb p q x) := by
      simp only [absorb, setLct_filled, setLct_blk]
      by_cases h : q.filled = 15 <;> simp only [h, if_true, if_false] <;> rfl
    change absorbAll p xs (absorb p (setLct v q) x) = _
    rw [this, ih]
    rfl

/-! Flush (R129). -/

theorem flush_same (q : Session) : SameButHash q (flush p q) := by
  unfold flush
  split <;> exact ⟨rfl, rfl, rfl, rfl, rfl, rfl, rfl⟩

@[simp] theorem flush_phase (q : Session) : (flush p q).phase = q.phase := by
  unfold flush
  split <;> rfl

@[simp] theorem flush_filled (q : Session) : (flush p q).filled = 0 := by
  unfold flush
  split
  · assumption
  · rfl

@[simp] theorem flush_residue (q : Session) : residue (flush p q) = [] := by
  simp [residue]

theorem flush_of_empty {q : Session} (h : q.filled = 0) : flush p q = q := by simp [flush, h]

/-- The padded block is the residue and zeros. -/
theorem toList_padBlock (q : Session) :
    (padBlock q.blk q.filled.val).toList = residue q ++ List.replicate (16 - q.filled.val) 0 := by
  have hf := q.filled.isLt
  apply List.ext_getElem
  · simp [length_residue]
  · intro i h1 h2
    simp only [Vector.length_toList] at h1
    simp only [padBlock, Vector.getElem_toList, Vector.getElem_ofFn, List.getElem_append, length_residue]
    by_cases hi : i < q.filled.val <;> simp [hi, residue]

theorem padSection_residue (q : Session) (h : q.filled ≠ 0) :
    padSection (residue q) = (padBlock q.blk q.filled.val).toList := by
  have hf := q.filled.isLt
  have h0 : q.filled.val ≠ 0 := fun e => h (Fin.ext e)
  rw [toList_padBlock, padSection, length_residue]
  congr 2
  omega

/-- Flush folds the zero-padded residue, or nothing when there is none. -/
theorem flush_t (q : Session) : (flush p q).t = sectionHash p q.r q.t (residue q) := by
  unfold flush
  split
  · rename_i h
    have : residue q = [] := by simp [residue, h]
    simp [this, sectionHash, padSection, foldBlocks]
  · rename_i h
    rw [sectionHash, padSection_residue q h]
    simp only [Vector.length_toList, fold, foldVal, foldBlocks, val, setBlk_t]
    rw [List.take_of_length_le (by simp)]

theorem padSection_append (xs ys : List Byte) (h : xs.length % 16 = 0) : padSection (xs ++ ys) = xs ++ padSection ys := by
  simp only [padSection, List.length_append, List.append_assoc]
  congr 4
  omega

/-- A section fed octet by octet and then flushed is hashed as a whole (R134). -/
theorem sectionHash_absorbAll (xs : List Byte) (q : Session) :
    sectionHash p q.r (absorbAll p xs q).t (residue (absorbAll p xs q)) = sectionHash p q.r q.t (residue q ++ xs) := by
  obtain ⟨h1, h2⟩ := absorbAll_spec p xs q
  rw [h1, h2]
  generalize residue q ++ xs = ys
  obtain ⟨as, bs, hys, hlen⟩ : ∃ as bs, ys = as ++ bs ∧ as.length = 16 * (ys.length / 16) :=
    ⟨ys.take (16 * (ys.length / 16)), ys.drop (16 * (ys.length / 16)), (List.take_append_drop _ _).symm, by simp; omega⟩
  generalize ys.length / 16 = k at *
  subst hys
  have hdrop : (as ++ bs).drop (16 * k) = bs := by rw [← hlen, List.drop_left]
  have hdrop' : (as ++ padSection bs).drop (16 * k) = padSection bs := by rw [← hlen, List.drop_left]
  have hblocks : (as ++ padSection bs).length / 16 = k + (padSection bs).length / 16 := by
    rw [List.length_append, hlen]; omega
  rw [hdrop, sectionHash, sectionHash, padSection_append _ _ (by omega), hblocks, foldBlocks_append, hdrop',
    foldBlocks_append_right p _ _ _ _ _ (by omega), foldBlocks_append_right p _ _ _ _ _ (by omega)]

/-! Entering CT (R165). -/

theorem enterCT_of_not_ad {q : Session} (h : q.phase ≠ .ad) : enterCT p q = q := by simp [enterCT, h]

theorem enterCT_of_ad {q : Session} (h : q.phase = .ad) : enterCT p q = setPhase .ct (flush p q) := by
  simp [enterCT, h]

@[simp] theorem enterCTIf_zero (q : Session) : enterCTIf p 0 q = q := rfl

theorem enterCTIf_pos {n : Nat} (h : n ≠ 0) (q : Session) : enterCTIf p n q = enterCT p q := by simp [enterCTIf, h]

theorem enterCTIf_of_not_ad (n : Nat) {q : Session} (h : q.phase ≠ .ad) : enterCTIf p n q = q := by
  simp [enterCTIf, enterCT, h]

/-- EnterCT writes the phase and the hash fields only. -/
theorem enterCT_same (q : Session) : SameButHash q (enterCT p q) := by
  unfold enterCT
  split
  · exact (flush_same p q).trans' ⟨rfl, rfl, rfl, rfl, rfl, rfl, rfl⟩
  · exact .rfl' q

theorem enterCTIf_same (n : Nat) (q : Session) : SameButHash q (enterCTIf p n q) := by
  unfold enterCTIf
  split
  · exact .rfl' q
  · exact enterCT_same p q

/-! Finalize (R133). -/

@[simp] theorem finalize_phase (q : Session) : (finalize p q).phase = .final := rfl

@[simp] theorem finalize_filled (q : Session) : (finalize p q).filled = 0 := flush_filled p q

theorem finalize_same (q : Session) : SameButHash q (finalize p q) := by
  have h := flush_same p q
  exact ⟨h.1, h.2, h.3, h.4, h.5, h.6, h.7⟩

/-- The finalized block in closed form (R133, R134). -/
theorem finalize_t (q : Session) :
    (finalize p q).t
      = finalBlock p q.sk q.r (sectionHash p q.r q.t (residue q)) q.lad.toNat q.lct.toNat := by
  have h := flush_same p q
  have hl : lengthBlock q = BitVec.ofNat 128 (q.lad.toNat + 2 ^ 64 * q.lct.toNat) := by
    rw [← lengthBlock_toNat]; simp
  simp only [finalize, foldVal, encVal, finalBlock, h.sk, h.r, flush_t, hl]

/-! KsByte (R131). -/

/-- The session fields that only the keystream writes. -/
structure SameButStream (q q' : Session) : Prop where
  phase : q'.phase = q.phase
  sk : q'.sk = q.sk
  r : q'.r = q.r
  t : q'.t = q.t
  lad : q'.lad = q.lad
  lct : q'.lct = q.lct
  blk : q'.blk = q.blk
  filled : q'.filled = q.filled

theorem SameButStream.rfl' (q : Session) : SameButStream q q := ⟨rfl, rfl, rfl, rfl, rfl, rfl, rfl, rfl⟩

theorem SameButStream.trans' {a b c : Session} (h : SameButStream a b) (k : SameButStream b c) : SameButStream a c :=
  ⟨k.1.trans h.1, k.2.trans h.2, k.3.trans h.3, k.4.trans h.4, k.5.trans h.5, k.6.trans h.6, k.7.trans h.7, k.8.trans h.8⟩

/-- Writing only the keystream fields, as one record. -/
theorem SameButStream.eq {q q' : Session} (h : SameButStream q q') :
    q' = { q with c := q'.c, ks := q'.ks, ksAvail := q'.ksAvail } := by
  obtain ⟨h1, h2, h3, h4, h5, h6, h7, h8⟩ := h
  cases q; cases q'
  simp_all

theorem octetAt_eq {n : Nat} (b : Octets n) (i : Nat) (h : i < n) : octetAt b i = b[i] := by
  simp [octetAt, h]

theorem ksByte_same (q : Session) : SameButStream q (ksByte p q).2 := by
  unfold ksByte
  split <;> exact ⟨rfl, rfl, rfl, rfl, rfl, rfl, rfl, rfl⟩

/-- The octet KsByte returns is the next one of the keystream. -/
theorem ksByte_fst (q : Session) : (ksByte p q).1 = keystreamAhead p q 0 := by
  unfold ksByte
  split
  · rename_i h
    simp [keystreamAhead, h, keystreamAt, nextBlock, encBlock, octetAt_eq _ 0]
  · rename_i h
    have h0 : q.ksAvail.val ≠ 0 := fun e => h (Fin.ext e)
    have hneg : (0 - q.ksAvail : Fin 16).val = 16 - q.ksAvail.val := by
      rw [Fin.sub_def]
      simp only [Fin.val_zero]
      omega
    have hlt := q.ksAvail.isLt
    simp only [keystreamAhead, show 0 < q.ksAvail.val by omega, if_true, Nat.add_zero]
    rw [octetAt_eq _ _ (by omega)]
    simp only [Fin.getElem_fin, hneg]

/-- After KsByte the keystream goes on with the octet after it. -/
theorem ksByte_snd (q : Session) (i : Nat) : keystreamAhead p (ksByte p q).2 i = keystreamAhead p q (i + 1) := by
  unfold ksByte
  split
  · rename_i h
    simp only [keystreamAhead, nextBlock, h, Fin.val_zero, Nat.not_lt_zero, if_false, Nat.sub_zero,
      show ((15 : Fin 16).val) = 15 from rfl, encBlock]
    by_cases hi : i < 15
    · have h1 : (i + 1) / 16 = 0 := by omega
      have h2 : (i + 1) % 16 = i + 1 := by omega
      simp [hi, keystreamAt, h1, h2, Nat.add_comm]
    · have h1 : (i + 1) / 16 = (i - 15) / 16 + 1 := by omega
      have h2 : (i + 1) % 16 = (i - 15) % 16 := by omega
      have h3 : q.c + 1 + 1 + BitVec.ofNat 128 ((i - 15) / 16) = q.c + 1 + BitVec.ofNat 128 ((i - 15) / 16 + 1) := by
        rw [BitVec.ofNat_add, show (1#128 : Block) = 1 from rfl]
        ring
      simp only [hi, if_false, keystreamAt, h1, h2, h3]
  · rename_i h
    have h0 : q.ksAvail.val ≠ 0 := fun e => h (Fin.ext e)
    have hlt := q.ksAvail.isLt
    have hsub : (q.ksAvail - 1 : Fin 16).val = q.ksAvail.val - 1 := by
      rw [Fin.sub_def]
      simp only [Fin.val_one]
      omega
    simp only [keystreamAhead, hsub]
    by_cases hi : i < q.ksAvail.val - 1
    · simp only [hi, show i + 1 < q.ksAvail.val by omega, if_true]
      congr 1
      omega
    · simp only [hi, show ¬ i + 1 < q.ksAvail.val by omega, if_false]
      congr 1
      omega

/-! The XOR loop (R166). -/

theorem xorRange_same (n a : Nat) (m : Memory) (q : Session) : SameButStream q (xorRange p n a m q).2 := by
  induction n generalizing a m q with
  | zero => exact .rfl' q
  | succ n ih => exact (ksByte_same p q).trans' (ih _ _ _)

/-- After the loop the keystream goes on with the octet after the last one used. -/
theorem xorRange_keystream (n a : Nat) (m : Memory) (q : Session) (i : Nat) :
    keystreamAhead p (xorRange p n a m q).2 i = keystreamAhead p q (n + i) := by
  induction n generalizing a m q with
  | zero => simp [xorRange]
  | succ n ih =>
    simp only [xorRange]
    rw [ih, ksByte_snd]
    congr 1
    omega

theorem xorRange_wf (n a : Nat) {m : Memory} (h : m.wf = true) (q : Session) : (xorRange p n a m q).1.wf = true := by
  induction n generalizing a m q with
  | zero => exact h
  | succ n ih => exact ih _ (Memory.wf_write h _ _) _

theorem xorRange_within {k : Nat} (n a : Nat) {m : Memory} (h : m.Within k) (ha : a + n ≤ k) (q : Session) :
    (xorRange p n a m q).1.Within k := by
  induction n generalizing a m q with
  | zero => exact h
  | succ n ih => exact ih _ (Memory.within_write h (by omega) _) (by omega) _

theorem xorRange_outside (n a : Nat) {m : Memory} (h : m.wf = true) (q : Session) {x : Nat} (hx : x < a ∨ a + n ≤ x) :
    (xorRange p n a m q).1.read x = m.read x := by
  induction n generalizing a m q with
  | zero => rfl
  | succ n ih =>
    simp only [xorRange]
    rw [ih _ (Memory.wf_write h _ _) _ (by omega), Memory.read_write_other h _ (by omega)]

/-- Each octet of the range is XORed with its octet of the keystream. -/
theorem xorRange_inside (n a : Nat) {m : Memory} (h : m.wf = true) (q : Session) {i : Nat} (hi : i < n) :
    (xorRange p n a m q).1.read (a + i) = m.read (a + i) ^^^ keystreamAhead p q i := by
  induction n generalizing a m q i with
  | zero => omega
  | succ n ih =>
    simp only [xorRange]
    cases i with
    | zero =>
      rw [xorRange_outside p n (a + 1) (Memory.wf_write h _ _) _ (by omega)]
      simp [Memory.read_write_self h, ksByte_fst]
    | succ i =>
      rw [show a + (i + 1) = a + 1 + i by omega, ih _ (Memory.wf_write h _ _) _ (by omega), ksByte_snd,
        Memory.read_write_other h _ (by omega)]

theorem xorRange_append (n k a : Nat) (m : Memory) (q : Session) :
    xorRange p (n + k) a m q = xorRange p k (a + n) (xorRange p n a m q).1 (xorRange p n a m q).2 := by
  induction n generalizing a m q with
  | zero => simp [xorRange]
  | succ n ih =>
    rw [show n + 1 + k = (n + k) + 1 by omega]
    simp only [xorRange, ih, show a + 1 + n = a + (n + 1) by omega]

/-- How far the counter and the leftover move (R132). -/
theorem ksByte_position (q : Session) :
    (ksByte p q).2.c = q.c + (if q.ksAvail = 0 then 1 else 0) ∧
      (ksByte p q).2.ksAvail.val = (q.ksAvail.val + 15) % 16 := by
  unfold ksByte
  split
  · rename_i h
    simp [nextBlock, h]
  · rename_i h
    have h0 : q.ksAvail.val ≠ 0 := fun e => h (Fin.ext e)
    have hlt := q.ksAvail.isLt
    have hsub : (q.ksAvail - 1 : Fin 16).val = (q.ksAvail.val + 15) % 16 := by
      rw [Fin.sub_def]
      simp only [Fin.val_one]
      omega
    exact ⟨by simp, hsub⟩

/-- After `n` octets the counter has moved by the number of new blocks and the leftover is what they leave (R132). -/
theorem xorRange_position (n a : Nat) (m : Memory) (q : Session) :
    (xorRange p n a m q).2.c = q.c + BitVec.ofNat 128 ((n - q.ksAvail.val + 15) / 16) ∧
      (xorRange p n a m q).2.ksAvail.val = (q.ksAvail.val + 15 * n) % 16 := by
  induction n generalizing a m q with
  | zero =>
    have := q.ksAvail.isLt
    have h : (0 - q.ksAvail.val + 15) / 16 = 0 := by omega
    simp only [xorRange, h]
    refine ⟨by simp, by omega⟩
  | succ n ih =>
    have hlt := q.ksAvail.isLt
    obtain ⟨h1, h2⟩ := ksByte_position p q
    obtain ⟨i1, i2⟩ := ih (a + 1) (m.write a (m.read a ^^^ (ksByte p q).1)) (ksByte p q).2
    simp only [xorRange]
    refine ⟨?_, ?_⟩
    · rw [i1, h1, h2]
      split
      · rename_i h
        simp only [h, Fin.val_zero, Nat.zero_add]
        have : (n + 1 - 0 + 15) / 16 = (n - 15 % 16 + 15) / 16 + 1 := by omega
        rw [this, BitVec.ofNat_add, show (1#128 : Block) = 1 from rfl]
        ring
      · rename_i h
        have h0 : q.ksAvail.val ≠ 0 := fun e => h (Fin.ext e)
        have : (n + 1 - q.ksAvail.val + 15) / 16 = (n - (q.ksAvail.val + 15) % 16 + 15) / 16 := by omega
        rw [this]
        simp
    · rw [i2, h2]
      omega

end Sys2Proof.Machine
end

