-- ==== Sys2Proof/Laws/Commands.lean ====
section
/-! SUPPORT. The commands as functions of the state: `exec` is `command`, the operand checks in arithmetic, and what every
command leaves alone. -/

namespace Sys2Proof.Machine

open Sys2Proof.Safety

/-- Every meaning answers a next state: the one `command` gives at the machine's parameters. -/
theorem exec_eq (i : Instr) (s : State) : exec i s = .next (command Config.params i s) := by
  cases i <;> rfl

theorem exec_next_iff {i : Instr} {s t : State} : exec i s = .next t ↔ t = command Config.params i s := by
  rw [exec_eq]
  exact ⟨fun h => (Host.Outcome.next.inj h).symm, fun h => by rw [h]⟩

theorem rangeOK_iff {p : Params} {a n : Nat} : rangeOK p a n = true ↔ n = 0 ∨ a + n ≤ 2 ^ p.bufAddrW := by
  simp only [rangeOK, Bool.or_eq_true, beq_iff_eq, decide_eq_true_eq]
  exact Iff.rfl

theorem rangeOK_false_iff {p : Params} {a n : Nat} : rangeOK p a n = false ↔ ¬ (n = 0 ∨ a + n ≤ 2 ^ p.bufAddrW) := by
  rw [← rangeOK_iff, Bool.not_eq_true]

theorem lengthOK_iff {c : Word} {n : Nat} : lengthOK c n = true ↔ c.toNat + 8 * n ≤ 2 ^ 64 - 1 := by
  simp [lengthOK]

theorem lengthOK_false_iff {c : Word} {n : Nat} : lengthOK c n = false ↔ ¬ c.toNat + 8 * n ≤ 2 ^ 64 - 1 := by
  rw [← lengthOK_iff, Bool.not_eq_true]

theorem aliasOK_iff {a n d : Nat} : aliasOK a n d = true ↔ a = d ∨ n = 0 ∨ a + n ≤ d ∨ d + n ≤ a := by
  simp [aliasOK, or_assoc]

theorem envelopeOK_iff {kl : KeyCode} {g : Regs} : envelopeOK Config.params kl g = true ↔ EnvelopeValid kl g := by
  simp only [envelopeOK, Bool.and_eq_true, bne_iff_ne, ne_eq, rangeOK_iff, lengthOK_iff, aliasOK_iff, EnvelopeValid,
    InSpace, show (0 : Word).toNat = 0 from rfl, Nat.zero_add, and_assoc]

theorem envelopeOK_legal {p : Params} {kl : KeyCode} {g : Regs} (h : envelopeOK p kl g = true) : kl ≠ .illegal := by
  simp only [envelopeOK, Bool.and_eq_true, bne_iff_ne] at h
  exact h.1.1.1

theorem size?_none_iff {kl : KeyCode} : kl.size? = none ↔ kl = .illegal := by cases kl <;> simp [KeyCode.size?]

theorem size?_isSome {kl : KeyCode} (h : kl ≠ .illegal) : ∃ n, kl.size? = some n := by
  cases kl <;> simp_all [KeyCode.size?]

theorem cmdWrap_of_valid {p : Params} {kl : KeyCode} {s : State} {n : KeySize} (hn : kl.size? = some n)
    (h : envelopeOK p kl s.regs = true) :
    cmdWrap p kl s
      = finish .ok (wipe (setMacOut (val64 (tagOctets (wrapFinal p n s).t)) (setBuf (wrapEncrypt p n s).1 s))) := by
  simp [cmdWrap, hn, h]

theorem cmdWrap_of_invalid {p : Params} {kl : KeyCode} {s : State} (h : envelopeOK p kl s.regs = false) :
    cmdWrap p kl s = finish .badInput s := by
  simp [cmdWrap, h]

theorem cmdUnwrap_of_valid {p : Params} {kl : KeyCode} {s : State} {n : KeySize} (hn : kl.size? = some n)
    (h : envelopeOK p kl s.regs = true) :
    cmdUnwrap p kl s
      = if tagMatches (tagOctets (unwrapFinal p n s).t) s.regs then finish .ok (wipe (setBuf (unwrapDecrypt p n s) s))
        else finish .badMac (wipe s) := by
  simp [cmdUnwrap, hn, h]

theorem cmdUnwrap_of_invalid {p : Params} {kl : KeyCode} {s : State} (h : envelopeOK p kl s.regs = false) :
    cmdUnwrap p kl s = finish .badInput s := by
  simp [cmdUnwrap, h]

/-- The two outcomes of an envelope command: refused, or run with a key of legal length. -/
theorem envelope_cases (p : Params) (kl : KeyCode) (g : Regs) :
    envelopeOK p kl g = false ∨ ∃ n, kl.size? = some n ∧ envelopeOK p kl g = true := by
  cases h : envelopeOK p kl g with
  | false => exact .inl rfl
  | true => obtain ⟨n, hn⟩ := size?_isSome (envelopeOK_legal h); exact .inr ⟨n, hn, rfl⟩

/-- What no command writes: the latched word, OVR, the fault record and the host's side; and every command ends with
BUSY = 0. -/
structure CommandFrame (s t : State) : Prop where
  cmdl : t.cmdl = s.cmdl
  ovr : t.ovr = s.ovr
  faults : t.faults = s.faults
  host : t.host = s.host
  busy : t.busy = false

theorem finish_frame {e : ResultCode} {s t : State} (h1 : t.cmdl = s.cmdl) (h2 : t.ovr = s.ovr) (h3 : t.faults = s.faults)
    (h4 : t.host = s.host) : CommandFrame s (finish e t) := ⟨h1, h2, h3, h4, rfl⟩

/-- The shape of every command: a result code at the end of an update that keeps the command frame. -/
theorem command_shape (p : Params) (i : Instr) (s : State) :
    ∃ (e : ResultCode) (q : Session) (m : Memory) (g : Regs),
      command p i s = finish e { s with ses := q, buf := m, regs := g } ∧ e ≠ .outOfMemory := by
  have triv (e : ResultCode) (he : e ≠ .outOfMemory) : ∃ (e' : ResultCode) (q : Session) (m : Memory) (g : Regs),
      finish e s = finish e' { s with ses := q, buf := m, regs := g } ∧ e' ≠ .outOfMemory :=
    ⟨e, s.ses, s.buf, s.regs, rfl, he⟩
  cases i with
  | start kl =>
    simp only [command, cmdStart]
    split
    · exact triv _ (by decide)
    · exact ⟨_, _, s.buf, s.regs, rfl, by decide⟩
  | stepi =>
    simp only [command, cmdStepi]
    split
    · exact triv _ (by decide)
    · split
      · exact triv _ (by decide)
      · split
        · exact triv _ (by decide)
        · exact ⟨_, _, s.buf, s.regs, rfl, by decide⟩
  | stepa =>
    simp only [command, cmdStepa]
    split
    · exact triv _ (by decide)
    · split
      · exact triv _ (by decide)
      · split
        · exact triv _ (by decide)
        · exact ⟨_, _, s.buf, s.regs, rfl, by decide⟩
  | stepe =>
    simp only [command, cmdStepe, streamXor]
    split
    · exact triv _ (by decide)
    · split
      · exact triv _ (by decide)
      · exact ⟨_, _, _, s.regs, rfl, by decide⟩
  | stepd =>
    simp only [command, cmdStepd, streamXor]
    split
    · exact triv _ (by decide)
    · split
      · exact triv _ (by decide)
      · exact ⟨_, _, _, s.regs, rfl, by decide⟩
  | stepg =>
    simp only [command, cmdStepg]
    split
    · exact triv _ (by decide)
    · generalize val64 (tagOctets (finalize p s.ses).t) = v
      generalize finalize p s.ses = q
      exact ⟨.ok, q, s.buf, { s.regs with macOut := v }, rfl, by decide⟩
  | stepv =>
    simp only [command, cmdStepv]
    split
    · exact triv _ (by decide)
    · exact ⟨_, finalize p s.ses, s.buf, s.regs, rfl, by split <;> decide⟩
  | wrap kl =>
    simp only [command]
    rcases envelope_cases p kl s.regs with h | ⟨n, hn, h⟩
    · rw [cmdWrap_of_invalid h]; exact triv _ (by decide)
    · rw [cmdWrap_of_valid hn h]
      generalize (wrapEncrypt p n s).1 = m
      generalize val64 (tagOctets (wrapFinal p n s).t) = v
      exact ⟨.ok, Session.reset, m, { s.regs with macOut := v }, rfl, by decide⟩
  | unwrap kl =>
    simp only [command]
    rcases envelope_cases p kl s.regs with h | ⟨n, hn, h⟩
    · rw [cmdUnwrap_of_invalid h]; exact triv _ (by decide)
    · rw [cmdUnwrap_of_valid hn h]
      generalize unwrapDecrypt p n s = m
      split
      · exact ⟨.ok, Session.reset, m, s.regs, rfl, by decide⟩
      · exact ⟨.badMac, Session.reset, s.buf, s.regs, rfl, by decide⟩
  | zeroize => exact ⟨.ok, Session.reset, s.buf, s.regs.zeroized, rfl, by decide⟩

theorem command_frame (p : Params) (i : Instr) (s : State) : CommandFrame s (command p i s) := by
  obtain ⟨e, q, m, g, h, -⟩ := command_shape p i s
  rw [h]
  exact ⟨rfl, rfl, rfl, rfl, rfl⟩

/-- The result code of every command is one that R210 lets a command write. -/
theorem command_err_ne_outOfMemory (p : Params) (i : Instr) (s : State) : (command p i s).err ≠ .outOfMemory := by
  obtain ⟨e, q, m, g, h, he⟩ := command_shape p i s
  rw [h]
  exact he

end Sys2Proof.Machine
end

