-- ==== Sys2Proof/Laws/Decode.lean ====
section
/-! SUPPORT. The fields of an encoded command and what each operation value decodes to. -/

namespace Sys2Proof

/-- A word is its three fields (R90). -/
theorem word_eq_of_fields {v w : Word} (h1 : resField v = resField w) (h2 : klField v = klField w)
    (h3 : opField v = opField w) : v = w := by
  apply BitVec.eq_of_getLsbD_eq
  intro i hi
  by_cases h4 : i < 4
  · have := congrArg (fun b : BitVec 4 => b.getLsbD i) h3
    simpa [opField, h4] using this
  · by_cases h6 : i < 6
    · have := congrArg (fun b : BitVec 2 => b.getLsbD (i - 4)) h2
      simpa [klField, show i - 4 < 2 by omega, show 4 + (i - 4) = i by omega] using this
    · have := congrArg (fun b : BitVec 58 => b.getLsbD (i - 6)) h1
      simpa [resField, show i - 6 < 58 by omega, show 6 + (i - 6) = i by omega] using this

@[simp] theorem keyCodeOf_field (kl : KeyCode) : keyCodeOf kl.field = kl := by cases kl <;> rfl

@[simp] theorem field_keyCodeOf (f : BitVec 2) : (keyCodeOf f).field = f := by revert f; decide

/-- The fields of an encoded command. -/
theorem encode_fields (i : Instr) : resField (encode i) = 0 ∧ klField (encode i) = i.kl ∧ opField (encode i) = i.op := by
  cases i with
  | start kl => cases kl <;> decide
  | wrap kl => cases kl <;> decide
  | unwrap kl => cases kl <;> decide
  | _ => decide

/-- A word with no reserved bit set decodes by its operation and key-length fields. -/
theorem decode_of_res {v : Word} (h : resField v = 0) : decode v = decodeOp (opField v) (klField v) := by
  simp [decode, h]

theorem decode_of_res_ne {v : Word} (h : resField v ≠ 0) : decode v = .error .reservedBits := by
  unfold decode
  rw [if_neg h]

end Sys2Proof
end

