-- ==== Sys2Proof/Laws/Envelope.lean ====
section
/-! SUPPORT. The sessions and BUF contents inside WRAP and UNWRAP (spec/44_envelope.md R191, R193) in closed form. -/

namespace Sys2Proof.Machine

open Sys2Proof.Safety

variable (p : Params) (n : KeySize) (s : State)

theorem startBody_sk : (startBody p n (s.regs.key n) s.regs.iv).sk = sessionKey p n s.regs := rfl

theorem startBody_c : (startBody p n (s.regs.key n) s.regs.iv).c = firstCounter p n s.regs := rfl

theorem startBody_r : (startBody p n (s.regs.key n) s.regs.iv).r = hashKey p n s.regs := by
  simp only [startBody, deriveR, hashKey, encVal]
  cases p.rDeriv <;> rfl

theorem startBody_residue : residue (startBody p n (s.regs.key n) s.regs.iv) = [] := rfl

/-- A new session's keystream is the whole keystream of its key and IV. -/
theorem startBody_keystream (i : Nat) :
    keystreamAhead p (startBody p n (s.regs.key n) s.regs.iv) i
      = keystreamAt p (sessionKey p n s.regs) (firstCounter p n s.regs) i := rfl

/-- The keystream reads SK, C, KS and KS_AVAIL only. -/
theorem keystreamAhead_congr {q q' : Session} (hsk : q'.sk = q.sk) (hc : q'.c = q.c) (hks : q'.ks = q.ks)
    (ha : q'.ksAvail = q.ksAvail) (i : Nat) : keystreamAhead p q' i = keystreamAhead p q i := by
  simp only [keystreamAhead, hsk, hc, hks, ha]

theorem SameButHash.keystream {q q' : Session} (h : SameButHash q q') (i : Nat) :
    keystreamAhead p q' i = keystreamAhead p q i := keystreamAhead_congr p h.sk h.c h.ks h.ksAvail i

/-- The fields of a session in phase AD inside an envelope. -/
theorem envelopeAD_spec :
    (envelopeAD p n s).phase = .ad ∧ (envelopeAD p n s).sk = sessionKey p n s.regs ∧
      (envelopeAD p n s).r = hashKey p n s.regs ∧ (envelopeAD p n s).lad = addBits 0 s.regs.cnt2.toNat ∧
      (∀ i, keystreamAhead p (envelopeAD p n s) i
        = keystreamAt p (sessionKey p n s.regs) (firstCounter p n s.regs) i) ∧
      sectionHash p (hashKey p n s.regs) (envelopeAD p n s).t (residue (envelopeAD p n s))
        = sectionHash p (hashKey p n s.regs) (val p.beltH) (adOctets s) := by
  have h := absorbAll_same p (adOctets s)
    (setLad (addBits 0 s.regs.cnt2.toNat) (startBody p n (s.regs.key n) s.regs.iv))
  refine ⟨absorbAll_phase p _ _, h.sk, h.r.trans (startBody_r p n s), h.lad, fun i => h.keystream p i, ?_⟩
  have hs := sectionHash_absorbAll p (adOctets s)
    (setLad (addBits 0 s.regs.cnt2.toNat) (startBody p n (s.regs.key n) s.regs.iv))
  rw [setLad_r, startBody_r, residue_setLad, startBody_residue, List.nil_append] at hs
  exact hs

@[simp] theorem sectionHash_nil (r t : Block) : sectionHash p r t [] = t := rfl

/-- Entering CT for some octets and absorbing them: the hash of both sections, whether or not there is an octet. -/
theorem sectionHash_enterCTIf {q q' : Session} (h : q.phase = .ad) (xs : List Byte)
    (ht : q'.t = (enterCTIf p xs.length q).t) (hr : q'.r = (enterCTIf p xs.length q).r)
    (hres : residue q' = residue (enterCTIf p xs.length q)) :
    sectionHash p q.r (absorbAll p xs q').t (residue (absorbAll p xs q'))
      = sectionHash p q.r (sectionHash p q.r q.t (residue q)) xs := by
  obtain ⟨e1, e2⟩ := absorbAll_congr p xs ht hr hres
  rw [e1, e2]
  cases xs with
  | nil => rfl
  | cons x xs =>
    have hs := sectionHash_absorbAll p (x :: xs) (enterCTIf p (x :: xs).length q)
    have hE := enterCTIf_same p (x :: xs).length q
    rw [hE.r] at hs
    rw [hs, enterCTIf_pos p (by simp), enterCT_of_ad p h]
    simp [flush_t]

/-- The tag of an envelope, for any session that has the keys, counters and hash of one after its two sections. -/
theorem finalize_envelopeTag {q q' : Session} {ct : List Byte} (h : q = envelopeAD p n s)
    (h1 : lengthOK 0 s.regs.cnt1.toNat = true) (h2 : lengthOK 0 s.regs.cnt2.toNat = true)
    (hl : ct.length = s.regs.cnt1.toNat) (hsk : q'.sk = q.sk) (hr : q'.r = q.r) (hlad : q'.lad = q.lad)
    (ht : q'.t = (enterCTIf p ct.length q).t) (hres : residue q' = residue (enterCTIf p ct.length q)) :
    (finalize p (absorbAll p ct (setLct (addBits 0 s.regs.cnt1.toNat) q'))).t.extractLsb' 0 64 = envelopeTag p n s ct := by
  obtain ⟨aph, ask, ar, alad, -, ahash⟩ := envelopeAD_spec p n s
  rw [← h] at aph ask ar alad ahash
  have hA := absorbAll_same p ct (setLct (addBits 0 s.regs.cnt1.toNat) q')
  have hE := enterCTIf_same p ct.length q
  have hS := sectionHash_enterCTIf (q' := setLct (addBits 0 s.regs.cnt1.toNat) q') p aph ct ht (hr.trans hE.r.symm) hres
  have e1 := addBits_toNat h1
  have e2 := addBits_toNat h2
  simp only [show (0 : Word).toNat = 0 from rfl, Nat.zero_add] at e1 e2
  have hadl : (adOctets s).length = s.regs.cnt2.toNat := by simp [adOctets]
  rw [ar, ahash] at hS
  rw [finalize_t, hA.sk, hA.r, hA.lad, hA.lct]
  simp only [setLct_sk, setLct_r, setLct_lad, setLct_lct]
  rw [hsk, hr, hlad, ask, ar, alad, e1, e2, hS, envelopeTag, tagOf, hl, hadl]

/-- UNWRAP's finalized block: its low half is the tag of the associated data and the ciphertext. -/
theorem unwrapFinal_tag (h1 : lengthOK 0 s.regs.cnt1.toNat = true) (h2 : lengthOK 0 s.regs.cnt2.toNat = true) :
    (unwrapFinal p n s).t.extractLsb' 0 64 = envelopeTag p n s (srcOctets s) := by
  have hlen : (srcOctets s).length = s.regs.cnt1.toNat := by simp [srcOctets]
  have hE := enterCTIf_same p s.regs.cnt1.toNat (envelopeAD p n s)
  exact finalize_envelopeTag p n s rfl h1 h2 hlen hE.sk hE.r hE.lad (by simp) (by simp)

/-- After a payload has been copied, DEST holds the payload. -/
theorem copyPayload_inside {m : Memory} {g : Regs} (hm : m.wf = true)
    (ha : aliasOK g.src1.toNat g.cnt1.toNat g.dest.toNat = true) {i : Nat} (hi : i < g.cnt1.toNat) :
    (copyPayload m g).read (g.dest.toNat + i) = m.read (g.src1.toNat + i) := by
  unfold copyPayload
  split
  · rename_i h; rw [h]
  · rename_i h
    rw [aliasOK_iff] at ha
    have : ¬ g.src1.toNat = g.dest.toNat := fun e => h (BitVec.eq_of_toNat_eq e)
    exact Memory.read_copy_inside hm (by omega) hi

theorem copyPayload_outside {m : Memory} {g : Regs} (hm : m.wf = true) {x : Nat}
    (hx : x < g.dest.toNat ∨ g.dest.toNat + g.cnt1.toNat ≤ x) : (copyPayload m g).read x = m.read x := by
  unfold copyPayload
  split
  · rfl
  · exact Memory.read_copy_outside hm hx

theorem copyPayload_wf {m : Memory} {g : Regs} (hm : m.wf = true) : (copyPayload m g).wf = true := by
  unfold copyPayload
  split
  · exact hm
  · exact Memory.wf_copy hm _ _ _

theorem copyPayload_within {k : Nat} {m : Memory} {g : Regs} (hm : m.Within k)
    (hd : g.cnt1.toNat = 0 ∨ g.dest.toNat + g.cnt1.toNat ≤ k) : (copyPayload m g).Within k := by
  unfold copyPayload
  split
  · exact hm
  · rcases hd with h | h
    · rw [h]; exact hm
    · exact Memory.within_copy hm h

/-- WRAP's output range holds the payload XORed with the session's keystream. -/
theorem wrapEncrypt_inside (hm : s.buf.wf = true)
    (ha : aliasOK s.regs.src1.toNat s.regs.cnt1.toNat s.regs.dest.toNat = true) {i : Nat} (hi : i < s.regs.cnt1.toNat) :
    (wrapEncrypt p n s).1.read (s.regs.dest.toNat + i)
      = s.buf.read (s.regs.src1.toNat + i)
        ^^^ keystreamAt p (sessionKey p n s.regs) (firstCounter p n s.regs) i := by
  have hk := (envelopeAD_spec p n s).2.2.2.2.1 i
  have hE := enterCTIf_same p s.regs.cnt1.toNat (envelopeAD p n s)
  unfold wrapEncrypt
  rw [xorRange_inside p _ _ (copyPayload_wf hm) _ hi, copyPayload_inside hm ha hi, hE.keystream p, hk]

theorem wrapEncrypt_outside (hm : s.buf.wf = true) {x : Nat}
    (hx : x < s.regs.dest.toNat ∨ s.regs.dest.toNat + s.regs.cnt1.toNat ≤ x) :
    (wrapEncrypt p n s).1.read x = s.buf.read x := by
  unfold wrapEncrypt
  rw [xorRange_outside p _ _ (copyPayload_wf hm) _ hx, copyPayload_outside hm hx]

/-- WRAP's tag is the tag of the associated data and the ciphertext it wrote. -/
theorem wrapFinal_tag (h1 : lengthOK 0 s.regs.cnt1.toNat = true) (h2 : lengthOK 0 s.regs.cnt2.toNat = true) :
    (wrapFinal p n s).t.extractLsb' 0 64
      = envelopeTag p n s ((wrapEncrypt p n s).1.readRange s.regs.dest.toNat s.regs.cnt1.toNat) := by
  have hlen : ((wrapEncrypt p n s).1.readRange s.regs.dest.toNat s.regs.cnt1.toNat).length = s.regs.cnt1.toNat := by simp
  have hE := enterCTIf_same p s.regs.cnt1.toNat (envelopeAD p n s)
  have hX := xorRange_same p s.regs.cnt1.toNat s.regs.dest.toNat (copyPayload s.buf s.regs)
    (enterCTIf p s.regs.cnt1.toNat (envelopeAD p n s))
  refine finalize_envelopeTag p n s rfl h1 h2 hlen (hX.sk.trans hE.sk) (hX.r.trans hE.r) (hX.lad.trans hE.lad) ?_ ?_
  · rw [hlen]
    exact hX.t
  · rw [hlen]
    simp only [residue, wrapEncrypt, hX.blk, hX.filled]

/-- UNWRAP's output range holds the ciphertext XORed with the session's keystream. -/
theorem unwrapDecrypt_inside (hm : s.buf.wf = true)
    (ha : aliasOK s.regs.src1.toNat s.regs.cnt1.toNat s.regs.dest.toNat = true) {i : Nat} (hi : i < s.regs.cnt1.toNat) :
    (unwrapDecrypt p n s).read (s.regs.dest.toNat + i)
      = s.buf.read (s.regs.src1.toNat + i)
        ^^^ keystreamAt p (sessionKey p n s.regs) (firstCounter p n s.regs) i := by
  have hk := (envelopeAD_spec p n s).2.2.2.2.1 i
  have hE := enterCTIf_same p s.regs.cnt1.toNat (envelopeAD p n s)
  have hA := absorbAll_same p (s.buf.readRange s.regs.src1.toNat s.regs.cnt1.toNat)
    (setLct (addBits 0 s.regs.cnt1.toNat) (enterCTIf p s.regs.cnt1.toNat (envelopeAD p n s)))
  unfold unwrapDecrypt
  rw [xorRange_inside p _ _ (copyPayload_wf hm) _ hi, copyPayload_inside hm ha hi]
  congr 1
  unfold unwrapFinal
  rw [(finalize_same p _).keystream p, hA.keystream p, ← hk]
  exact hE.keystream p i

theorem unwrapDecrypt_outside (hm : s.buf.wf = true) {x : Nat}
    (hx : x < s.regs.dest.toNat ∨ s.regs.dest.toNat + s.regs.cnt1.toNat ≤ x) :
    (unwrapDecrypt p n s).read x = s.buf.read x := by
  unfold unwrapDecrypt
  rw [xorRange_outside p _ _ (copyPayload_wf hm) _ hx, copyPayload_outside hm hx]

/-- A command keeps the canonical form of BUF, and every octet outside the range it writes. -/
theorem command_buf (i : Instr) (hm : s.buf.wf = true) :
    (command p i s).buf.wf = true ∧ ∀ x, ¬ Writes i s.regs x → (command p i s).buf.read x = s.buf.read x := by
  have same {m : Memory} (h : m = s.buf) : m.wf = true ∧ ∀ x, ¬ Writes i s.regs x → m.read x = s.buf.read x := by
    rw [h]
    exact ⟨hm, fun _ _ => rfl⟩
  have stream (hw : ∀ x, ¬ Writes i s.regs x → ¬ (s.regs.src1.toNat ≤ x ∧ x < s.regs.src1.toNat + s.regs.cnt1.toNat)) :
      (streamXor p s).buf.wf = true ∧ ∀ x, ¬ Writes i s.regs x → (streamXor p s).buf.read x = s.buf.read x := by
    simp only [streamXor]
    split
    · exact same rfl
    · split
      · exact same rfl
      · exact ⟨xorRange_wf p _ _ hm _, fun x hx => xorRange_outside p _ _ hm _ (by have := hw x hx; omega)⟩
  cases i with
  | start kl => simp only [command, cmdStart]; split <;> exact same rfl
  | stepi => simp only [command, cmdStepi]; (repeat' split) <;> exact same rfl
  | stepa => simp only [command, cmdStepa]; (repeat' split) <;> exact same rfl
  | stepe => exact stream fun _ h => h
  | stepd => exact stream fun _ h => h
  | stepg => simp only [command, cmdStepg]; split <;> exact same rfl
  | stepv => simp only [command, cmdStepv]; split <;> exact same rfl
  | wrap kl =>
    simp only [command]
    rcases envelope_cases p kl s.regs with h | ⟨n, hn, h⟩
    · rw [cmdWrap_of_invalid h]; exact same rfl
    · rw [cmdWrap_of_valid hn h]
      exact ⟨xorRange_wf p _ _ (copyPayload_wf hm) _, fun x hx =>
        wrapEncrypt_outside p n s hm (by unfold Writes at hx; omega)⟩
  | unwrap kl =>
    simp only [command]
    rcases envelope_cases p kl s.regs with h | ⟨n, hn, h⟩
    · rw [cmdUnwrap_of_invalid h]; exact same rfl
    · rw [cmdUnwrap_of_valid hn h]
      split
      · exact ⟨xorRange_wf p _ _ (copyPayload_wf hm) _, fun x hx =>
          unwrapDecrypt_outside p n s hm (by unfold Writes at hx; omega)⟩
      · exact same rfl
  | zeroize => exact same rfl

end Sys2Proof.Machine
end

