-- ==== Sys2Proof/Laws/PerInstr.lean ====
section
/-! SUPPORT. Per-instruction laws of the encoding (spec/30_encoding.md R90 to R93). -/

namespace Sys2Proof.Laws.EncodedFields

open Sys2Proof

/-- The encoded word has RES = 0 and an OP from 0x1 to 0xA, and a command without a key length has KL = 0. -/
def Statement (i : Instr) : Prop :=
  resField (encode i) = 0 ∧ 1 ≤ (opField (encode i)).toNat ∧ (opField (encode i)).toNat ≤ 0xA ∧
    ((opField (encode i) = 0x1 ∨ opField (encode i) = 0x8 ∨ opField (encode i) = 0x9) ∨ klField (encode i) = 0)

theorem start (kl : KeyCode) : Statement (.start kl) := by cases kl <;> (unfold Statement; decide)
theorem stepi : Statement .stepi := by unfold Statement; decide
theorem stepe : Statement .stepe := by unfold Statement; decide
theorem stepd : Statement .stepd := by unfold Statement; decide
theorem stepa : Statement .stepa := by unfold Statement; decide
theorem stepg : Statement .stepg := by unfold Statement; decide
theorem stepv : Statement .stepv := by unfold Statement; decide
theorem wrap (kl : KeyCode) : Statement (.wrap kl) := by cases kl <;> (unfold Statement; decide)
theorem unwrap (kl : KeyCode) : Statement (.unwrap kl) := by cases kl <;> (unfold Statement; decide)
theorem zeroize : Statement .zeroize := by unfold Statement; decide

end Sys2Proof.Laws.EncodedFields
end

