-- ==== Sys2Proof/Laws/Step.lean ====
section
/-! SUPPORT. What one step can be: a command, an idle core turn, a host action, a poll of a `wait`, or a reset. Proofs about
every step cite `step_cases` and do not unfold the step. -/

namespace Sys2Proof.Machine

open Sys2Proof.Safety

/-- The state in which the latched command ends (R250). -/
def latched (p : Params) (s : State) : State :=
  match decode s.cmdl with
  | .ok i => command p i s
  | .error _ => finish .badCmd s

theorem latched_of_ok {p : Params} {s : State} {i : Instr} (h : decode s.cmdl = .ok i) : latched p s = command p i s := by
  simp [latched, h]

theorem latched_of_error {p : Params} {s : State} {e : DecodeError} (h : decode s.cmdl = .error e) :
    latched p s = finish .badCmd s := by
  simp [latched, h]

theorem runLatched_exec (s : State) : runLatched exec s = .next (latched Config.params s) := by
  unfold runLatched latched
  cases decode s.cmdl with
  | ok i => exact exec_eq i s
  | error e => rfl

theorem coreStep_exec (s : State) : coreStep exec s = .next (landLate (latched Config.params s)) := by
  rw [coreStep, runLatched_exec]
  rfl

theorem latched_frame (p : Params) (s : State) : CommandFrame s (latched p s) := by
  unfold latched
  split
  · exact command_frame p _ s
  · exact ⟨rfl, rfl, rfl, rfl, rfl⟩

theorem landLate_of_nil {s : State} (h : s.host.late = []) : landLate s = s := by
  obtain ⟨_, _, _, _, _, _, _, _, ⟨t, r, d, l⟩⟩ := s
  simp only at h
  subst h
  rfl

/-- Raced writes that land keep the canonical form. -/
theorem wf_landLate {s : State} (h : s.buf.wf = true) : (landLate s).buf.wf = true := by
  rw [landLate_buf]
  generalize s.buf = m at h
  induction s.host.late generalizing m with
  | nil => exact h
  | cons c l ih => exact ih _ (Memory.wf_write h c.1 c.2)

/-- Raced writes that land change no other octet. -/
theorem landLate_outside {s : State} (h : s.buf.wf = true) {x : Nat} (hx : ∀ v, (x, v) ∉ s.host.late) :
    (landLate s).buf.read x = s.buf.read x := by
  rw [landLate_buf]
  generalize s.buf = m at h
  generalize s.host.late = l at hx
  induction l generalizing m with
  | nil => rfl
  | cons c l ih =>
    obtain ⟨a, v⟩ := c
    rw [List.foldl_cons, ih _ (Memory.wf_write h _ _) (fun v hv => hx v (List.mem_cons_of_mem _ hv))]
    exact Memory.read_write_other h _ fun e => hx v (by rw [e]; simp)

/-- BUF at the start of a run is in its canonical form. -/
theorem wf_reset : State.reset.buf.wf = true := Memory.wf_launch

theorem coreTurn_exec (s : State) :
    coreTurn exec s = .next (if s.busy then landLate (latched Config.params s) else s) := by
  unfold coreTurn
  split
  · rw [coreStep_exec]
  · rfl

@[simp] theorem setTurns_setTurns (ts us : List Turn) (s : State) : setTurns ts (setTurns us s) = setTurns ts s := rfl

theorem setTurns_self (s : State) : setTurns s.host.turns s = s := rfl

/-- A step in which the core moves and a command is pending. -/
theorem step_core {s : State} {ts : List Turn} (h : CoreMoves s ts) (hb : s.busy = true) :
    step s = .next (landLate (latched Config.params (setTurns ts s))) := by
  rcases h with ⟨h1, rfl⟩ | h
  · simp only [step, nextTurn, h1]
    rw [coreTurn_exec, if_pos hb]
    have : setTurns [] s = s := by rw [← h1]; rfl
    rw [this]
  · simp only [step, nextTurn, h, takeTurn]
    rw [coreTurn_exec, if_pos (show (setTurns ts s).busy = true from hb)]

/-- A step in which the core moves and no command is pending. -/
theorem step_core_idle {s : State} {ts : List Turn} (h : CoreMoves s ts) (hb : s.busy = false) :
    step s = .next (setTurns ts s) := by
  have hn : ¬ s.busy = true := by simp [hb]
  rcases h with ⟨h1, rfl⟩ | h
  · simp only [step, nextTurn, h1]
    rw [coreTurn_exec, if_neg hn]
    have : setTurns [] s = s := by rw [← h1]; rfl
    rw [this]
  · simp only [step, nextTurn, h, takeTurn]
    rw [coreTurn_exec, if_neg (show ¬ (setTurns ts s).busy = true from hn)]

theorem step_host {s : State} {x : HostAction} {ts : List Turn} (h : s.host.turns = .host x :: ts) :
    step s = hostAct Config.params x (setTurns ts s) := by
  simp only [step, nextTurn, h, takeTurn]

theorem step_reset {s : State} {ts : List Turn} (h : s.host.turns = .reset :: ts) :
    step s = .next (resetBlock (setTurns ts s)) := by
  simp only [step, nextTurn, h, takeTurn]

/-- Everything a step that answers a next state can be. -/
theorem step_cases {s t : State} (h : step s = .next t) :
    (s.busy = true ∧ ∃ ts, t = landLate (latched Config.params (setTurns ts s))) ∨
      (s.busy = false ∧ ∃ ts, t = setTurns ts s) ∨
      (∃ x ts, s.host.turns = .host x :: ts ∧ hostAct Config.params x (setTurns ts s) = .next t) ∨
      (∃ ts, t = hostReadReg Config.params Reg.status.offset (setTurns ts s)) ∨
      (∃ ts, s.host.turns = .reset :: ts ∧ t = resetBlock (setTurns ts s)) := by
  have core {ts : List Turn} (h' : CoreMoves s ts) :
      (s.busy = true ∧ ∃ ts, t = landLate (latched Config.params (setTurns ts s))) ∨
        (s.busy = false ∧ ∃ ts, t = setTurns ts s) := by
    cases hb : s.busy with
    | true => rw [step_core h' hb] at h; exact .inl ⟨rfl, ts, (Host.Outcome.next.inj h).symm⟩
    | false => rw [step_core_idle h' hb] at h; exact .inr ⟨rfl, ts, (Host.Outcome.next.inj h).symm⟩
  cases ht : s.host.turns with
  | nil => rcases core (.inl ⟨ht, rfl⟩) with h' | h' <;> simp [h']
  | cons u ts =>
    cases u with
    | core => rcases core (.inr ht) with h' | h' <;> simp [h']
    | host x =>
      rw [step_host ht] at h
      exact .inr (.inr (.inl ⟨x, ts, rfl, h⟩))
    | reset =>
      rw [step_reset ht] at h
      exact .inr (.inr (.inr (.inr ⟨ts, rfl, (Host.Outcome.next.inj h).symm⟩)))
    | wait polls =>
      simp only [step, nextTurn, ht, takeTurn, waitTurn, setTurns_busy, setTurns_setTurns] at h
      cases hb : s.busy with
      | false =>
        simp only [hb] at h
        exact .inr (.inr (.inr (.inl ⟨ts, (Host.Outcome.next.inj h).symm⟩)))
      | true =>
        cases polls with
        | zero =>
          simp only [hb, coreStep_exec] at h
          exact .inl ⟨rfl, _, (Host.Outcome.next.inj h).symm⟩
        | succ k =>
          simp only [hb] at h
          exact .inr (.inr (.inr (.inl ⟨_, (Host.Outcome.next.inj h).symm⟩)))

/-- A step runs the latched word, is a host action, or leaves BUF alone. -/
theorem step_buf {s t : State} (h : step s = .next t) :
    CoreRuns s t ∨ (∃ x ts, s.host.turns = .host x :: ts ∧ hostAct Config.params x (setTurns ts s) = .next t) ∨
      t.buf = s.buf := by
  have core {ts : List Turn} (h' : CoreMoves s ts) : CoreRuns s t ∨ t.buf = s.buf := by
    cases hb : s.busy with
    | true =>
      rw [step_core h' hb] at h
      exact .inl ⟨hb, ts, _, .inl h', runLatched_exec _, (Host.Outcome.next.inj h).symm⟩
    | false =>
      rw [step_core_idle h' hb] at h
      exact .inr (by rw [← Host.Outcome.next.inj h]; rfl)
  have read {off : Nat} {us : List Turn} (h' : hostReadReg Config.params off (setTurns us s) = t) : t.buf = s.buf := by
    rw [← h']
    unfold hostReadReg
    split <;> rfl
  cases ht : s.host.turns with
  | nil => exact (core (.inl ⟨ht, rfl⟩)).imp_right .inr
  | cons x ts =>
    cases x with
    | core => exact (core (.inr ht)).imp_right .inr
    | host x => exact .inr (.inl ⟨x, ts, rfl, step_host ht ▸ h⟩)
    | reset =>
      rw [step_reset ht] at h
      exact .inr (.inr (by rw [← Host.Outcome.next.inj h]; rfl))
    | wait polls =>
      simp only [step, nextTurn, ht, takeTurn, waitTurn, setTurns_busy, setTurns_setTurns] at h
      cases hb : s.busy with
      | false =>
        simp only [hb] at h
        exact .inr (.inr (read (Host.Outcome.next.inj h)))
      | true =>
        cases polls with
        | zero =>
          simp only [hb, coreStep_exec] at h
          exact .inl ⟨hb, _, _, .inr ⟨ts, ht, rfl⟩, runLatched_exec _, (Host.Outcome.next.inj h).symm⟩
        | succ k =>
          simp only [hb] at h
          exact .inr (.inr (read (Host.Outcome.next.inj h)))

/-! ### Host accesses while BUSY = 0 -/

theorem hostWriteReg_idle {off : Nat} {v : Word} {s : State} (h : s.busy = false) :
    hostWriteReg off v s = match regAt off with
      | some r => writeReg r v s
      | none => s := if_neg (by simp [h])

theorem hostReadReg_idle {p : Params} {off : Nat} {s : State} (h : s.busy = false) :
    hostReadReg p off s = noteRead (.reg off (idleReadValue off s)) s := if_neg (by simp [h])

theorem hostWriteBuf_idle {p : Params} {a : Nat} {v : Byte} {s : State} (h : s.busy = false) :
    hostWriteBuf p a v s = { s with buf := s.buf.write a v } := if_neg (by simp [h])

theorem hostReadBuf_idle {p : Params} {a : Nat} {s : State} (h : s.busy = false) :
    hostReadBuf p a s = noteRead (.octet a (s.buf.read a)) s := if_neg (by simp [h])

/-- Everything a host action that answers a next state can be. -/
theorem hostAct_cases {p : Params} {x : HostAction} {s t : State} (h : hostAct p x s = .next t) :
    (∃ off v, x = .regWrite off 8 v ∧ off < 0x100 ∧ off % 8 = 0 ∧ t = hostWriteReg off v s) ∨
      (∃ off, x = .regRead off 8 ∧ off < 0x100 ∧ off % 8 = 0 ∧ t = hostReadReg p off s) ∨
      (∃ a v, x = .bufWrite a v ∧ a < bufSize p ∧ t = hostWriteBuf p a v s) ∨
      (∃ a, x = .bufRead a ∧ a < bufSize p ∧ t = hostReadBuf p a s) := by
  have reg {off size : Nat} {u : State} (h : regAccess off size u = .next t) :
      off < 0x100 ∧ size = 8 ∧ off % 8 = 0 ∧ t = u := by
    unfold regAccess at h
    split at h
    · split at h
      · rename_i h1 h2
        simp only [regAccessOK, Bool.and_eq_true, beq_iff_eq] at h2
        exact ⟨h1, h2.1, h2.2, (Host.Outcome.next.inj h).symm⟩
      · cases h
    · cases h
  have buf {a : Nat} {u : State} (h : bufAccess p a u = .next t) : a < bufSize p ∧ t = u := by
    unfold bufAccess at h
    split at h
    · rename_i h1
      exact ⟨h1, (Host.Outcome.next.inj h).symm⟩
    · cases h
  cases x with
  | regWrite off size v =>
    obtain ⟨h1, rfl, h2, h3⟩ := reg h
    exact .inl ⟨off, v, rfl, h1, h2, h3⟩
  | regRead off size =>
    obtain ⟨h1, rfl, h2, h3⟩ := reg h
    exact .inr (.inl ⟨off, rfl, h1, h2, h3⟩)
  | bufWrite a v =>
    obtain ⟨h1, h2⟩ := buf h
    exact .inr (.inr (.inl ⟨a, v, rfl, h1, h2⟩))
  | bufRead a =>
    obtain ⟨h1, h2⟩ := buf h
    exact .inr (.inr (.inr ⟨a, rfl, h1, h2⟩))

end Sys2Proof.Machine
end

