-- ==== Sys2Proof/Machine/HostProgram.lean ====
section
/-! DEFINITION. Host programs (spec/30_encoding.md R98 to R100): each action and each pseudo-instruction as the turns it stands
for. `polls` is how many STATUS reads a `wait` makes before the core moves, which the spec leaves unbounded (R251, R262). -/

namespace Sys2Proof.Machine.HostProgram

open Sys2Proof.Machine

/-- `wr NAME, imm`. -/
def wr (r : Reg) (v : Word) : List Turn := [.host (.regWrite r.offset 8 v)]

/-- `rd NAME`. -/
def rd (r : Reg) : List Turn := [.host (.regRead r.offset 8)]

/-- `cmd MNEMONIC` and `cmd MNEMONIC, k`: a write of the command's word to CMD (R97). -/
def cmd (i : Instr) : List Turn := wr .cmd (encode i)

/-- `wait`. -/
def wait (polls : Nat) : List Turn := [.wait polls]

/-- `bufw a, HEX`: one host step for each octet. -/
def bufw : Nat → List Byte → List Turn
  | _, [] => []
  | a, x :: xs => .host (.bufWrite a x) :: bufw (a + 1) xs

/-- `bufr a, n`: one host step for each octet. -/
def bufr : Nat → Nat → List Turn
  | _, 0 => []
  | a, n + 1 => .host (.bufRead a) :: bufr (a + 1) n

/-- Octets `8·k` to `8·k + 7` of a sequence, zero-filled, packed into a register (R25, R99). -/
def packWord (xs : List Byte) (k : Nat) : Word := val64 (Vector.ofFn fun i => xs.getD (8 * k + i.val) 0)

/-- `setkey HEX`. -/
def setkey (xs : List Byte) : List Turn :=
  wr .key0 (packWord xs 0) ++ wr .key1 (packWord xs 1) ++ wr .key2 (packWord xs 2) ++ wr .key3 (packWord xs 3)

/-- `setiv HEX`. -/
def setiv (xs : List Byte) : List Turn := wr .iv0 (packWord xs 0) ++ wr .iv1 (packWord xs 1)

/-- `setmac imm`. -/
def setmac (v : Word) : List Turn := wr .macIn v

/-- `start k`. -/
def start (kl : KeyCode) (polls : Nat) : List Turn := cmd (.start kl) ++ wait polls

/-- A streaming command on `n` octets from `a`. -/
def onRange (i : Instr) (a n : Word) (polls : Nat) : List Turn := wr .src1 a ++ wr .cnt1 n ++ cmd i ++ wait polls

/-- `stepi a, n`. -/
def stepi (a n : Word) (polls : Nat) : List Turn := onRange .stepi a n polls

/-- `stepa a, n`. -/
def stepa (a n : Word) (polls : Nat) : List Turn := onRange .stepa a n polls

/-- `stepe a, n`. -/
def stepe (a n : Word) (polls : Nat) : List Turn := onRange .stepe a n polls

/-- `stepd a, n`. -/
def stepd (a n : Word) (polls : Nat) : List Turn := onRange .stepd a n polls

/-- `stepg`. -/
def stepg (polls : Nat) : List Turn := cmd .stepg ++ wait polls ++ rd .macOut

/-- `stepv`. -/
def stepv (polls : Nat) : List Turn := cmd .stepv ++ wait polls

/-- The operand writes of `wrap` and `unwrap`. -/
def envelopeOperands (d s1 n1 s2 n2 : Word) : List Turn :=
  wr .dest d ++ wr .src1 s1 ++ wr .cnt1 n1 ++ wr .src2 s2 ++ wr .cnt2 n2

/-- `wrap d, s1, n1, s2, n2, k`. -/
def wrap (d s1 n1 s2 n2 : Word) (kl : KeyCode) (polls : Nat) : List Turn :=
  envelopeOperands d s1 n1 s2 n2 ++ cmd (.wrap kl) ++ wait polls ++ rd .macOut

/-- `unwrap d, s1, n1, s2, n2, k`. -/
def unwrap (d s1 n1 s2 n2 : Word) (kl : KeyCode) (polls : Nat) : List Turn :=
  envelopeOperands d s1 n1 s2 n2 ++ cmd (.unwrap kl) ++ wait polls

/-- `zeroize`. -/
def zeroize (polls : Nat) : List Turn := cmd .zeroize ++ wait polls

end Sys2Proof.Machine.HostProgram
end

