-- ==== Sys2Proof/Machine/Primitives.lean ====
section
/-! DEFINITION. The default instances that the spec records "from general knowledge, not in source"
(spec/40_primitives.md R123, R125, R126; spec/93_implementation_defined.md G1 to G4). The machine does not rest on them: it runs
at `Config.params`. They make an example set of parameters, for a cipher that the spec does not give. -/

namespace Sys2Proof.Machine

/-- The first octet of 32-bit word `k` (counting from 0) of a 24-octet key is octet `4·k`; octet `j` of
`K_{k+1} ⊕ K_{k+2} ⊕ K_{k+3}` (R123). -/
def xorWords (key : Octets 24) (k j : Nat) : Byte :=
  key.toList.getD (4 * k + j) 0 ^^^ key.toList.getD (4 * (k + 1) + j) 0 ^^^ key.toList.getD (4 * (k + 2) + j) 0

/-- The default key schedule (R123). -/
def defaultKeyExp : (n : KeySize) → Octets n.octets → Octets 32
  | .k16, key => Vector.ofFn fun i => key.toList.getD (i.val % 16) 0
  | .k24, key => Vector.ofFn fun i =>
      if i.val < 24 then key.toList.getD i.val 0
      else if i.val < 28 then xorWords key 0 (i.val - 24) else xorWords key 3 (i.val - 28)
  | .k32, key => key

/-- The product by `x` modulo `x^128 + x^7 + x^2 + x + 1` (R125). -/
def mulX (v : Block) : Block := (v <<< 1) ^^^ (if v.msb then 0x87 else 0)

/-- The product of `b` with the top `k` coefficients of `a`, from the top one down (R125). -/
def polymulTop (a b : Block) : Nat → Block
  | 0 => 0
  | k + 1 => mulX (polymulTop a b k) ^^^ (if a.getLsbD (127 - k) then b else 0)

/-- The default multiplier (R125). -/
def defaultPolymul (a b : Block) : Block := polymulTop a b 128

/-- The default `BELT_H` (R126). -/
def defaultBeltH : Octets 16 := oct 0xE45D4A588E006D363BF5080AC8BA94B1

/-- The conforming instance (R9: `R_DERIV = DOUBLE`) for a cipher and a BUF address width. The free draws are the caller's. -/
def conformingParams (enc : Octets 32 → Octets 16 → Octets 16) (w : Nat) (hpos : 1 ≤ w) (hle : w ≤ 64)
    (drawWord : Nat → Word) (drawOctet : Nat → Byte) (drawSeen : Nat → Bool) : Params where
  beltEnc := enc
  keyExp := defaultKeyExp
  polymul := defaultPolymul
  beltH := defaultBeltH
  rDeriv := .double
  bufAddrW := w
  bufAddrW_pos := hpos
  bufAddrW_le := hle
  drawWord := drawWord
  drawOctet := drawOctet
  drawSeen := drawSeen

end Sys2Proof.Machine
end

