-- ==== Sys2Proof/Tests/Slice0.lean ====
section
/-! SUPPORT. Tests of the model. The expected values are the spec's: the encodings of spec/30_encoding.md, the vectors of
spec/95_test_vectors.md (under its toy cipher, section 2), and hand calculation from the rules where a docstring says so.
The second half shows, for each statement with hypotheses, states that meet them. -/

namespace Sys2Proof.Tests

set_option Elab.async false

open Sys2Proof Sys2Proof.Machine Sys2Proof.Safety

/-! ## WellFormed: one ill-formed term for each check -/

theorem test_start_illegal_refused : (Instr.start .illegal).wellFormed = false := by decide
theorem test_wrap_illegal_refused : (Instr.wrap .illegal).wellFormed = false := by decide
theorem test_unwrap_illegal_refused : (Instr.unwrap .illegal).wellFormed = false := by decide
theorem test_legal_accepted : [Instr.start .k16, .wrap .k24, .unwrap .k32, .stepi, .stepe, .stepd, .stepa, .stepg, .stepv,
    .zeroize].all Instr.wellFormed = true := by decide

/-! ## Decode: words written out field by field, RES then KL then OP (R90, R91) -/

/-- A command word from its three fields. -/
def word (res : BitVec 58) (kl : BitVec 2) (op : BitVec 4) : Word := res ++ kl ++ op

theorem test_decode_start : decode (word 0 0b10 0b0001) = .ok (.start .k32) := by decide
theorem test_decode_stepi : decode (word 0 0b00 0b0010) = .ok .stepi := by decide
theorem test_decode_stepe : decode (word 0 0b00 0b0011) = .ok .stepe := by decide
theorem test_decode_stepd : decode (word 0 0b00 0b0100) = .ok .stepd := by decide
theorem test_decode_stepa : decode (word 0 0b00 0b0101) = .ok .stepa := by decide
theorem test_decode_stepg : decode (word 0 0b00 0b0110) = .ok .stepg := by decide
theorem test_decode_stepv : decode (word 0 0b00 0b0111) = .ok .stepv := by decide
theorem test_decode_wrap : decode (word 0 0b01 0b1000) = .ok (.wrap .k24) := by decide
theorem test_decode_unwrap : decode (word 0 0b00 0b1001) = .ok (.unwrap .k16) := by decide
theorem test_decode_zeroize : decode (word 0 0b00 0b1010) = .ok .zeroize := by decide
theorem test_decode_kl3 : decode (word 0 0b11 0b0001) = .ok (.start .illegal) := by decide
theorem test_decode_rejects : [word 0 0 0, word 0 0 0b1011, word 0 0 0b1111].map decode
    = [.error .reservedOp, .error .reservedOp, .error .reservedOp] := by decide
/-- Vectors D2 and D3. -/
theorem test_decode_rejects_fields : [0x12, 0x1A, 0x41, 0x8000000000000001].map decode
    = [.error .keyCodeNotAllowed, .error .keyCodeNotAllowed, .error .reservedBits, .error .reservedBits] := by decide
theorem test_decodeTableWord : decodeTableWord 64 0x29 = some (.unwrap .k32) ∧ decodeTableWord 64 0x0B = none := by decide

/-! ## The toy instance (spec/95_test_vectors.md section 2) -/

/-- The toy cipher. -/
def toyEnc (th : Octets 32) (b : Octets 16) : Octets 16 :=
  let s := b.toList.foldl (· ^^^ ·) 0
  Vector.ofFn fun i => (b[i] + octetAt th i.val).rotateLeft 3 ^^^ b[i + 1] ^^^ octetAt th (16 + i.val) ^^^ s

/-- The toy instance. The draws are any. -/
def toy : Params := conformingParams toyEnc 16 (by decide) (by decide) (fun _ => 0) (fun _ => 0) (fun _ => true)

/-- `n` octets `first, first + 1, …`. -/
def count (first n : Nat) : List Byte := (List.range n).map fun i => BitVec.ofNat 8 (first + i)

/-- The standard key, IV and data, with an address and a count. -/
def std (a n : Word) : State :=
  { State.reset with
    regs := { Regs.reset with
      src1 := a, cnt1 := n,
      key0 := 0xA60F0C8F2CE7DEE9, key1 := 0x4796736FF449DB2D, key2 := 0x377A24ED16530706, key3 := 0xF68BA90383A3CB39,
      iv0 := 0x489AFC43139732BE, iv1 := 0xA1094B195F882AA0 }
    buf := (List.range' 0x101 63).map (fun i => (i, BitVec.ofNat 8 (i - 0x100)))
      ++ (List.range' 0x200 64).map (fun i => (i, BitVec.ofNat 8 (i - 0x1F0))) }

/-- The session after START of section 2, as its table gives it, with an address and a count for the next command. -/
def started (a n : Word) : State :=
  { std a n with
    ses := { Session.reset with
      phase := .ad
      sk := Vector.ofFn fun i => octetOf (0xF68BA90383A3CB39377A24ED165307064796736FF449DB2DA60F0C8F2CE7DEE9 : BitVec 256) i.val
      c := 0xCD1497CEC2B0A9BF22BD3C456E71D2CB
      r := 0x9917E979FCAA5BF3CA3ADF7383FBF775
      t := 0xE45D4A588E006D363BF5080AC8BA94B1 } }

/-- What `rd STATUS` returns after a command, with the accumulator. -/
def seen (s : State) : Word × Block := (statusWord s, s.ses.t)

theorem test_toyEnc : toyEnc (Vector.ofFn fun i => BitVec.ofNat 8 i.val) (Vector.ofFn fun i => BitVec.ofNat 8 i.val)
    = oct 0xEFF1C3D1A7B183916F71435127310311 := by decide +kernel

/-- Section 3.1. -/
theorem test_polymul : defaultPolymul (2 ^ 127) (2 ^ 127) = 0xC0000000000000000000000000001067 ∧
    defaultPolymul (BitVec.allOnes 128) (BitVec.allOnes 128) = 0x5555555555555555555555555555402F := by decide +kernel
theorem test_polymul_beltH : defaultPolymul 2 (val defaultBeltH) = 0xC8BA94B11C00DA6C77EA1015917529E5 := by decide +kernel

/-- Section 3.2. -/
theorem test_keyExp24 : (defaultKeyExp .k24 (Vector.ofFn fun i => BitVec.ofNat 8 (i.val + 1))).toList.drop 24
    = [0x0D, 0x0E, 0x0F, 0x00, 0x09, 0x0A, 0x0B, 0x1C] := by decide +kernel
theorem test_keyExp16 : (defaultKeyExp .k16 (Vector.ofFn fun i => BitVec.ofNat 8 i.val)).toList = count 0 16 ++ count 0 16 := by
  decide +kernel

/-- Vector S1. -/
theorem test_start : (command toy (.start .k32) (std 0 0)).ses = (started 0 0).ses ∧
    statusWord (command toy (.start .k32) (std 0 0)) = 0x100 := by decide +kernel
/-- Vector S2. -/
theorem test_start_kl3 : command toy (.start .illegal) State.reset = refusedWith .badInput State.reset ∧
    statusWord (command toy (.start .illegal) State.reset) = 0x10 := ⟨rfl, by decide +kernel⟩
/-- Vector A1. -/
theorem test_stepi : seen (command toy .stepi (started 0x100 3)) = (0x30100, 0xE45D4A588E006D363BF5080AC8BA94B1) ∧
    (command toy .stepi (started 0x100 3)).ses.lad = 24 := by decide +kernel
/-- Vector A3's end of BUF, one octet further: BAD_INPUT. -/
theorem test_stepi_end : statusWord (command toy .stepi (started 0xFFFF 1)) = 0x10100 ∧
    statusWord (command toy .stepi (started 0xFFFF 2)) = 0x110 := by decide +kernel
/-- Vector A8 from its AD residue `00 01 02`. -/
theorem test_stepa : seen (command toy .stepa { command toy .stepi (started 0x100 3) with regs := (std 0x200 2).regs })
    = (0x20200, 0xE264122BFF4577BAF535996CD3A9636D) := by decide +kernel
/-- Vector A12. -/
theorem test_stepa_overflow : statusWord (command toy .stepa { started 0x100 1 with
    ses := { (started 0 0).ses with phase := .ct, lct := 0xFFFFFFFFFFFFFFF8 } }) = 0x210 := by decide +kernel
/-- Vector E1. -/
theorem test_stepe : statusWord (command toy .stepe (started 0x200 5)) = 0x0B000200 ∧
    (command toy .stepe (started 0x200 5)).buf.readRange 0x200 6 = [0x6A, 0xE1, 0xEE, 0x97, 0x60, 0x15] := by decide +kernel
/-- Vector E4: the counter wraps. -/
theorem test_stepe_wrap : ((command toy .stepe { started 0x700 17 with
    ses := { (started 0 0).ses with c := BitVec.allOnes 128 } }).buf.readRange 0x700 17).drop 14 = [0x3F, 0xCC, 0x50] := by
  decide +kernel
/-- Row 15 of section 4: in FINAL with 9 octets left over of `KS2`. -/
theorem test_stepd_final : statusWord (command toy .stepd { started 0x300 1 with
      ses := { (started 0 0).ses with phase := .final, ks := oct 0x9911EF7FFAAC5DF5CC3CD97585FDF163, ksAvail := 9 } })
      = 0x08000300 ∧
    (command toy .stepd { started 0x300 1 with
      ses := { (started 0 0).ses with phase := .final, ks := oct 0x9911EF7FFAAC5DF5CC3CD97585FDF163, ksAvail := 9 } }).buf.read 0x300
      = 0xCC := by decide +kernel
/-- Vector E5. -/
theorem test_stepd_flush : seen (command toy .stepd { command toy .stepi (started 0x100 3) with regs := (std 0x200 1).regs })
    = (0x0F000200, 0xE264122BFF4577BAF535996CD3A9636D) := by decide +kernel
/-- Vector G1. -/
theorem test_stepg : statusWord (command toy .stepg (started 0 0)) = 0x300 ∧
    (command toy .stepg (started 0 0)).regs.macOut = 0x16777AA10581C488 := by decide +kernel
/-- Vector G4. -/
theorem test_stepg_residue : (command toy .stepg (command toy .stepi (started 0x100 3))).regs.macOut = 0x000BF08E629414F4 := by
  decide +kernel
/-- Vectors G2 and G3. -/
theorem test_stepv : [0x16777AA10581C488, 0x16777AA10581C489].map (fun v => statusWord (command toy .stepv
    { started 0 0 with regs := { (std 0 0).regs with macIn := v } })) = [0x300, 0x330] := by decide +kernel
/-- Vector G7. -/
theorem test_stepv_idle : statusWord (command toy .stepv State.reset) = 0x40 := by decide +kernel

/-- The operands of an envelope command at the standard inputs. -/
def envelope (s1 n1 s2 n2 d : Word) : State :=
  { std s1 n1 with regs := { (std s1 n1).regs with src2 := s2, cnt2 := n2, dest := d } }

/-- Vector W5. -/
theorem test_wrap : statusWord (command toy (.wrap .k32) (envelope 0x200 23 0x100 7 0x400)) = 0 ∧
    (command toy (.wrap .k32) (envelope 0x200 23 0x100 7 0x400)).regs.macOut = 0x980BF76448AB5F55 ∧
    (command toy (.wrap .k32) (envelope 0x200 23 0x100 7 0x400)).buf.readRange 0x400 8
      = [0x6A, 0xE1, 0xEE, 0x97, 0x60, 0xCD, 0x2B, 0xDA] := by decide +kernel
/-- Vector W13. -/
theorem test_wrap_overlap : statusWord (command toy (.wrap .k32) (envelope 0x200 48 0x100 13 0x208)) = 0x10 := by decide +kernel
/-- Vector U11, and U4's mismatch on it. -/
theorem test_unwrap_empty : [0x37DA82C382C8EE3A, 0x37DA82C382C8EE3B].map (fun v => statusWord (command toy (.unwrap .k32)
    { envelope 0x500 0 0x100 13 0x600 with regs := { (envelope 0x500 0 0x100 13 0x600).regs with macIn := v } }))
    = [0, 0x30] := by decide +kernel
/-- Vector W7 taken back: the one-octet ciphertext `6A` with W7's tag opens to `10`. -/
theorem test_unwrap : (command toy (.unwrap .k32) { envelope 0x500 1 0x100 0 0x600 with
    regs := { (envelope 0x500 1 0x100 0 0x600).regs with macIn := 0x8DD39321BC45FCFD }
    buf := [(0x500, 0x6A)] }).buf = [(0x500, 0x6A), (0x600, 0x10)] := by decide +kernel
/-- Vector S4. -/
theorem test_zeroize : (command toy .zeroize (started 0x100 3)).regs = { Regs.reset with src1 := 0x100, cnt1 := 3 } ∧
    statusWord (command toy .zeroize (started 0x100 3)) = 0 := by decide +kernel

/-! ## The host port (spec/95_test_vectors.md section 5.8) -/

/-- The state after a turn of the toy machine; the state itself where the turn stops. -/
def turn (t : Turn) (s : State) : State :=
  match takeTurn toy (commandOutcome toy) t s with
  | .next u => u
  | _ => s

/-- H1: a register write while a command is pending is ignored and sets OVR. -/
theorem test_write_while_busy :
    statusWord ([.host (.regWrite 0x00 8 0x21), .host (.regWrite 0x10 8 0x999), .core].foldl (fun s t => turn t s) (std 7 0))
      = 0x102 ∧
    ([.host (.regWrite 0x00 8 0x21), .host (.regWrite 0x10 8 0x999), .core].foldl (fun s t => turn t s) (std 7 0)).regs.src1
      = 7 := by decide +kernel
/-- H5: a BUF access while a command is pending is the fault BUF_RACE. -/
theorem test_buf_race :
    (turn (.host (.bufRead 0x200)) (turn (.host (.regWrite 0x00 8 0x03)) (std 0 0))).faults = [.bufRace] := by decide +kernel
/-- H6: a reset discards the pending command. -/
theorem test_reset_discards : ([.host (.regWrite 0x00 8 0x21), .reset, .core].foldl (fun s t => turn t s) (std 0 0))
    = { State.reset with buf := (std 0 0).buf } := by decide +kernel
/-- `setkey` and `setiv` put the words of section 2 into the registers (R99). -/
theorem test_setiv : HostProgram.setiv
    [0xBE, 0x32, 0x97, 0x13, 0x43, 0xFC, 0x9A, 0x48, 0xA0, 0x2A, 0x88, 0x5F, 0x19, 0x4B, 0x09, 0xA1]
    = [.host (.regWrite 0x60 8 0x489AFC43139732BE), .host (.regWrite 0x68 8 0xA1094B195F882AA0)] := by decide +kernel
/-- The map of registers is its own inverse (R20). -/
theorem test_register_map : [Reg.cmd, .status, .src1, .cnt1, .src2, .cnt2, .dest, .key0, .key1, .key2, .key3, .iv0, .iv1, .macIn,
    .macOut, .lad, .lct].all (fun r => regAt r.offset = some r) = true := by decide
/-- The word latched for a table row is what the next step runs (BAD_CMD for `0x00`). -/
theorem test_withFetchWord : ∃ t, step (State.reset.withFetchWord 64 0x00) = .next t ∧ t.err = .badCmd ∧ t.busy = false :=
  ⟨_, rfl, rfl, rfl⟩

/-! ## Witnesses: states that meet the hypotheses of the statements -/

theorem bufSize_ge_two : 2 ≤ 2 ^ Config.params.bufAddrW :=
  Nat.pow_le_pow_right (n := 2) (by decide) Config.params.bufAddrW_pos

theorem bufSize_le : 2 ^ Config.params.bufAddrW ≤ 2 ^ 64 := Nat.pow_le_pow_right (by decide) Config.params.bufAddrW_le

/-- A range of `n ≤ 2` octets at 0 or 1 that ends in the smallest BUF. -/
theorem inSpace_low {a n : Nat} (h : a + n ≤ 2) : InSpace a n := .inr (Nat.le_trans h bufSize_ge_two)

/-- Two octets from address `2^64 - 1` lie outside the largest BUF. -/
theorem not_inSpace_top : ¬ InSpace 0xFFFFFFFFFFFFFFFF 2 := by
  have := bufSize_le
  rintro (h | h) <;> omega

/-- A state in a phase, with an address and a count. -/
def inPhase (ph : Phase) (a n : Word) : State :=
  { State.reset with ses := { Session.reset with phase := ph }, regs := { Regs.reset with src1 := a, cnt1 := n } }

/-- A state with a word latched and turns to come. -/
def pending (w : Word) (ts : List Turn) : State := { setTurns ts State.reset with cmdl := w, busy := true }

/-- Envelope operands. -/
def operands (s1 n1 s2 n2 d : Word) : State :=
  { State.reset with regs := { Regs.reset with src1 := s1, cnt1 := n1, src2 := s2, cnt2 := n2, dest := d } }

/-- Every command answers a next state, so that `exec i s = .next t` can be met at every `i` and `s`. -/
theorem exec_answers (i : Instr) (s : State) : ∃ t, exec i s = .next t := ⟨_, exec_eq i s⟩

/-- O4: an idle core, a pending command, a pending malformed word. -/
theorem witness_StepRunsDecodedCommand :
    (CoreMoves State.reset [] ∧ State.reset.busy = false) ∧
    (CoreMoves (pending 0x21 [.core]) [] ∧ (pending 0x21 [.core]).busy = true ∧
      decode (pending 0x21 [.core]).cmdl = .ok (.start .k32) ∧ (pending 0x21 [.core]).host.late = []) ∧
    (CoreMoves (pending 0x00 []) [] ∧ (pending 0x00 []).busy = true ∧
      decode (pending 0x00 []).cmdl = .error .reservedOp ∧ (pending 0x00 []).host.late = []) :=
  ⟨⟨.inl ⟨rfl, rfl⟩, rfl⟩, ⟨.inr rfl, rfl, rfl, rfl⟩, ⟨.inl ⟨rfl, rfl⟩, rfl, rfl, rfl⟩⟩

/-- O5: each way to be malformed, at the edge of its range: 64 (the lowest RES bit), OP 0, OP 0xB and 0xF, KL = 1 with OP 2. -/
theorem witness_BadCmdChangesNothing : ∀ w ∈ [0x40, 0x30, 0x0B, 0x0F, 0x12],
    CoreMoves (pending w []) [] ∧ (pending w []).busy = true ∧ (pending w []).host.late = [] ∧
      (64 ≤ w.toNat ∨ w.toNat % 16 = 0 ∨ 0xB ≤ w.toNat % 16 ∨
        (w.toNat % 16 ≠ 1 ∧ w.toNat % 16 ≠ 8 ∧ w.toNat % 16 ≠ 9 ∧ w.toNat / 16 % 4 ≠ 0)) := by
  intro w hw
  refine ⟨.inl ⟨rfl, rfl⟩, rfl, rfl, ?_⟩
  simp only [List.mem_cons, List.not_mem_nil, or_false] at hw
  rcases hw with rfl | rfl | rfl | rfl | rfl <;> decide

/-- O7. -/
theorem witness_PendingCommandEnds : (pending 0x21 [.wait 3]).busy = true := rfl

/-- O8: a `wait` on an idle core, with a poll to go, and with none. -/
theorem witness_WaitPollsStatus :
    ((setTurns [.wait 0] State.reset).host.turns = [.wait 0] ∧ (setTurns [.wait 0] State.reset).busy = false) ∧
    ((pending 0x21 [.wait 1]).host.turns = [.wait (0 + 1)] ∧ (pending 0x21 [.wait 1]).busy = true) ∧
    ((pending 0x21 [.wait 0]).host.turns = [.wait 0] ∧ (pending 0x21 [.wait 0]).busy = true) :=
  ⟨⟨rfl, rfl⟩, ⟨rfl, rfl⟩, ⟨rfl, rfl⟩⟩

/-- A session in AD whose tag MAC_IN holds, or misses by `k`. -/
def expecting (k : Word) : State :=
  { inPhase .ad 0 0 with
    regs := { Regs.reset with macIn := sessionTag Config.params (inPhase .ad 0 0).ses + k } }

theorem eq_add_iff (a k : Word) : a = a + k ↔ k = 0 := by
  constructor
  · intro h
    bv_omega
  · rintro rfl
    simp

theorem expecting_tag (k : Word) :
    tagMatches (tagOctets (finalize Config.params (expecting k).ses).t) (expecting k).regs = true ↔ k = 0 := by
  rw [tagMatches_iff, finalize_t]
  exact eq_add_iff (sessionTag Config.params (inPhase .ad 0 0).ses) k

/-- Empty envelope operands under a legal key, whose tag MAC_IN holds, or misses by `k`. -/
def expectingEnvelope (k : Word) : State :=
  { State.reset with regs := { Regs.reset with macIn := envelopeTag Config.params .k16 State.reset [] + k } }

theorem valid_empty (kl : KeyCode) (h : kl ≠ .illegal) (g : Regs) (h1 : g.cnt1 = 0) (h2 : g.cnt2 = 0) : EnvelopeValid kl g := by
  simp [EnvelopeValid, InSpace, h, h1, h2]

theorem expectingEnvelope_tag (k : Word) :
    envelopeTag Config.params .k16 (expectingEnvelope k) (srcOctets (expectingEnvelope k)) = (expectingEnvelope k).regs.macIn
      ↔ k = 0 :=
  eq_add_iff (envelopeTag Config.params .k16 State.reset []) k

/-- STEPV and UNWRAP end in OK or BAD_MAC as MAC_IN holds the tag or not (O9, O10, O11, O26, O28, O31, O32). -/
theorem witness_tag_codes :
    (∃ t, exec .stepv (expecting 0) = .next t ∧ t.err = .ok) ∧
    (∃ t, exec .stepv (expecting 1) = .next t ∧ t.err = .badMac) ∧
    (∃ t, exec (.unwrap .k16) (expectingEnvelope 0) = .next t ∧ t.err = .ok) ∧
    (∃ t, exec (.unwrap .k16) (expectingEnvelope 1) = .next t ∧ t.err = .badMac) := by
  have hv (k : Word) : envelopeOK Config.params .k16 (expectingEnvelope k).regs = true :=
    envelopeOK_iff.2 (valid_empty _ (by decide) _ rfl rfl)
  have ht (k : Word) : tagMatches (tagOctets (unwrapFinal Config.params .k16 (expectingEnvelope k)).t)
      (expectingEnvelope k).regs = true ↔ k = 0 := by
    rw [tagMatches_iff, unwrapFinal_tag Config.params .k16 (expectingEnvelope k) (by rfl) (by rfl)]
    exact expectingEnvelope_tag k
  have hp (k : Word) : (expecting k).ses.phase = .ad := rfl
  refine ⟨⟨_, exec_eq _ _, ?_⟩, ⟨_, exec_eq _ _, ?_⟩, ⟨_, exec_eq _ _, ?_⟩, ⟨_, exec_eq _ _, ?_⟩⟩
  · simp only [command, cmdStepv, hp]
    rw [if_neg (by decide), if_pos ((expecting_tag 0).2 rfl)]
    rfl
  · simp only [command, cmdStepv, hp]
    rw [if_neg (by decide), if_neg (fun h => absurd ((expecting_tag 1).1 h) (by decide))]
    rfl
  · simp only [command]
    rw [cmdUnwrap_of_valid (n := .k16) rfl (hv 0), if_pos ((ht 0).2 rfl)]
    rfl
  · simp only [command]
    rw [cmdUnwrap_of_valid (n := .k16) rfl (hv 1), if_neg (fun h => absurd ((ht 1).1 h) (by decide))]
    rfl

/-- O9: a command refused for its phase, one for its operands, and a malformed word. -/
theorem witness_RefusalHasNoEffect :
    (∃ t, exec .stepi State.reset = .next t ∧ t.err = .badOrder) ∧
    (∃ t, exec (.start .illegal) State.reset = .next t ∧ t.err = .badInput) ∧
    decode (pending 0x0B []).cmdl = .error .reservedOp := ⟨⟨_, rfl, rfl⟩, ⟨_, rfl, rfl⟩, rfl⟩

/-- O10: each of the four outcomes of a decoded word, and a word that is not one. -/
theorem witness_CheckOrder :
    decode 0x00 = .error .reservedOp ∧
    (decode 0x02 = .ok .stepi ∧ phaseTable .stepi .idle 0 = none) ∧
    (phaseTable .stepi .ad 2 ≠ none ∧ ¬ OperandsValid .stepi (inPhase .ad 0xFFFFFFFFFFFFFFFF 2)) ∧
    (phaseTable .stepv .ad 0 ≠ none ∧ OperandsValid .stepv (expecting 1) ∧ ¬ TagEqual .stepv (expecting 1)) ∧
    (phaseTable .stepv .ad 0 ≠ none ∧ OperandsValid .stepv (expecting 0) ∧ TagEqual .stepv (expecting 0)) := by
  have key (k : Word) : TagEqual .stepv (expecting k) ↔ k = 0 := by
    rw [← expecting_tag k, tagMatches_iff, finalize_t]
    exact Iff.rfl
  refine ⟨rfl, ⟨rfl, rfl⟩, ⟨by decide, fun h => not_inSpace_top h.1⟩, ⟨by decide, trivial, ?_⟩, ⟨by decide, trivial, ?_⟩⟩
  · rw [key]
    decide
  · rw [key]

/-- O11, O12: every phase, and a STEPI that ends OK. -/
theorem witness_OrderingRule :
    (∀ ph : Phase, (inPhase ph 0 0).ses.phase = ph) ∧
    (∃ t, exec .stepi (inPhase .ad 0 0) = .next t ∧ t.err = .ok) ∧
    (∃ t, exec .stepg (inPhase .ct 0 0) = .next t ∧ t.err ≠ .badOrder) ∧
    (∃ t, exec .stepe (inPhase .final 0 0) = .next t) :=
  ⟨fun _ => rfl, ⟨_, rfl, rfl⟩, ⟨_, rfl, by decide⟩, exec_answers _ _⟩

/-- O13: each range of each command outside BUF alone, and empty ranges at the highest address. -/
theorem witness_RangeRule :
    (∀ i ∈ [Instr.stepi, .stepa, .stepe, .stepd], phaseTable i .ad 2 ≠ none) ∧
    ¬ InSpace (inPhase .ad 0xFFFFFFFFFFFFFFFF 2).regs.src1.toNat (inPhase .ad 0xFFFFFFFFFFFFFFFF 2).regs.cnt1.toNat ∧
    (¬ InSpace (operands 0xFFFFFFFFFFFFFFFF 2 0 0 0).regs.src1.toNat 2 ∧ InSpace 0 2) ∧
    ¬ InSpace (operands 0 0 0xFFFFFFFFFFFFFFFF 2 0).regs.src2.toNat 2 ∧
    ¬ InSpace (operands 0 2 0 0 0xFFFFFFFFFFFFFFFF).regs.dest.toNat 2 ∧
    ((inPhase .ad 0xFFFFFFFFFFFFFFFF 0).regs.cnt1.toNat = 0 ∧ phaseTable .stepi .ad 0 ≠ none) ∧
    ((operands 0xFFFFFFFFFFFFFFFF 0 0xFFFFFFFFFFFFFFFF 0 0).regs.cnt2.toNat = 0 ∧ KeyCode.k16 ≠ .illegal) :=
  ⟨by decide, not_inSpace_top, ⟨not_inSpace_top, inSpace_low (by decide)⟩, not_inSpace_top, not_inSpace_top,
    ⟨rfl, by decide⟩, ⟨rfl, by decide⟩⟩

/-- A session whose counters stand at `v`. -/
def counted (ph : Phase) (v : Word) (n : Word) : State :=
  { inPhase ph 0 n with ses := { Session.reset with phase := ph, lad := v, lct := v } }

/-- O14: one octet too many, and the last octet that fits. -/
theorem witness_LengthRule :
    (2 ^ 64 - 1 < (counted .ad 0xFFFFFFFFFFFFFFF8 1).ses.lad.toNat + 8 * (counted .ad 0xFFFFFFFFFFFFFFF8 1).regs.cnt1.toNat) ∧
    (2 ^ 64 - 1 < (counted .ct 0xFFFFFFFFFFFFFFF8 1).ses.lct.toNat + 8 * (counted .ct 0xFFFFFFFFFFFFFFF8 1).regs.cnt1.toNat) ∧
    (∃ t, exec .stepi (counted .ad 0xFFFFFFFFFFFFFFF0 1) = .next t ∧ t.err = .ok) ∧
    (∃ t, exec .stepa (counted .ct 0xFFFFFFFFFFFFFFF0 1) = .next t ∧ t.err = .ok) := by
  have hr : rangeOK Config.params 0 1 = true := rangeOK_iff.2 (inSpace_low (by decide))
  refine ⟨by decide, by decide, ⟨_, exec_eq _ _, ?_⟩, ⟨_, exec_eq _ _, ?_⟩⟩
  · simp [command, cmdStepi, counted, inPhase, Regs.reset, hr, lengthOK]
  · simp [command, cmdStepa, counted, inPhase, Regs.reset, hr, lengthOK]

/-- O15, O16: each legal key code, and both values of R_DERIV between them. -/
theorem witness_StartOpensSession :
    KeyCode.k16.size? = some .k16 ∧ KeyCode.k24.size? = some .k24 ∧ KeyCode.k32.size? = some .k32 ∧
    (Config.params.rDeriv = .single ∨ Config.params.rDeriv = .double) :=
  ⟨rfl, rfl, rfl, by cases Config.params.rDeriv <;> simp⟩

/-- O17: with a 16-octet key, KEY2 and KEY3 may differ; with a 24-octet key, KEY3 may. -/
theorem witness_UnusedKeyOctetsIgnored :
    (∀ j, j < KeySize.k16.octets →
      ({ Regs.reset with key2 := 5, key3 := 7 } : Regs).keyOctet j = Regs.reset.keyOctet j) ∧
    (∀ j, j < KeySize.k24.octets → ({ Regs.reset with key3 := 7 } : Regs).keyOctet j = Regs.reset.keyOctet j) := by
  constructor <;> decide

/-- O20, O50: a reset turn. -/
theorem witness_ResetSets : (pending 0x21 [.reset, .core]).host.turns = .reset :: [.core] ∧
    (pending 0x21 [.reset, .core]).host.late = [] := ⟨rfl, rfl⟩

/-- O21, O22, O23: the three clauses at an octet or two at the start of BUF, and each ground of refusal. -/
theorem witness_streaming_clauses :
    ((inPhase .idle 0 0).ses.phase ≠ .ad ∧ (inPhase .idle 0 0).ses.phase ≠ .ct) ∧
    ((inPhase .ad 0 2).ses.phase = .ad ∧ InSpace (inPhase .ad 0 2).regs.src1.toNat (inPhase .ad 0 2).regs.cnt1.toNat ∧
      (inPhase .ad 0 2).ses.lad.toNat + 8 * (inPhase .ad 0 2).regs.cnt1.toNat ≤ 2 ^ 64 - 1 ∧
      (inPhase .ad 0 2).ses.lct.toNat + 8 * (inPhase .ad 0 2).regs.cnt1.toNat ≤ 2 ^ 64 - 1 ∧
      (inPhase .ad 0 2).regs.cnt1.toNat ≠ 0 ∧ (inPhase .ad 0 2).buf.wf = true) ∧
    ((inPhase .ct 0 2).ses.phase = .ct ∧ (inPhase .ct 0 2).ses.phase ≠ .idle ∧ (inPhase .ct 0 2).ses.phase ≠ .ad) ∧
    (inPhase .final 0 0).regs.cnt1.toNat = 0 ∧
    ¬ InSpace (inPhase .ad 0xFFFFFFFFFFFFFFFF 2).regs.src1.toNat (inPhase .ad 0xFFFFFFFFFFFFFFFF 2).regs.cnt1.toNat ∧
    ¬ (counted .ad 0xFFFFFFFFFFFFFFF8 1).ses.lad.toNat + 8 * (counted .ad 0xFFFFFFFFFFFFFFF8 1).regs.cnt1.toNat ≤ 2 ^ 64 - 1 :=
  ⟨⟨by decide, by decide⟩, ⟨rfl, inSpace_low (by decide), by decide, by decide, by decide, wf_reset⟩,
    ⟨rfl, by decide, by decide⟩, rfl, not_inSpace_top, by decide⟩

/-- O25, O26: STEPG and STEPV in AD, in CT, and where they are refused; MAC_IN right and wrong. -/
theorem witness_finalizer_clauses :
    (inPhase .ad 0 0).ses.phase = .ad ∧ (inPhase .ct 0 0).ses.phase = .ct ∧
    ((inPhase .final 0 0).ses.phase ≠ .ad ∧ (inPhase .final 0 0).ses.phase ≠ .ct) ∧
    sessionTag Config.params (expecting 0).ses = (expecting 0).regs.macIn ∧
    sessionTag Config.params (expecting 1).ses ≠ (expecting 1).regs.macIn := by
  have key (k : Word) : sessionTag Config.params (expecting k).ses = (expecting k).regs.macIn ↔ k = 0 := by
    rw [← expecting_tag k, tagMatches_iff, finalize_t]
    exact Iff.rfl
  exact ⟨rfl, rfl, ⟨by decide, by decide⟩, (key 0).2 rfl, fun h => absurd ((key 1).1 h) (by decide)⟩

/-- O27: finalizing commands that are not refused, and a state in FINAL. -/
theorem witness_Finality : (∃ t, exec .stepg (inPhase .ad 0 0) = .next t ∧ t.err ≠ .badOrder) ∧
    (∃ t, exec .stepv (expecting 0) = .next t ∧ t.err ≠ .badOrder) ∧ (inPhase .final 0 0).ses.phase = .final :=
  ⟨⟨_, rfl, by decide⟩, by obtain ⟨t, h, h'⟩ := witness_tag_codes.1; exact ⟨t, h, by rw [h']; decide⟩, rfl⟩

/-- O29, O30, O31, O33: operands that are valid (in place, next to each other, empty), and each check failing. -/
theorem witness_envelope_clauses :
    EnvelopeValid .k16 (operands 0 2 0 1 0).regs ∧ EnvelopeValid .k24 (operands 0 1 0 2 1).regs ∧
    EnvelopeValid .k32 (operands 0 0 0 0 0).regs ∧ (operands 0 2 0 1 0).buf.wf = true ∧
    ¬ EnvelopeValid .illegal (operands 0 0 0 0 0).regs ∧
    ¬ EnvelopeValid .k16 (operands 0xFFFFFFFFFFFFFFFF 2 0 0 0).regs ∧
    ¬ EnvelopeValid .k16 (operands 0 0 0xFFFFFFFFFFFFFFFF 2 0).regs ∧
    ¬ EnvelopeValid .k16 (operands 0 2 0 0 0xFFFFFFFFFFFFFFFF).regs ∧
    ¬ EnvelopeValid .k16 (operands 0 0x2000000000000000 0 0 0).regs ∧
    ¬ EnvelopeValid .k16 (operands 0 0 0 0x2000000000000000 0).regs ∧
    ¬ EnvelopeValid .k16 (operands 0 2 0 0 1).regs := by
  refine ⟨⟨by decide, inSpace_low (by decide), inSpace_low (by decide), inSpace_low (by decide), by decide, by decide, by decide⟩,
    ⟨by decide, inSpace_low (by decide), inSpace_low (by decide), inSpace_low (by decide), by decide, by decide, by decide⟩,
    valid_empty _ (by decide) _ rfl rfl, wf_reset, fun h => h.1 rfl, fun h => not_inSpace_top h.2.1,
    fun h => not_inSpace_top h.2.2.1, fun h => not_inSpace_top h.2.2.2.1, fun h => absurd h.2.2.2.2.1 (by decide),
    fun h => absurd h.2.2.2.2.2.1 (by decide), fun h => absurd h.2.2.2.2.2.2 (by decide)⟩

/-- O31: a tag that matches and one that does not, under valid operands. -/
theorem witness_UnwrapOpens :
    EnvelopeValid .k16 (expectingEnvelope 0).regs ∧ KeyCode.k16.size? = some .k16 ∧ (expectingEnvelope 0).buf.wf = true ∧
    envelopeTag Config.params .k16 (expectingEnvelope 0) (srcOctets (expectingEnvelope 0)) = (expectingEnvelope 0).regs.macIn ∧
    envelopeTag Config.params .k16 (expectingEnvelope 1) (srcOctets (expectingEnvelope 1)) ≠ (expectingEnvelope 1).regs.macIn :=
  ⟨valid_empty _ (by decide) _ rfl rfl, rfl, wf_reset, (expectingEnvelope_tag 0).2 rfl,
    fun h => absurd ((expectingEnvelope_tag 1).1 h) (by decide)⟩

/-- What WRAP leaves on the operands of `witness_RoundTrip`. -/
def sealed : State := command Config.params (.wrap .k16) (operands 0 1 0 0 1)

/-- UNWRAP's operands after it: the ciphertext at 1, back to 0. -/
def returned : State :=
  { sealed with regs := { sealed.regs with src1 := 1, dest := 0, macIn := sealed.regs.macOut } }

/-- O34: one octet sealed from 0 to 1 and opened from 1 to 0. -/
theorem witness_RoundTrip :
    EnvelopeValid .k16 (operands 0 1 0 0 1).regs ∧ (operands 0 1 0 0 1).buf.wf = true ∧
    exec (.wrap .k16) (operands 0 1 0 0 1) = .next sealed ∧ EnvelopeValid .k16 returned.regs ∧ returned.buf.wf = true ∧
    (∀ n, returned.regs.key n = (operands 0 1 0 0 1).regs.key n) ∧ returned.regs.iv = (operands 0 1 0 0 1).regs.iv ∧
    adOctets returned = adOctets (operands 0 1 0 0 1) ∧
    srcOctets returned = sealed.buf.readRange (operands 0 1 0 0 1).regs.dest.toNat (operands 0 1 0 0 1).regs.cnt1.toNat ∧
    returned.regs.macIn = sealed.regs.macOut := by
  have hv : EnvelopeValid .k16 (operands 0 1 0 0 1).regs :=
    ⟨by decide, inSpace_low (by decide), .inl rfl, inSpace_low (by decide), by decide, by decide, by decide⟩
  have hs : sealed = finish .ok (wipe (setMacOut (val64 (tagOctets (wrapFinal Config.params .k16 (operands 0 1 0 0 1)).t))
      (setBuf (wrapEncrypt Config.params .k16 (operands 0 1 0 0 1)).1 (operands 0 1 0 0 1)))) := by
    simp only [sealed, command]
    exact cmdWrap_of_valid rfl (envelopeOK_iff.2 hv)
  have hg : sealed.regs = { (operands 0 1 0 0 1).regs with macOut := sealed.regs.macOut } := by rw [hs]; rfl
  have hb : sealed.buf.wf = true := by
    rw [hs]
    exact xorRange_wf _ _ _ (copyPayload_wf wf_reset) _
  have h1 : sealed.regs.cnt1 = 1 := by rw [hg]; rfl
  have h2 : sealed.regs.src2 = 0 ∧ sealed.regs.cnt2 = 0 := by rw [hg]; exact ⟨rfl, rfl⟩
  refine ⟨hv, wf_reset, exec_eq _ _, ?_, hb, ?_, ?_, ?_, ?_, rfl⟩
  · simp only [returned, EnvelopeValid, h1, h2]
    exact ⟨by decide, inSpace_low (by decide), .inl rfl, inSpace_low (by decide), by decide, by decide, by decide⟩
  · intro n
    simp only [returned]
    rw [hg]
    rfl
  · simp only [returned]
    rw [hg]
    rfl
  · simp only [adOctets, returned, h2]
    rfl
  · simp only [srcOctets, returned, h1]
    rfl

/-- O35: one octet in place, sent as an empty chunk and a chunk of one. -/
theorem witness_StreamingEqualsWrap :
    EnvelopeValid .k16 (operands 0 1 0 2 0).regs ∧ (operands 0 1 0 2 0).buf.wf = true ∧
    (∃ w, exec (.wrap .k16) (operands 0 1 0 2 0) = .next w) ∧ (∃ t, exec (.start .k16) (operands 0 1 0 2 0) = .next t) ∧
    [1, 0, 1].sum = (operands 0 1 0 2 0).regs.cnt2.toNat ∧ [0, 1].sum = (operands 0 1 0 2 0).regs.cnt1.toNat ∧
    (operands 0 1 0 2 0).buf.readRange (operands 0 1 0 2 0).regs.dest.toNat
      (operands 0 1 0 2 0).regs.cnt1.toNat = srcOctets (operands 0 1 0 2 0) :=
  ⟨⟨by decide, inSpace_low (by decide), inSpace_low (by decide), inSpace_low (by decide), by decide, by decide, by decide⟩,
    wf_reset, exec_answers _ _, exec_answers _ _, by decide, by decide, rfl⟩

/-- O37: a step that changes the scheduled key: a reset of a session with another key. -/
theorem witness_SessionKeysConstant : ∃ s t : State, step s = .next t ∧ t.ses.r ≠ s.ses.r :=
  ⟨{ setTurns [.reset] State.reset with ses := { Session.reset with r := 1 } }, _, rfl, by decide⟩

/-- O38, O44: a step that leaves a command pending, and one that ends it. -/
theorem witness_OperandsStableWhileBusy :
    (∃ t, step (pending 0x21 [.host (.regWrite 0x10 8 7)]) = .next t ∧ t.busy = true) ∧
    (∃ t, step (pending 0x21 []) = .next t ∧ t.busy = false) :=
  ⟨⟨_, rfl, rfl⟩, ⟨_, rfl, rfl⟩⟩

/-- O39 to O42, O45: host accesses under both values of BUSY, at the edges of the reserved offsets. -/
theorem witness_register_turns :
    ((setTurns [.host (.regWrite 0x00 8 1)] State.reset).busy = false ∧ (pending 0x21 [.host (.regWrite 0x00 8 1)]).busy = true) ∧
    (setTurns [.host (.regRead 0xF8 8)] State.reset).host.turns = [.host (.regRead 0xF8 8)] ∧
    (0xF8 < 0x100 ∧ 0xF8 % 8 = 0 ∧ 0x90 ≤ 0xF8) ∧ (0x38 < 0x100 ∧ 0x38 % 8 = 0) ∧ (0x40 ≤ 0x58 ∧ 0x58 < 0x60) ∧
    (pending 0x21 [.host (.regRead Reg.status.offset 8)]).host.turns = [.host (.regRead Reg.status.offset 8)] := by
  refine ⟨⟨rfl, rfl⟩, rfl, by decide, by decide, by decide, rfl⟩

/-- O44: OVR falls by an accepted CMD write. -/
theorem witness_WritesWhileBusyIgnored :
    (∃ t, step { setTurns [.host (.regWrite 0x00 8 0x21)] State.reset with ovr := true } = .next t ∧ t.ovr = false) ∧
    (pending 0x21 [.host (.regWrite 0xF8 8 1)]).busy = true ∧ 0xF8 < 0x100 ∧ 0xF8 % 8 = 0 :=
  ⟨⟨_, rfl, rfl⟩, rfl, by decide, by decide⟩

/-- O46: a raced read of BUF records the fault; a reset keeps it. -/
theorem witness_FaultRecord :
    (∃ t, step (pending 0x21 [.host (.bufRead 1)]) = .next t ∧ .bufRace ∈ t.faults ∧ .bufRace ∉ (pending 0x21 []).faults) ∧
    isBufAccess (.host (.bufRead 1)) = true ∧
    (∃ t, step { setTurns [.reset] State.reset with faults := [.bufRace] } = .next t) := by
  have h : 1 < bufSize Config.params := bufSize_ge_two
  refine ⟨⟨hostReadBuf Config.params 1 (pending 0x21 []), ?_, ?_, by decide⟩, rfl, ⟨_, rfl⟩⟩
  · rw [step_host (x := .bufRead 1) (ts := []) rfl]
    simp only [hostAct, bufAccess, if_pos h]
    rfl
  · simp [hostReadBuf, pending, State.reset]

/-- O47: the first two octets exist in every BUF, and address `2^64` in none. -/
theorem witness_HostBufAccess : 1 < 2 ^ Config.params.bufAddrW ∧ 2 ^ Config.params.bufAddrW ≤ 2 ^ 64 ∧
    (setTurns [.host (.bufWrite 1 9)] State.reset).host.turns = [.host (.bufWrite 1 9)] ∧
    (setTurns [.host (.bufRead (2 ^ 64))] State.reset).host.turns = [.host (.bufRead (2 ^ 64))] ∧ State.reset.buf.wf = true :=
  ⟨bufSize_ge_two, bufSize_le, rfl, rfl, wf_reset⟩

/-- O48: too narrow, too wide, misaligned, at the last octet of the window. -/
theorem witness_NarrowAccessRefused : ∀ x ∈ [(0x00, 4), (0x08, 16), (0xFF, 8)],
    x.1 < 0x100 ∧ (x.2 ≠ 8 ∨ x.1 % 8 ≠ 0) := by decide

/-- O49: two states that differ in a key register and in hidden session fields alone. -/
theorem witness_SecretsUnreadable : ∃ s s' : State, s ≠ s' ∧ SameToHost s s' ∧ s.busy = false ∧
    s.host.turns = [.host (.regRead 0x40 8)] ∧ ∃ t, step s = .next t :=
  ⟨setTurns [.host (.regRead 0x40 8)] State.reset,
    { setTurns [.host (.regRead 0x40 8)] State.reset with
      regs := { Regs.reset with key0 := 1 }, ses := { Session.reset with t := 1 } },
    fun h => absurd (congrArg (fun s => s.regs.key0) h) (by decide),
    ⟨rfl, rfl, rfl, rfl, rfl, rfl, rfl, rfl, rfl, rfl, rfl, rfl, rfl, rfl, rfl, rfl, rfl, rfl, rfl⟩, rfl, rfl, ⟨_, rfl⟩⟩

/-- O52: a sound state with a step. -/
theorem witness_SoundKept : Sound State.reset ∧ ∃ t, step State.reset = .next t := by
  refine ⟨⟨⟨fun _ => rfl, ?_, ?_, rfl, rfl⟩, wf_reset, Memory.within_launch, by decide, ?_, fun h => absurd rfl h, fun h => absurd rfl h⟩, ⟨_, rfl⟩⟩
  · simp [State.reset, Session.reset]
  · simp [State.reset, Session.reset]
  · simp [State.reset, HostSide.reset]

/-- O53: an idle state with another latched word, and a reset to come. -/
theorem witness_IdleLatchUnseen :
    (SameButLatch State.reset { State.reset with cmdl := 0x0A } ∧ ∃ t, step State.reset = .next t) ∧
    (setTurns [.reset] State.reset).host.turns = [.reset] ∧ (setTurns [.reset] State.reset).host.late = [] :=
  ⟨⟨⟨rfl, fun h => absurd h (by decide)⟩, ⟨_, rfl⟩⟩, rfl, rfl⟩

/-- O54: an octet that a host write changes, and one that a raced write changes when the command ends. -/
theorem witness_OctetsKeptUnlessWritten :
    (∃ t, step { setTurns [.host (.bufWrite 1 9)] State.reset with buf := [] } = .next t ∧
      t.buf.read 1 ≠ Memory.read [] 1) ∧
    (∃ t, step { State.reset with cmdl := 0x0A, busy := true, buf := [], host := { HostSide.reset with late := [(1, 9)] } }
      = .next t ∧ t.buf.read 1 ≠ Memory.read [] 1) := by
  have h : 1 < bufSize Config.params := bufSize_ge_two
  refine ⟨⟨hostWriteBuf Config.params 1 9 { State.reset with buf := [] }, ?_, by decide⟩, ⟨_, rfl, by decide⟩⟩
  rw [step_host (x := .bufWrite 1 9) (ts := []) rfl]
  simp only [hostAct, bufAccess, if_pos h]
  rfl

end Sys2Proof.Tests
end

section
/-! Host register accesses by the machine's step, and what a step does to the fault record
(spec/10_state.md R21, R39; spec/70_reset_and_hazards.md R252, R254). -/

namespace Sys2Proof.Machine

open Sys2Proof.Safety

/-! ### Register accesses -/

/-- One aligned 64-bit access inside the window is let through (R65). -/
theorem regAccess_aligned {off : Nat} (hoff : off < 0x100) (hal : off % 8 = 0) (s : State) :
    regAccess off 8 s = .next s := by
  simp [regAccess, regAccessOK, hoff, hal]

theorem step_regWrite {s : State} {off : Nat} {v : Word} {ts : List Turn}
    (h : s.host.turns = .host (.regWrite off 8 v) :: ts) (hoff : off < 0x100) (hal : off % 8 = 0) :
    step s = .next (hostWriteReg off v (setTurns ts s)) :=
  (step_host h).trans (regAccess_aligned hoff hal _)

theorem step_regRead {s : State} {off : Nat} {ts : List Turn}
    (h : s.host.turns = .host (.regRead off 8) :: ts) (hoff : off < 0x100) (hal : off % 8 = 0) :
    step s = .next (hostReadReg Config.params off (setTurns ts s)) :=
  (step_host h).trans (regAccess_aligned hoff hal _)

theorem hostWriteReg_busy {off : Nat} {v : Word} {s : State} (h : s.busy = true) :
    hostWriteReg off v s = { s with ovr := true } := if_pos h

/-! ### The fault record -/

theorem mem_addFault {f g : ModelFault} {s : State} :
    g ∈ (addFault f s).faults ↔ g = f ∨ g ∈ s.faults := by
  rw [addFault_faults]
  split
  case isTrue hf => exact ⟨.inr, fun h => h.elim (fun e => e ▸ hf) id⟩
  case isFalse => exact List.mem_cons

@[simp] theorem writeReg_faults (r : Reg) (v : Word) (s : State) : (writeReg r v s).faults = s.faults := by
  cases r <;> rfl

@[simp] theorem hostWriteReg_faults (off : Nat) (v : Word) (s : State) :
    (hostWriteReg off v s).faults = s.faults := by
  unfold hostWriteReg
  split
  · rfl
  · split
    · exact writeReg_faults _ v s
    · rfl

@[simp] theorem hostReadReg_faults (p : Params) (off : Nat) (s : State) :
    (hostReadReg p off s).faults = s.faults := by
  unfold hostReadReg
  split <;> rfl

theorem hostWriteBuf_faults (p : Params) (a : Nat) (v : Byte) (s : State) :
    (hostWriteBuf p a v s).faults = if s.busy then (addFault .bufRace s).faults else s.faults := by
  unfold hostWriteBuf
  split <;> rfl

theorem hostReadBuf_faults (p : Params) (a : Nat) (s : State) :
    (hostReadBuf p a s).faults = if s.busy then (addFault .bufRace s).faults else s.faults := by
  unfold hostReadBuf
  split <;> rfl

/-- A BUF access while BUSY = 1 adds BUF_RACE (R68); every other host action keeps the fault record. -/
theorem hostAct_faults {p : Params} {x : HostAction} {s t : State} (h : hostAct p x s = .next t) :
    t.faults = if isBufAccess (.host x) = true ∧ s.busy = true then (addFault .bufRace s).faults else s.faults := by
  rcases hostAct_cases h with ⟨off, v, rfl, -, -, rfl⟩ | ⟨off, rfl, -, -, rfl⟩ | ⟨a, v, rfl, -, rfl⟩ | ⟨a, rfl, -, rfl⟩
  · simp [isBufAccess]
  · simp [isBufAccess]
  · simp only [hostWriteBuf_faults, isBufAccess, true_and]
  · simp only [hostReadBuf_faults, isBufAccess, true_and]

/-- The fault record after a step: as before, or with BUF_RACE added by a BUF access while BUSY = 1. -/
theorem step_faults {s t : State} (h : step s = .next t) :
    t.faults = s.faults ∨
      (t.faults = (addFault .bufRace s).faults ∧ s.busy = true ∧
        ∃ x ts, s.host.turns = x :: ts ∧ isBufAccess x = true) := by
  rcases step_cases h with ⟨-, ts, rfl⟩ | ⟨-, ts, rfl⟩ | ⟨x, ts, hx, ha⟩ | ⟨ts, rfl⟩ | ⟨ts, -, rfl⟩
  · exact .inl (latched_frame Config.params (setTurns ts s)).faults
  · exact .inl rfl
  · have hf := hostAct_faults ha
    split at hf
    case isTrue hr => exact .inr ⟨hf, hr.2, _, ts, hx, hr.1⟩
    case isFalse => exact .inl hf
  · exact .inl (hostReadReg_faults _ _ _)
  · exact .inl rfl

/-! ### The statements -/

/-- Settles O46: a raced BUF access adds the fault (`hostAct_faults`), and no step does anything else to the record
(`step_faults`). -/
theorem faultRecord : Obligations.FaultRecord := by
  refine ⟨fun s x ts t hx hbuf hbusy h => ?_, fun s t f h hf => ?_, fun s t f h hf hnew => ?_, rfl⟩
  · rw [step_host hx] at h
    rw [hostAct_faults h, if_pos ⟨hbuf, hbusy⟩]
    exact mem_addFault.2 (.inl rfl)
  · rcases step_faults h with hkeep | ⟨hadd, -⟩
    · exact hkeep ▸ hf
    · exact hadd ▸ mem_addFault.2 (.inr hf)
  · rcases step_faults h with hkeep | ⟨hadd, hrace⟩
    · exact absurd (hkeep ▸ hf) hnew
    · exact ⟨(mem_addFault.1 (hadd ▸ hf)).resolve_right hnew, hrace⟩

/-- Settles O39: the step is the host's register access at offset 0, in its two cases of BUSY. -/
theorem cmdWriteLaunches : Obligations.CmdWriteLaunches := by
  intro s ts
  refine ⟨fun v h hb => ?_, fun v h hb => ?_, fun h hb => ?_, rfl⟩
  · rw [step_regWrite h (by decide) rfl, hostWriteReg_idle (s := setTurns ts s) hb]
    rfl
  · rw [step_regWrite h (by decide) rfl, hostWriteReg_busy (s := setTurns ts s) hb]
    rfl
  · rw [step_regRead h (by decide) rfl, hostReadReg_idle (s := setTurns ts s) hb]
    rfl

/-- Settles O50: the reset turn answers `resetBlock`, whose fields are those of `State.reset` but for BUF, the fault record
and the host's side. -/
theorem resetSets : Obligations.ResetSets := by
  intro s ts h
  exact ⟨resetBlock (setTurns ts s), step_reset h, rfl, rfl, rfl, rfl, rfl, rfl, rfl, rfl⟩

end Sys2Proof.Machine
end

section
/-! Register accesses that are not one aligned 64-bit access (spec/20_memory.md R65). -/

namespace Sys2Proof.Machine

theorem regAccessOK_iff {off size : Nat} : regAccessOK off size = true ↔ size = 8 ∧ off % 8 = 0 := by
  simp [regAccessOK]

/-- Any other access inside the window is refused, whatever state it would have led to (R65). -/
theorem regAccess_refused {off size : Nat} (hoff : off < 0x100) (hbad : size ≠ 8 ∨ off % 8 ≠ 0) (s : State) :
    regAccess off size s = .refused .regNarrowAccess := by
  have hnot : ¬ regAccessOK off size = true := fun hok =>
    have ⟨hsize, hal⟩ := regAccessOK_iff.1 hok
    hbad.elim (· hsize) (· hal)
  rw [regAccess, if_pos hoff, if_neg hnot]

/-- Settles O48: a read and a write both go through `regAccess`, which refuses by offset and size alone
(`regAccess_refused`). -/
theorem narrowAccessRefused : Obligations.NarrowAccessRefused := by
  intro s off size v ts hoff hbad hturn
  rcases hturn with hread | hwrite
  · exact (step_host hread).trans (regAccess_refused hoff hbad _)
  · exact (step_host hwrite).trans (regAccess_refused hoff hbad _)

end Sys2Proof.Machine
end

section
/-! The outcomes of START, STEPI, STEPA, STEPG, STEPV and of the keystream commands by phase, and the order rules of a session
(spec/41_session.md R150, R152, R155, R159). -/

namespace Sys2Proof.Machine

open Sys2Proof.Safety

variable {p : Params} {s : State}

/-! ### START -/

theorem cmdStart_illegal (p : Params) (s : State) : cmdStart p .illegal s = finish .badInput s := rfl

theorem cmdStart_of_size {kl : KeyCode} {n : KeySize} (hn : kl.size? = some n) :
    cmdStart p kl s = finish .ok (setSes (startBody p n (s.regs.key n) s.regs.iv) s) := by
  simp only [cmdStart, hn]

/-! ### Refusals by phase, and the phase a command leaves -/

theorem cmdStepi_of_not_ad (h : s.ses.phase ≠ .ad) : cmdStepi p s = finish .badOrder s := if_pos h

/-- STEPI keeps the phase, whether it absorbs its range or is refused (R158, R162). -/
@[simp] theorem cmdStepi_phase : (cmdStepi p s).ses.phase = s.ses.phase := by
  simp only [cmdStepi]
  split
  · rfl
  · split
    · rfl
    · split
      · rfl
      · exact absorbAll_phase _ _ _

theorem cmdStepi_phase_of_ok (hok : (cmdStepi p s).err = .ok) : (cmdStepi p s).ses.phase = .ad := by
  rw [cmdStepi_phase]
  by_contra h
  simp [cmdStepi_of_not_ad h] at hok

theorem cmdStepa_of_closed (h : s.ses.phase ≠ .ad ∧ s.ses.phase ≠ .ct) : cmdStepa p s = finish .badOrder s := if_pos h

theorem cmdStepg_of_closed (h : s.ses.phase ≠ .ad ∧ s.ses.phase ≠ .ct) : cmdStepg p s = finish .badOrder s := if_pos h

theorem cmdStepv_of_closed (h : s.ses.phase ≠ .ad ∧ s.ses.phase ≠ .ct) : cmdStepv p s = finish .badOrder s := if_pos h

theorem cmdStepg_of_open (h : ¬ (s.ses.phase ≠ .ad ∧ s.ses.phase ≠ .ct)) :
    cmdStepg p s = finish .ok (setMacOut (val64 (tagOctets (finalize p s.ses).t)) (setSes (finalize p s.ses) s)) :=
  if_neg h

theorem cmdStepv_of_open (h : ¬ (s.ses.phase ≠ .ad ∧ s.ses.phase ≠ .ct)) :
    cmdStepv p s = finish (if tagMatches (tagOctets (finalize p s.ses).t) s.regs then .ok else .badMac)
      (setSes (finalize p s.ses) s) :=
  if_neg h

/-- A STEPG that is not refused finalizes (R180). -/
theorem cmdStepg_phase (herr : (cmdStepg p s).err ≠ .badOrder) : (cmdStepg p s).ses.phase = .final := by
  by_cases h : s.ses.phase ≠ .ad ∧ s.ses.phase ≠ .ct
  · exact absurd (congrArg State.err (cmdStepg_of_closed h)) herr
  · rw [cmdStepg_of_open h]
    exact finalize_phase _ _

/-- A STEPV that is not refused finalizes, whether the tag matches or not (R182). -/
theorem cmdStepv_phase (herr : (cmdStepv p s).err ≠ .badOrder) : (cmdStepv p s).ses.phase = .final := by
  by_cases h : s.ses.phase ≠ .ad ∧ s.ses.phase ≠ .ct
  · exact absurd (congrArg State.err (cmdStepv_of_closed h)) herr
  · rw [cmdStepv_of_open h]
    exact finalize_phase _ _

/-- STEPE and STEPD are refused for order in IDLE alone (R166). -/
theorem streamXor_err_ne_badOrder (h : s.ses.phase ≠ .idle) : (streamXor p s).err ≠ .badOrder := by
  simp only [streamXor, if_neg h]
  split <;> simp

/-! ### The statements -/

/-- Settles O12: in FINAL and CT a command is refused by its phase check alone; a finalizer that passes it ends in
`finalize` (`cmdStepg_phase`, `cmdStepv_phase`), and STEPI keeps the phase AD it requires (`cmdStepi_phase_of_ok`). -/
theorem orderingRule : Obligations.OrderingRule := by
  intro s
  refine ⟨fun hphase => ?_, fun hfinal => ?_, fun t h hok => ?_, fun i t hi h herr => ?_⟩
  · have hnot : s.ses.phase ≠ .ad := by rcases hphase with h | h <;> simp [h]
    exact exec_next_iff.2 (cmdStepi_of_not_ad hnot).symm
  · have hclosed : s.ses.phase ≠ .ad ∧ s.ses.phase ≠ .ct := by simp [hfinal]
    have hidle : s.ses.phase ≠ .idle := by simp [hfinal]
    refine ⟨exec_next_iff.2 (cmdStepa_of_closed hclosed).symm, exec_next_iff.2 (cmdStepg_of_closed hclosed).symm,
      exec_next_iff.2 (cmdStepv_of_closed hclosed).symm, fun i t hi h => ?_⟩
    rcases hi with rfl | rfl <;> exact exec_next_iff.1 h ▸ streamXor_err_ne_badOrder hidle
  · rw [exec_next_iff.1 h] at hok ⊢
    exact cmdStepi_phase_of_ok hok
  · rw [exec_next_iff.1 h] at herr ⊢
    rcases hi with rfl | rfl
    · exact cmdStepg_phase herr
    · exact cmdStepv_phase herr

/-- Settles O15: the session START sets is `startBody`, whose hash key is `hashKey` (`startBody_r`). -/
theorem startOpensSession : Obligations.StartOpensSession := by
  refine ⟨fun s => exec_next_iff.2 (cmdStart_illegal Config.params s).symm, fun kl n s hn => ?_⟩
  rw [← startBody_r]
  exact exec_next_iff.2 (cmdStart_of_size hn).symm

/-- Settles O19: ZEROIZE has no check, and its session is the reset session written out. -/
theorem zeroizeClears : Obligations.ZeroizeClears := by
  intro s
  exact exec_eq .zeroize s

end Sys2Proof.Machine
end

section
/-! The streaming commands with their operand checks (spec/42_stream.md R160 to R167): what STEPI, STEPA, STEPE and STEPD
answer when the checks pass and when they fail, the sessions they leave, and the empty commands. -/

namespace Sys2Proof.Machine

open Sys2Proof.Safety

variable {s : State}

/-! ### The payload and the phases -/

@[simp] theorem length_srcOctets (s : State) : (srcOctets s).length = s.regs.cnt1.toNat :=
  Memory.length_readRange _ _ _

theorem srcOctets_of_empty (hn : s.regs.cnt1.toNat = 0) : srcOctets s = [] :=
  List.length_eq_zero_iff.1 ((length_srcOctets s).trans hn)

theorem phase_of_phaseTable_stepi {ph : Phase} {n : Nat} (h : phaseTable .stepi ph n ≠ none) : ph = .ad := by
  cases ph <;> simp [phaseTable] at h ⊢

theorem phase_of_phaseTable_stepa {ph : Phase} {n : Nat} (h : phaseTable .stepa ph n ≠ none) :
    ph = .ad ∨ ph = .ct := by
  cases ph <;> simp [phaseTable] at h ⊢

theorem phase_of_phaseTable_stream {i : Instr} {ph : Phase} {n : Nat} (hi : i = .stepe ∨ i = .stepd)
    (h : phaseTable i ph n ≠ none) : ph ≠ .idle := by
  rintro rfl
  rcases hi with rfl | rfl <;> exact h rfl

/-! ### Absorbing a section -/

/-- `absorbAll_spec` with the number of full blocks counted from FILLED. -/
theorem absorbAll_blocks (p : Params) (xs : List Byte) (q : Session) :
    (absorbAll p xs q).t = foldBlocks p q.r ((q.filled.val + xs.length) / 16) q.t (residue q ++ xs) ∧
      residue (absorbAll p xs q) = (residue q ++ xs).drop (16 * ((q.filled.val + xs.length) / 16)) := by
  rw [← length_residue, ← List.length_append]
  exact absorbAll_spec p xs q

/-- The session STEPI leaves: the octets counted, then absorbed (R162). -/
def absorbAD (p : Params) (n : Nat) (xs : List Byte) (q : Session) : Session :=
  absorbAll p xs (setLad (addBits q.lad n) q)

@[simp] theorem absorbAD_zero (p : Params) (q : Session) : absorbAD p 0 [] q = q := by
  rw [absorbAD, addBits_zero]
  rfl

@[simp] theorem absorbAD_lad (p : Params) (n : Nat) (xs : List Byte) (q : Session) :
    (absorbAD p n xs q).lad = addBits q.lad n := (absorbAll_same p xs _).lad

theorem absorbAD_frame (p : Params) (n : Nat) (xs : List Byte) (q : Session) :
    absorbAD p n xs q = { q with
      lad := (absorbAD p n xs q).lad, t := (absorbAD p n xs q).t, blk := (absorbAD p n xs q).blk
      filled := (absorbAD p n xs q).filled } := by
  have h := absorbAll_same p xs (setLad (addBits q.lad n) q)
  exact Session.eq_of_fields (absorbAll_phase p xs _) h.sk h.c h.ks h.ksAvail h.r rfl rfl h.lct rfl rfl

@[simp] theorem absorbCT_zero (p : Params) (q : Session) : absorbCT p 0 [] q = q := by
  rw [absorbCT, addBits_zero]
  rfl

@[simp] theorem absorbCT_lct (p : Params) (n : Nat) (xs : List Byte) (q : Session) :
    (absorbCT p n xs q).lct = addBits q.lct n := (absorbAll_same p xs _).lct

theorem absorbCT_frame (p : Params) (n : Nat) (xs : List Byte) (q : Session) :
    absorbCT p n xs q = { q with
      phase := (absorbCT p n xs q).phase, lct := (absorbCT p n xs q).lct, t := (absorbCT p n xs q).t
      blk := (absorbCT p n xs q).blk, filled := (absorbCT p n xs q).filled } := by
  have hA := absorbAll_same p xs (setLct (addBits q.lct n) (enterCTIf p n q))
  have hE := enterCTIf_same p n q
  exact Session.eq_of_fields rfl (hA.sk.trans hE.sk) (hA.c.trans hE.c) (hA.ks.trans hE.ks)
    (hA.ksAvail.trans hE.ksAvail) (hA.r.trans hE.r) rfl (hA.lad.trans hE.lad) rfl rfl rfl

/-- A non-empty STEPA from AD: the padded residue is folded first, then the full blocks of the data (R164, R165). -/
theorem absorbCT_of_ad (p : Params) {n : Nat} (hn : n ≠ 0) (xs : List Byte) {q : Session} (h : q.phase = .ad) :
    (absorbCT p n xs q).phase = .ct ∧ (absorbCT p n xs q).filled.val = xs.length % 16 ∧
      (absorbCT p n xs q).t = foldBlocks p q.r (xs.length / 16) (sectionHash p q.r q.t (residue q)) xs ∧
      residue (absorbCT p n xs q) = xs.drop (16 * (xs.length / 16)) := by
  have hq : absorbCT p n xs q = absorbAll p xs (setLct (addBits q.lct n) (setPhase .ct (flush p q))) := by
    rw [absorbCT, enterCTIf_pos p hn, enterCT_of_ad p h]
  obtain ⟨ht, hres⟩ := absorbAll_blocks p xs (setLct (addBits q.lct n) (setPhase .ct (flush p q)))
  rw [hq]
  refine ⟨by simp, by simp [absorbAll_filled], ?_, ?_⟩
  · simpa [flush_t, (flush_same p q).r] using ht
  · simpa using hres

/-- STEPA in CT: the full blocks of residue and data are folded (R164). -/
theorem absorbCT_of_ct (p : Params) (n : Nat) (xs : List Byte) {q : Session} (h : q.phase = .ct) :
    (absorbCT p n xs q).phase = .ct ∧ (absorbCT p n xs q).filled.val = (q.filled.val + xs.length) % 16 ∧
      (absorbCT p n xs q).t
        = foldBlocks p q.r ((q.filled.val + xs.length) / 16) q.t (residue q ++ xs) ∧
      residue (absorbCT p n xs q) = (residue q ++ xs).drop (16 * ((q.filled.val + xs.length) / 16)) := by
  have hq : absorbCT p n xs q = absorbAll p xs (setLct (addBits q.lct n) q) := by
    rw [absorbCT, enterCTIf_of_not_ad p n (by simp [h])]
  rw [hq]
  exact ⟨(absorbAll_phase p xs _).trans h, absorbAll_filled p xs _, absorbAll_blocks p xs _⟩

/-! ### The operand checks of STEPI and STEPA -/

theorem operandChecks_valid {a n : Nat} {c : Word} {refused accepted : State}
    (hv : InSpace a n ∧ c.toNat + 8 * n ≤ 2 ^ 64 - 1) :
    (if rangeOK Config.params a n = false then refused else if lengthOK c n = false then refused else accepted)
      = accepted := by
  rw [rangeOK_iff.2 hv.1, lengthOK_iff.2 hv.2]
  rfl

theorem operandChecks_invalid {a n : Nat} {c : Word} {refused accepted : State}
    (hv : ¬ (InSpace a n ∧ c.toNat + 8 * n ≤ 2 ^ 64 - 1)) :
    (if rangeOK Config.params a n = false then refused else if lengthOK c n = false then refused else accepted)
      = refused := by
  by_cases hr : InSpace a n
  · have hl : lengthOK c n = false := lengthOK_false_iff.2 fun hl => hv ⟨hr, hl⟩
    rw [hl, if_pos rfl, ite_self]
  · exact if_pos (rangeOK_false_iff.2 hr)

/-- The result code of a command that is known to end in a refusal. -/
theorem err_of_exec_finish {i : Instr} {t : State} {e : ResultCode} (hx : exec i s = .next (finish e s))
    (h : exec i s = .next t) : t.err = e :=
  congrArg State.err (Host.Outcome.next.inj (h.symm.trans hx))

/-! ### STEPI -/

theorem exec_stepi_closed (h : s.ses.phase ≠ .ad) : exec .stepi s = .next (finish .badOrder s) :=
  exec_next_iff.2 (cmdStepi_of_not_ad h).symm

theorem exec_stepi_valid (h : s.ses.phase = .ad) (hv : OperandsValid .stepi s) :
    exec .stepi s
      = .next (finish .ok (setSes (absorbAD Config.params s.regs.cnt1.toNat (srcOctets s) s.ses) s)) :=
  exec_next_iff.2 ((if_neg (not_not_intro h)).trans (operandChecks_valid hv)).symm

theorem exec_stepi_invalid (h : s.ses.phase = .ad) (hv : ¬ OperandsValid .stepi s) :
    exec .stepi s = .next (finish .badInput s) :=
  exec_next_iff.2 ((if_neg (not_not_intro h)).trans (operandChecks_invalid hv)).symm

theorem exec_stepi_empty (h : s.ses.phase = .ad) (hn : s.regs.cnt1.toNat = 0) :
    exec .stepi s = .next (finish .ok s) := by
  have hv : OperandsValid .stepi s := ⟨.inl hn, by have := s.ses.lad.isLt; omega⟩
  rw [exec_stepi_valid h hv, hn, srcOctets_of_empty hn, absorbAD_zero]
  rfl

/-- A STEPI that ends OK has passed every check. -/
theorem exec_stepi_ok {t : State} (h : exec .stepi s = .next t) (hok : t.err = .ok) :
    s.ses.phase = .ad ∧ OperandsValid .stepi s := by
  have refused {e : ResultCode} (he : .ok ≠ e) (hx : exec .stepi s = .next (finish e s)) : False :=
    he (hok.symm.trans (err_of_exec_finish hx h))
  by_cases had : s.ses.phase = .ad
  · exact ⟨had, by_contra fun hv => refused (by decide) (exec_stepi_invalid had hv)⟩
  · exact (refused (by decide) (exec_stepi_closed had)).elim

/-! ### STEPA -/

theorem exec_stepa_closed (h : s.ses.phase ≠ .ad ∧ s.ses.phase ≠ .ct) :
    exec .stepa s = .next (finish .badOrder s) :=
  exec_next_iff.2 (cmdStepa_of_closed h).symm

theorem exec_stepa_valid (h : s.ses.phase = .ad ∨ s.ses.phase = .ct) (hv : OperandsValid .stepa s) :
    exec .stepa s
      = .next (finish .ok (setSes (absorbCT Config.params s.regs.cnt1.toNat (srcOctets s) s.ses) s)) :=
  exec_next_iff.2 ((if_neg (not_and_or.2 (h.imp not_not_intro not_not_intro))).trans (operandChecks_valid hv)).symm

theorem exec_stepa_invalid (h : s.ses.phase = .ad ∨ s.ses.phase = .ct) (hv : ¬ OperandsValid .stepa s) :
    exec .stepa s = .next (finish .badInput s) :=
  exec_next_iff.2 ((if_neg (not_and_or.2 (h.imp not_not_intro not_not_intro))).trans (operandChecks_invalid hv)).symm

theorem exec_stepa_empty (h : s.ses.phase = .ad ∨ s.ses.phase = .ct) (hn : s.regs.cnt1.toNat = 0) :
    exec .stepa s = .next (finish .ok s) := by
  have hv : OperandsValid .stepa s := ⟨.inl hn, by have := s.ses.lct.isLt; omega⟩
  rw [exec_stepa_valid h hv, hn, srcOctets_of_empty hn, absorbCT_zero]
  rfl

/-- A STEPA that ends OK has passed every check. -/
theorem exec_stepa_ok {t : State} (h : exec .stepa s = .next t) (hok : t.err = .ok) :
    (s.ses.phase = .ad ∨ s.ses.phase = .ct) ∧ OperandsValid .stepa s := by
  have refused {e : ResultCode} (he : .ok ≠ e) (hx : exec .stepa s = .next (finish e s)) : False :=
    he (hok.symm.trans (err_of_exec_finish hx h))
  by_cases hopen : s.ses.phase = .ad ∨ s.ses.phase = .ct
  · exact ⟨hopen, by_contra fun hv => refused (by decide) (exec_stepa_invalid hopen hv)⟩
  · exact (refused (by decide) (exec_stepa_closed (not_or.1 hopen))).elim

/-! ### STEPE and STEPD -/

theorem exec_stream {i : Instr} (hi : i = .stepe ∨ i = .stepd) (s : State) :
    exec i s = .next (streamXor Config.params s) := by
  rcases hi with rfl | rfl <;> rfl

theorem streamXor_of_idle {p : Params} (h : s.ses.phase = .idle) : streamXor p s = finish .badOrder s := if_pos h

/-- BUF and the session that the XOR loop of STEPE and STEPD leaves (R166). -/
def streamResult (p : Params) (s : State) : Memory × Session :=
  xorRange p s.regs.cnt1.toNat s.regs.src1.toNat s.buf (enterCTIf p s.regs.cnt1.toNat s.ses)

theorem streamXor_valid (h : s.ses.phase ≠ .idle) (hr : InSpace s.regs.src1.toNat s.regs.cnt1.toNat) :
    streamXor Config.params s
      = finish .ok (setBuf (streamResult Config.params s).1 (setSes (streamResult Config.params s).2 s)) := by
  simp only [streamXor, if_neg h, rangeOK_false_iff]
  exact if_neg (not_not_intro hr)

theorem streamXor_invalid (h : s.ses.phase ≠ .idle) (hr : ¬ InSpace s.regs.src1.toNat s.regs.cnt1.toNat) :
    streamXor Config.params s = finish .badInput s := by
  simp only [streamXor, if_neg h, rangeOK_false_iff]
  exact if_pos hr

theorem streamResult_empty (p : Params) (hn : s.regs.cnt1.toNat = 0) : streamResult p s = (s.buf, s.ses) := by
  rw [streamResult, hn]
  rfl

theorem streamXor_empty (h : s.ses.phase ≠ .idle) (hn : s.regs.cnt1.toNat = 0) :
    streamXor Config.params s = finish .ok s := by
  rw [streamXor_valid h (.inl hn), streamResult_empty _ hn]
  rfl

theorem streamResult_same (p : Params) (s : State) :
    SameButStream (enterCTIf p s.regs.cnt1.toNat s.ses) (streamResult p s).2 := xorRange_same p _ _ _ _

theorem streamResult_frame (p : Params) (s : State) :
    (streamResult p s).2 = { s.ses with
      phase := (streamResult p s).2.phase, c := (streamResult p s).2.c, ks := (streamResult p s).2.ks
      ksAvail := (streamResult p s).2.ksAvail, t := (streamResult p s).2.t, blk := (streamResult p s).2.blk
      filled := (streamResult p s).2.filled } := by
  have hX := streamResult_same p s
  have hE := enterCTIf_same p s.regs.cnt1.toNat s.ses
  exact Session.eq_of_fields rfl (hX.sk.trans hE.sk) rfl rfl rfl (hX.r.trans hE.r) rfl (hX.lad.trans hE.lad)
    (hX.lct.trans hE.lct) rfl rfl

theorem streamResult_inside (p : Params) (hm : s.buf.wf = true) {k : Nat} (hk : k < s.regs.cnt1.toNat) :
    (streamResult p s).1.read (s.regs.src1.toNat + k)
      = s.buf.read (s.regs.src1.toNat + k) ^^^ keystreamAhead p s.ses k := by
  rw [streamResult, xorRange_inside p _ _ hm _ hk, (enterCTIf_same p _ _).keystream p]

theorem streamResult_outside (p : Params) (hm : s.buf.wf = true) {a : Nat}
    (ha : a < s.regs.src1.toNat ∨ s.regs.src1.toNat + s.regs.cnt1.toNat ≤ a) :
    (streamResult p s).1.read a = s.buf.read a := xorRange_outside p _ _ hm _ ha

theorem streamResult_keystream (p : Params) (s : State) (k : Nat) :
    keystreamAhead p (streamResult p s).2 k = keystreamAhead p s.ses (s.regs.cnt1.toNat + k) := by
  rw [streamResult, xorRange_keystream, (enterCTIf_same p _ _).keystream p]

theorem streamResult_position (p : Params) (s : State) :
    (streamResult p s).2.c
        = s.ses.c + BitVec.ofNat 128 ((s.regs.cnt1.toNat - s.ses.ksAvail.val + 15) / 16) ∧
      (streamResult p s).2.ksAvail.val = (s.ses.ksAvail.val + 15 * s.regs.cnt1.toNat) % 16 := by
  have hE := enterCTIf_same p s.regs.cnt1.toNat s.ses
  rw [← hE.c, ← hE.ksAvail]
  exact xorRange_position p _ _ _ _

/-- From AD a non-empty command pads and folds the residue and enters CT (R165). -/
theorem streamResult_of_ad (p : Params) (hn : s.regs.cnt1.toNat ≠ 0) (h : s.ses.phase = .ad) :
    (streamResult p s).2.phase = .ct ∧ (streamResult p s).2.filled = 0 ∧
      (streamResult p s).2.t = sectionHash p s.ses.r s.ses.t (residue s.ses) := by
  have hX := streamResult_same p s
  rw [enterCTIf_pos p hn, enterCT_of_ad p h] at hX
  exact ⟨hX.phase, hX.filled.trans (flush_filled p _), hX.t.trans (flush_t p _)⟩

/-- Outside AD the hash and the phase are kept. -/
theorem streamResult_of_not_ad (p : Params) (h : s.ses.phase ≠ .ad) :
    (streamResult p s).2.phase = s.ses.phase ∧ (streamResult p s).2.filled = s.ses.filled ∧
      (streamResult p s).2.blk = s.ses.blk ∧ (streamResult p s).2.t = s.ses.t := by
  have hX := streamResult_same p s
  rw [enterCTIf_of_not_ad p _ h] at hX
  exact ⟨hX.phase, hX.filled, hX.blk, hX.t⟩

/-! ### The ranges of WRAP and UNWRAP -/

theorem exec_envelope_invalid {i : Instr} {kl : KeyCode} (hi : i = .wrap kl ∨ i = .unwrap kl)
    (hv : ¬ EnvelopeValid kl s.regs) : exec i s = .next (finish .badInput s) := by
  have h : envelopeOK Config.params kl s.regs = false := Bool.eq_false_iff.2 fun hok => hv (envelopeOK_iff.1 hok)
  rcases hi with rfl | rfl
  · exact exec_next_iff.2 (cmdWrap_of_invalid h).symm
  · exact exec_next_iff.2 (cmdUnwrap_of_invalid h).symm

theorem envelope_err_of_valid {i : Instr} {kl : KeyCode} (hi : i = .wrap kl ∨ i = .unwrap kl)
    (hv : EnvelopeValid kl s.regs) : (command Config.params i s).err ≠ .badInput := by
  have h := envelopeOK_iff.2 hv
  obtain ⟨n, hn⟩ := size?_isSome hv.1
  rcases hi with rfl | rfl
  · rw [command, cmdWrap_of_valid hn h, finish_err]
    decide
  · rw [command, cmdUnwrap_of_valid hn h]
    split <;> simp

theorem envelopeValid_of_empty {kl : KeyCode} {g : Regs} (hkl : kl ≠ .illegal) (h1 : g.cnt1.toNat = 0)
    (h2 : g.cnt2.toNat = 0) : EnvelopeValid kl g :=
  ⟨hkl, .inl h1, .inl h2, .inl h1, by omega, by omega, .inr (.inl h1)⟩

/-! ### The statements -/

/-- Settles O13: an invalid range fails `OperandsValid` or `EnvelopeValid`, an empty one leaves the session and BUF of
each command as they were. -/
theorem rangeRule : Obligations.RangeRule := by
  refine ⟨fun i s hi hph hr => ?_, fun i kl s hi hr => ?_, fun i s hi hn hph => ?_,
    fun i kl s hi hkl h1 h2 => ?_⟩
  · rcases hi with rfl | rfl | hi
    · exact exec_stepi_invalid (phase_of_phaseTable_stepi hph) fun hv => hr hv.1
    · exact exec_stepa_invalid (phase_of_phaseTable_stepa hph) fun hv => hr hv.1
    · rw [exec_stream hi, streamXor_invalid (phase_of_phaseTable_stream hi hph) hr]
      rfl
  · exact exec_envelope_invalid hi fun ⟨_, hsrc1, hsrc2, hdest, _⟩ => hr ⟨hsrc1, hsrc2, hdest⟩
  · rcases hi with rfl | rfl | hi
    · exact exec_stepi_empty (phase_of_phaseTable_stepi hph) hn
    · exact exec_stepa_empty (phase_of_phaseTable_stepa hph) hn
    · rw [exec_stream hi, streamXor_empty (phase_of_phaseTable_stream hi hph) hn]
      rfl
  · exact ⟨_, exec_eq i s, envelope_err_of_valid hi (envelopeValid_of_empty hkl h1 h2)⟩

/-- Settles O14: a command that ends OK passed the length check (`exec_stepi_ok`, `exec_stepa_ok`), so its counter is the
exact sum (`addBits_toNat`); a multiple of 8 below `2^64` is at most `2^64 - 8`. -/
theorem lengthRule : Obligations.LengthRule := by
  refine ⟨fun s had hlen => ?_, fun s hopen hlen => ?_, fun s t h hok => ?_, fun s t h hok => ?_⟩
  · exact exec_stepi_invalid had fun hv => absurd hv.2 (by omega)
  · exact exec_stepa_invalid hopen fun hv => absurd hv.2 (by omega)
  · obtain ⟨had, hv⟩ := exec_stepi_ok h hok
    have hsum := addBits_toNat (lengthOK_iff.2 hv.2)
    obtain rfl := Host.Outcome.next.inj ((exec_stepi_valid had hv).symm.trans h)
    rw [finish_ses, setSes_ses, absorbAD_lad, hsum]
    have hfit := hv.2
    exact ⟨rfl, fun _ => by omega⟩
  · obtain ⟨hopen, hv⟩ := exec_stepa_ok h hok
    have hsum := addBits_toNat (lengthOK_iff.2 hv.2)
    obtain rfl := Host.Outcome.next.inj ((exec_stepa_valid hopen hv).symm.trans h)
    rw [finish_ses, setSes_ses, absorbCT_lct, hsum]
    have hfit := hv.2
    exact ⟨rfl, fun _ => by omega⟩

/-- Settles O21: the session STEPI leaves is `absorbAD`, whose hash is that of `absorbAll_blocks`. -/
theorem stepiAbsorbs : Obligations.StepiAbsorbs := by
  intro s
  refine ⟨exec_stepi_closed, exec_stepi_invalid, fun had hr hlen => ?_⟩
  have hblocks := absorbAll_blocks Config.params (srcOctets s) (setLad (addBits s.ses.lad s.regs.cnt1.toNat) s.ses)
  have hfilled := absorbAll_filled Config.params (srcOctets s) (setLad (addBits s.ses.lad s.regs.cnt1.toNat) s.ses)
  rw [length_srcOctets] at hblocks hfilled
  refine ⟨_, exec_stepi_valid had ⟨hr, hlen⟩, ?_, ?_, hfilled, hblocks.1, hblocks.2, fun hn => ?_⟩
  · exact congrArg (fun q => finish .ok (setSes q s)) (absorbAD_frame ..)
  · rw [finish_ses, setSes_ses, absorbAD_lad]
    exact addBits_toNat (lengthOK_iff.2 hlen)
  · exact Host.Outcome.next.inj ((exec_stepi_valid had ⟨hr, hlen⟩).symm.trans (exec_stepi_empty had hn))

/-- Settles O22: the session STEPA leaves is `absorbCT`, from AD with the residue flushed first (`absorbCT_of_ad`), in CT
without (`absorbCT_of_ct`). -/
theorem stepaAbsorbs : Obligations.StepaAbsorbs := by
  intro s
  refine ⟨fun had hct => exec_stepa_closed ⟨had, hct⟩, exec_stepa_invalid, fun hopen hr hlen => ?_⟩
  have hct := absorbCT_of_ct Config.params s.regs.cnt1.toNat (srcOctets s) (q := s.ses)
  have had (hn : s.regs.cnt1.toNat ≠ 0) := absorbCT_of_ad Config.params hn (srcOctets s) (q := s.ses)
  rw [length_srcOctets] at hct had
  refine ⟨_, exec_stepa_valid hopen ⟨hr, hlen⟩, ?_, ?_, fun hn => ?_, fun hn => ?_,
    fun hn hph => (had hn hph).2, fun _ hph => (hct hph).2⟩
  · exact congrArg (fun q => finish .ok (setSes q s)) (absorbCT_frame ..)
  · rw [finish_ses, setSes_ses, absorbCT_lct]
    exact addBits_toNat (lengthOK_iff.2 hlen)
  · exact Host.Outcome.next.inj ((exec_stepa_valid hopen ⟨hr, hlen⟩).symm.trans (exec_stepa_empty hopen hn))
  · exact hopen.elim (fun hph => (had hn hph).1) fun hph => (hct hph).1

/-- Settles O23: both commands are `streamXor`, and the BUF and session it leaves are `streamResult`, read octet by octet
and field by field. -/
theorem stepeStepdXor : Obligations.StepeStepdXor := by
  intro i s hi
  rw [exec_stream hi]
  refine ⟨fun hidle => congrArg _ (streamXor_of_idle hidle), fun hopen hr => congrArg _ (streamXor_invalid hopen hr),
    fun hopen hr hm => ⟨_, rfl, ?_⟩⟩
  have hempty := streamXor_empty hopen
  rw [streamXor_valid hopen hr] at hempty ⊢
  obtain ⟨hc, hleft⟩ := streamResult_position Config.params s
  exact ⟨congrArg (fun q => finish .ok (setBuf (streamResult Config.params s).1 (setSes q s))) (streamResult_frame _ s),
    fun _ hk => streamResult_inside _ hm hk, fun _ ha => streamResult_outside _ hm ha, streamResult_keystream _ s,
    hc, hleft, hempty, streamResult_of_ad _, streamResult_of_not_ad _⟩

end Sys2Proof.Machine
end

section
/-! STEPG and STEPV (spec/43_finalize.md R180 to R183): the session both leave, their results, what STEPV and UNWRAP keep of
the registers, and the hash fields in FINAL. -/

namespace Sys2Proof.Machine

open Sys2Proof.Safety

variable {p : Params} {s : State}

/-! ### The finalizers -/

theorem finalize_frame (p : Params) (q : Session) :
    finalize p q = { q with phase := .final, t := (finalize p q).t, blk := (finalize p q).blk, filled := 0 } := by
  have h := finalize_same p q
  exact Session.eq_of_fields rfl h.sk h.c h.ks h.ksAvail h.r rfl h.lad h.lct rfl (finalize_filled p q)

theorem exec_stepg_closed (h : s.ses.phase ≠ .ad ∧ s.ses.phase ≠ .ct) :
    exec .stepg s = .next (finish .badOrder s) :=
  exec_next_iff.2 (cmdStepg_of_closed h).symm

theorem exec_stepv_closed (h : s.ses.phase ≠ .ad ∧ s.ses.phase ≠ .ct) :
    exec .stepv s = .next (finish .badOrder s) :=
  exec_next_iff.2 (cmdStepv_of_closed h).symm

theorem exec_stepg_open (h : s.ses.phase = .ad ∨ s.ses.phase = .ct) :
    exec .stepg s = .next (finish .ok (setMacOut ((finalize Config.params s.ses).t.extractLsb' 0 64)
      (setSes (finalize Config.params s.ses) s))) := by
  rw [← val64_tagOctets]
  exact exec_next_iff.2 (cmdStepg_of_open (not_and_or.2 (h.imp not_not_intro not_not_intro))).symm

/-- The result code of STEPV: the tag of the finalized session against MAC_IN (R136, R182). -/
def stepvResult (p : Params) (s : State) : ResultCode :=
  if tagMatches (tagOctets (finalize p s.ses).t) s.regs then .ok else .badMac

theorem stepvResult_of_eq (h : (finalize p s.ses).t.extractLsb' 0 64 = s.regs.macIn) : stepvResult p s = .ok :=
  if_pos ((tagMatches_iff _ _).2 h)

theorem stepvResult_of_ne (h : (finalize p s.ses).t.extractLsb' 0 64 ≠ s.regs.macIn) : stepvResult p s = .badMac :=
  if_neg fun hmatch => h ((tagMatches_iff _ _).1 hmatch)

theorem exec_stepv_open (h : s.ses.phase = .ad ∨ s.ses.phase = .ct) :
    exec .stepv s
      = .next (finish (stepvResult Config.params s) (setSes (finalize Config.params s.ses) s)) :=
  exec_next_iff.2 (cmdStepv_of_open (not_and_or.2 (h.imp not_not_intro not_not_intro))).symm

/-! ### The key, the counter and the keystream -/

/-- STEPG and STEPV leave the same session: the finalized one, or the session as it was where they are refused. -/
theorem finalizer_ses {i : Instr} (hi : i = .stepg ∨ i = .stepv) (p : Params) (s : State) :
    (command p i s).ses = if s.ses.phase ≠ .ad ∧ s.ses.phase ≠ .ct then s.ses else finalize p s.ses := by
  rcases hi with rfl | rfl <;> exact apply_ite State.ses _ _ _

theorem finalizer_same {i : Instr} (hi : i = .stepg ∨ i = .stepv) (p : Params) (s : State) :
    SameButHash s.ses (command p i s).ses := by
  rw [finalizer_ses hi]
  split
  · exact .rfl' s.ses
  · exact finalize_same p s.ses

/-! ### The hash fields in FINAL -/

/-- Outside AD the keystream commands write keystream fields only: there is no residue to flush on the way to CT. -/
theorem streamXor_same_of_not_ad (h : s.ses.phase ≠ .ad) :
    SameButStream s.ses (streamXor Config.params s).ses := by
  by_cases hidle : s.ses.phase = .idle
  · rw [streamXor_of_idle hidle]
    exact .rfl' s.ses
  · by_cases hr : InSpace s.regs.src1.toNat s.regs.cnt1.toNat
    · have hX := streamResult_same Config.params s
      rw [enterCTIf_of_not_ad _ _ h] at hX
      rw [streamXor_valid hidle hr]
      exact hX
    · rw [streamXor_invalid hidle hr]
      exact .rfl' s.ses

/-- In FINAL the hashing and finalizing commands are refused and the keystream commands keep the hash fields; what is left
opens a session or ends one (R158, R181). -/
theorem command_same_of_final (i : Instr) (h : s.ses.phase = .final) :
    SameButStream s.ses (command Config.params i s).ses ∨
      ∃ kl, i = .start kl ∨ i = .wrap kl ∨ i = .unwrap kl ∨ i = .zeroize := by
  have hnot : s.ses.phase ≠ .ad := by simp [h]
  have hclosed : s.ses.phase ≠ .ad ∧ s.ses.phase ≠ .ct := by simp [h]
  cases i with
  | start kl => exact .inr ⟨kl, .inl rfl⟩
  | wrap kl => exact .inr ⟨kl, .inr (.inl rfl)⟩
  | unwrap kl => exact .inr ⟨kl, .inr (.inr (.inl rfl))⟩
  | zeroize => exact .inr ⟨.illegal, .inr (.inr (.inr rfl))⟩
  | stepi => rw [command, cmdStepi_of_not_ad hnot]; exact .inl (.rfl' s.ses)
  | stepa => rw [command, cmdStepa_of_closed hclosed]; exact .inl (.rfl' s.ses)
  | stepg => rw [command, cmdStepg_of_closed hclosed]; exact .inl (.rfl' s.ses)
  | stepv => rw [command, cmdStepv_of_closed hclosed]; exact .inl (.rfl' s.ses)
  | stepe => exact .inl (streamXor_same_of_not_ad hnot)
  | stepd => exact .inl (streamXor_same_of_not_ad hnot)

/-! ### The registers -/

@[simp] theorem cmdStepv_regs (p : Params) (s : State) : (cmdStepv p s).regs = s.regs := by
  by_cases h : s.ses.phase ≠ .ad ∧ s.ses.phase ≠ .ct
  · rw [cmdStepv_of_closed h, finish_regs]
  · rw [cmdStepv_of_open h, finish_regs, setSes_regs]

@[simp] theorem cmdUnwrap_regs (p : Params) (kl : KeyCode) (s : State) : (cmdUnwrap p kl s).regs = s.regs := by
  rcases envelope_cases p kl s.regs with h | ⟨n, hn, h⟩
  · rw [cmdUnwrap_of_invalid h, finish_regs]
  · rw [cmdUnwrap_of_valid hn h]
    split
    · rw [finish_regs, wipe_regs, setBuf_regs]
    · rw [finish_regs, wipe_regs]

/-! ### The statements -/

/-- Settles O25: the session STEPG leaves is `finalize`, field by field (`finalize_frame`) and with its block in closed
form (`finalize_t`). -/
theorem stepgEmitsTag : Obligations.StepgEmitsTag := by
  intro s
  refine ⟨fun had hct => exec_stepg_closed ⟨had, hct⟩,
    fun hopen => ⟨_, exec_stepg_open hopen, ?_, finalize_t Config.params s.ses⟩⟩
  exact congrArg (fun q => finish .ok (setMacOut ((finalize Config.params s.ses).t.extractLsb' 0 64) (setSes q s)))
    (finalize_frame ..)

/-- Settles O26: the session is that of STEPG, and comparing the tag octets is comparing the low half of the block with
MAC_IN (`stepvResult_of_eq`, `stepvResult_of_ne`). -/
theorem stepvChecksTag : Obligations.StepvChecksTag := by
  intro s
  refine ⟨fun had hct => exec_stepv_closed ⟨had, hct⟩, fun hopen =>
    ⟨_, exec_stepv_open hopen, ?_, finalize_t Config.params s.ses, stepvResult_of_eq, stepvResult_of_ne⟩⟩
  exact congrArg (fun q => finish (stepvResult Config.params s) (setSes q s)) (finalize_frame ..)

/-- Settles O27: a finalizer keeps all but the hash fields (`finalizer_same`), and in FINAL a command keeps
all but the keystream fields unless it opens or ends a session (`command_same_of_final`). -/
theorem finality : Obligations.Finality := by
  refine ⟨fun i s t hi h herr => ?_, fun i s t hfinal h => ?_⟩
  · obtain rfl := exec_next_iff.1 h
    have hphase : (command Config.params i s).ses.phase = .final := by
      rcases hi with rfl | rfl
      · exact cmdStepg_phase herr
      · exact cmdStepv_phase herr
    have hsame := finalizer_same hi Config.params s
    exact ⟨hphase, hsame.sk, hsame.c, hsame.ks, hsame.ksAvail⟩
  · obtain rfl := exec_next_iff.1 h
    refine (command_same_of_final i hfinal).imp_left fun hsame => ?_
    exact ⟨hsame.phase.trans hfinal, hsame.t, hsame.lad, hsame.lct, hsame.blk, hsame.filled⟩

/-- Settles O28: neither command writes any register (`cmdStepv_regs`, `cmdUnwrap_regs`). -/
theorem noTagDisclosure : Obligations.NoTagDisclosure := by
  intro i kl s t hi h
  obtain rfl := exec_next_iff.1 h
  rcases hi with rfl | rfl
  · exact congrArg Regs.macOut (cmdStepv_regs _ s)
  · exact congrArg Regs.macOut (cmdUnwrap_regs _ kl s)

end Sys2Proof.Machine
end

section
/-! WRAP and UNWRAP (spec/44_envelope.md R190 to R195): what each answers to operands that pass EnvelopeOK, with the tag in
closed form. What they answer to operands that fail it is `exec_envelope_invalid`. -/

namespace Sys2Proof.Machine

open Sys2Proof.Safety

variable {kl : KeyCode} {n : KeySize} {s : State}

/-! ### The checks that the closed forms need -/

theorem lengthOK_cnt1_of_valid (hv : EnvelopeValid kl s.regs) : lengthOK 0 s.regs.cnt1.toNat = true := by
  obtain ⟨-, -, -, -, hlen, -, -⟩ := hv
  simpa [lengthOK_iff] using hlen

theorem lengthOK_cnt2_of_valid (hv : EnvelopeValid kl s.regs) : lengthOK 0 s.regs.cnt2.toNat = true := by
  obtain ⟨-, -, -, -, -, hlen, -⟩ := hv
  simpa [lengthOK_iff] using hlen

theorem aliasOK_of_valid (hv : EnvelopeValid kl s.regs) :
    aliasOK s.regs.src1.toNat s.regs.cnt1.toNat s.regs.dest.toNat = true := by
  obtain ⟨-, -, -, -, -, -, halias⟩ := hv
  exact aliasOK_iff.2 halias

/-! ### WRAP -/

/-- WRAP on valid operands: the tag it writes is that of the ciphertext it leaves at DEST (R191). -/
theorem exec_wrap_valid (hn : kl.size? = some n) (hv : EnvelopeValid kl s.regs) :
    exec (.wrap kl) s = .next (finish .ok (wipe (setMacOut (envelopeTag Config.params n s
      ((wrapEncrypt Config.params n s).1.readRange s.regs.dest.toNat s.regs.cnt1.toNat))
      (setBuf (wrapEncrypt Config.params n s).1 s)))) := by
  rw [← wrapFinal_tag _ _ _ (lengthOK_cnt1_of_valid hv) (lengthOK_cnt2_of_valid hv), ← val64_tagOctets]
  exact exec_next_iff.2 (cmdWrap_of_valid hn (envelopeOK_iff.2 hv)).symm

/-! ### UNWRAP -/

/-- UNWRAP's comparison is that of the closed-form tag with MAC_IN (R193). -/
theorem tagMatches_unwrapFinal (hv : EnvelopeValid kl s.regs) :
    tagMatches (tagOctets (unwrapFinal Config.params n s).t) s.regs = true
      ↔ envelopeTag Config.params n s (srcOctets s) = s.regs.macIn := by
  rw [tagMatches_iff, unwrapFinal_tag _ _ _ (lengthOK_cnt1_of_valid hv) (lengthOK_cnt2_of_valid hv)]

theorem exec_unwrap_of_tag_eq (hn : kl.size? = some n) (hv : EnvelopeValid kl s.regs)
    (htag : envelopeTag Config.params n s (srcOctets s) = s.regs.macIn) :
    exec (.unwrap kl) s = .next (finish .ok (wipe (setBuf (unwrapDecrypt Config.params n s) s))) :=
  exec_next_iff.2 ((cmdUnwrap_of_valid hn (envelopeOK_iff.2 hv)).trans
    (if_pos ((tagMatches_unwrapFinal hv).2 htag))).symm

theorem exec_unwrap_of_tag_ne (hn : kl.size? = some n) (hv : EnvelopeValid kl s.regs)
    (htag : envelopeTag Config.params n s (srcOctets s) ≠ s.regs.macIn) :
    exec (.unwrap kl) s = .next (finish .badMac (wipe s)) :=
  exec_next_iff.2 ((cmdUnwrap_of_valid hn (envelopeOK_iff.2 hv)).trans
    (if_neg fun hmatch => htag ((tagMatches_unwrapFinal hv).1 hmatch))).symm

/-- UNWRAP keeps BUF, or it ends OK after the tag matched (R194). -/
theorem exec_unwrap_buf_cases {t : State} (h : exec (.unwrap kl) s = .next t) :
    t.buf = s.buf ∨
      t.err = .ok ∧ ∃ n, kl.size? = some n ∧ envelopeTag Config.params n s (srcOctets s) = s.regs.macIn := by
  by_cases hv : EnvelopeValid kl s.regs
  · obtain ⟨n, hn⟩ := size?_isSome hv.1
    by_cases htag : envelopeTag Config.params n s (srcOctets s) = s.regs.macIn
    · obtain rfl := Host.Outcome.next.inj ((exec_unwrap_of_tag_eq hn hv htag).symm.trans h)
      exact .inr ⟨rfl, n, hn, htag⟩
    · obtain rfl := Host.Outcome.next.inj ((exec_unwrap_of_tag_ne hn hv htag).symm.trans h)
      exact .inl rfl
  · obtain rfl := Host.Outcome.next.inj ((exec_envelope_invalid (.inr rfl) hv).symm.trans h)
    exact .inl rfl

/-! ### The session afterwards -/

/-- Valid operands end in Wipe, on OK and on BAD_MAC alike (R195). -/
theorem envelope_ses_of_valid {i : Instr} (hi : i = .wrap kl ∨ i = .unwrap kl) (hv : EnvelopeValid kl s.regs) :
    (command Config.params i s).ses = Session.reset := by
  have h := envelopeOK_iff.2 hv
  obtain ⟨n, hn⟩ := size?_isSome hv.1
  rcases hi with rfl | rfl
  · rw [command, cmdWrap_of_valid hn h, finish_ses, wipe_ses]
  · rw [command, cmdUnwrap_of_valid hn h]
    split <;> rw [finish_ses, wipe_ses]

/-! ### The statements -/

/-- Settles O29: the checks written out are `EnvelopeValid`, which decides between `exec_envelope_invalid` and
`envelope_err_of_valid`. -/
theorem envelopeOperandCheck : Obligations.EnvelopeOperandCheck := by
  intro i kl s hi
  exact ⟨exec_envelope_invalid hi, fun hv => ⟨_, exec_eq i s, envelope_err_of_valid hi hv⟩⟩

/-- Settles O30: WRAP answers the state of `exec_wrap_valid`, whose BUF is read octet by octet inside DEST
(`wrapEncrypt_inside`) and outside it (`wrapEncrypt_outside`). -/
theorem wrapSeals : Obligations.WrapSeals := by
  intro kl s
  refine ⟨exec_envelope_invalid (.inl rfl), fun n hn hv hm => ⟨_, exec_wrap_valid hn hv, rfl, rfl, fun k hk => ?_,
    fun a ha => ?_⟩⟩
  · exact wrapEncrypt_inside _ n s hm (aliasOK_of_valid hv) hk
  · exact wrapEncrypt_outside _ n s hm ha

/-- Settles O31: the closed-form tag decides between `exec_unwrap_of_tag_ne` and `exec_unwrap_of_tag_eq`, whose BUF is read
octet by octet (`unwrapDecrypt_inside`, `unwrapDecrypt_outside`). -/
theorem unwrapOpens : Obligations.UnwrapOpens := by
  intro kl s
  refine ⟨exec_envelope_invalid (.inr rfl), fun n hn hv htag => exec_unwrap_of_tag_ne hn hv htag,
    fun n hn hv htag hm => ⟨_, exec_unwrap_of_tag_eq hn hv htag, rfl, fun k hk => ?_, fun a ha => ?_⟩⟩
  · exact unwrapDecrypt_inside _ n s hm (aliasOK_of_valid hv) hk
  · exact unwrapDecrypt_outside _ n s hm ha

/-- Settles O32: UNWRAP writes BUF only on the path that ends OK, behind the comparison (`exec_unwrap_buf_cases`). -/
theorem plaintextGate : Obligations.PlaintextGate := by
  intro kl s t h
  rcases exec_unwrap_buf_cases h with hkeep | ⟨hok, hmatch⟩
  · exact ⟨fun _ => hkeep, fun hne => absurd hkeep hne⟩
  · exact ⟨fun hne => absurd hok hne, fun _ => hmatch⟩

/-- Settles O33: valid operands end in Wipe (`envelope_ses_of_valid`), invalid ones are refused before START. -/
theorem envelopeEndsSession : Obligations.EnvelopeEndsSession := by
  intro i kl s t hi h
  refine ⟨fun hv => ?_, fun hv => ?_⟩
  · rw [exec_next_iff.1 h]
    exact envelope_ses_of_valid hi hv
  · obtain rfl := Host.Outcome.next.inj ((exec_envelope_invalid hi hv).symm.trans h)
    exact finish_ses s .badInput

end Sys2Proof.Machine
end

section
/-! Which words do not decode, by their bits (spec/30_encoding.md R93 to R95). -/

namespace Sys2Proof

theorem opField_toNat (v : Word) : (opField v).toNat = v.toNat % 16 := by simp [opField]

theorem klField_toNat (v : Word) : (klField v).toNat = v.toNat / 16 % 4 := by
  simp [klField, Nat.shiftRight_eq_div_pow]

/-- A word below 64 has no bit of RES set. -/
theorem toNat_lt_of_resField_eq_zero {v : Word} (h : resField v = 0) : v.toNat < 64 := by
  have hres : v.toNat / 64 % 2 ^ 58 = 0 := by
    simpa [resField, Nat.shiftRight_eq_div_pow] using congrArg BitVec.toNat h
  have := v.isLt
  omega

/-- An OP outside the operation map (R94). -/
theorem decodeOp_of_reserved {op : BitVec 4} (kl : BitVec 2) (h : op.toNat = 0 ∨ 0xB ≤ op.toNat) :
    decodeOp op kl = .error .reservedOp := by
  unfold decodeOp
  split
  -- Branch 11 is the default, after the ten entries of the map.
  case h_11 => rfl
  all_goals omega

/-- A KL that is not 0 under an OP that has no key length: not allowed, or the OP is none (R95). -/
theorem decodeOp_of_keyCode {op : BitVec 4} {kl : BitVec 2} (hop : op.toNat ≠ 1 ∧ op.toNat ≠ 8 ∧ op.toNat ≠ 9)
    (hkl : kl ≠ 0) : ∃ e, decodeOp op kl = .error e := by
  have refused (i : Instr) : ∃ e, withoutKeyCode kl i = .error e := ⟨_, if_neg hkl⟩
  obtain ⟨hstart, hwrap, hunwrap⟩ := hop
  unfold decodeOp
  split
  -- Branches 1, 8 and 9 are the entries with a key length, branch 11 is the default.
  case h_1 h => exact absurd h hstart
  case h_8 h => exact absurd h hwrap
  case h_9 h => exact absurd h hunwrap
  case h_11 => exact ⟨_, rfl⟩
  all_goals exact refused _

/-- A malformed word does not decode: a RES bit, a reserved OP, or a key length where there is none. -/
theorem decode_error_of_malformed {v : Word}
    (h : 64 ≤ v.toNat ∨ v.toNat % 16 = 0 ∨ 0xB ≤ v.toNat % 16 ∨
      (v.toNat % 16 ≠ 1 ∧ v.toNat % 16 ≠ 8 ∧ v.toNat % 16 ≠ 9 ∧ v.toNat / 16 % 4 ≠ 0)) :
    ∃ e, decode v = .error e := by
  by_cases hres : resField v = 0
  · rw [decode_of_res hres]
    rw [← opField_toNat, ← klField_toNat] at h
    rcases h with h | h | h | ⟨hstart, hwrap, hunwrap, hkl⟩
    · exact absurd (toNat_lt_of_resField_eq_zero hres) (Nat.not_lt.2 h)
    · exact ⟨_, decodeOp_of_reserved _ (.inl h)⟩
    · exact ⟨_, decodeOp_of_reserved _ (.inr h)⟩
    · exact decodeOp_of_keyCode ⟨hstart, hwrap, hunwrap⟩ fun h0 => hkl (congrArg BitVec.toNat h0)
  · exact ⟨_, decode_of_res_ne hres⟩

end Sys2Proof
end

section
/-! Result codes (spec/60_exceptions.md R211, R212, R214): every command is refused with no effect for its phase or for its
operands, or it runs and ends in BAD_MAC or OK. -/

namespace Sys2Proof.Machine

open Sys2Proof.Safety

variable {i : Instr} {s : State}

/-! ### A word that does not decode -/

theorem runLatched_of_error {e : DecodeError} (h : decode s.cmdl = .error e) :
    runLatched exec s = .next (finish .badCmd s) := by
  rw [runLatched_exec, latched_of_error h]

/-- With no raced write pending, the core's step is the command the latched word stands for (R250). -/
theorem step_core_of_no_late {ts : List Turn} (h : CoreMoves s ts) (hb : s.busy = true) (hl : s.host.late = []) :
    step s = .next (latched Config.params (setTurns ts s)) := by
  have hlate : (latched Config.params (setTurns ts s)).host.late = [] :=
    (congrArg HostSide.late (latched_frame Config.params (setTurns ts s)).host).trans hl
  rw [step_core h hb, landLate_of_nil hlate]

/-! ### BAD_ORDER -/

theorem phase_of_order_stepi {ph : Phase} {n : Nat} (h : phaseTable .stepi ph n = none) : ph ≠ .ad := by
  rintro rfl
  cases h

theorem phase_of_order_hash {ph : Phase} {n : Nat} (hi : i = .stepa ∨ i = .stepg ∨ i = .stepv)
    (h : phaseTable i ph n = none) : ph ≠ .ad ∧ ph ≠ .ct := by
  cases ph with
  | idle | final => decide
  | ad | ct => rcases hi with rfl | rfl | rfl <;> cases h

theorem phase_of_order_stream {ph : Phase} {n : Nat} (hi : i = .stepe ∨ i = .stepd)
    (h : phaseTable i ph n = none) : ph = .idle := by
  cases ph with
  | idle => rfl
  | _ => rcases hi with rfl | rfl <;> cases h

/-- A command with an ORDER entry in the phase table is refused for it, whatever else is wrong (R214). -/
theorem exec_of_order (h : phaseTable i s.ses.phase s.regs.cnt1.toNat = none) :
    exec i s = .next (finish .badOrder s) := by
  have stream (hi : i = .stepe ∨ i = .stepd) : exec i s = .next (finish .badOrder s) := by
    rw [exec_stream hi, streamXor_of_idle (phase_of_order_stream hi h)]
  cases i with
  | stepi => exact exec_stepi_closed (phase_of_order_stepi h)
  | stepa => exact exec_stepa_closed (phase_of_order_hash (.inl rfl) h)
  | stepg => exact exec_stepg_closed (phase_of_order_hash (.inr (.inl rfl)) h)
  | stepv => exact exec_stepv_closed (phase_of_order_hash (.inr (.inr rfl)) h)
  | stepe => exact stream (.inl rfl)
  | stepd => exact stream (.inr rfl)
  | start kl | wrap kl | unwrap kl | zeroize => cases h

/-! ### BAD_INPUT -/

/-- A command that its phase permits is refused for an operand check that fails (R214). -/
theorem exec_of_invalid (hph : phaseTable i s.ses.phase s.regs.cnt1.toNat ≠ none) (hv : ¬ OperandsValid i s) :
    exec i s = .next (finish .badInput s) := by
  have stream (hi : i = .stepe ∨ i = .stepd) (hr : ¬ InSpace s.regs.src1.toNat s.regs.cnt1.toNat) :
      exec i s = .next (finish .badInput s) := by
    rw [exec_stream hi, streamXor_invalid (phase_of_phaseTable_stream hi hph) hr]
  cases i with
  | start kl =>
    obtain rfl : kl = .illegal := not_not.1 hv
    exact exec_next_iff.2 (cmdStart_illegal Config.params s).symm
  | stepi => exact exec_stepi_invalid (phase_of_phaseTable_stepi hph) hv
  | stepa => exact exec_stepa_invalid (phase_of_phaseTable_stepa hph) hv
  | stepe => exact stream (.inl rfl) hv
  | stepd => exact stream (.inr rfl) hv
  | wrap kl => exact exec_envelope_invalid (.inl rfl) hv
  | unwrap kl => exact exec_envelope_invalid (.inr rfl) hv
  | stepg | stepv | zeroize => exact absurd trivial hv

/-! ### BAD_MAC and OK -/

theorem phase_of_phaseTable_finalizer {ph : Phase} {n : Nat} (hi : i = .stepg ∨ i = .stepv)
    (h : phaseTable i ph n ≠ none) : ph = .ad ∨ ph = .ct := by
  cases ph with
  | ad => exact .inl rfl
  | ct => exact .inr rfl
  | idle | final => rcases hi with rfl | rfl <;> exact absurd rfl h

/-- The tag STEPV compares is the closed form of R133. -/
theorem finalize_sessionTag (p : Params) (q : Session) : (finalize p q).t.extractLsb' 0 64 = sessionTag p q :=
  congrArg (·.extractLsb' 0 64) (finalize_t p q)

/-- Past the phase and the operands, a tag that differs from MAC_IN is the result (R214). -/
theorem exec_of_tag_ne (hph : phaseTable i s.ses.phase s.regs.cnt1.toNat ≠ none) (hv : OperandsValid i s)
    (htag : ¬ TagEqual i s) : ∃ u, exec i s = .next (finish .badMac u) := by
  cases i with
  | stepv =>
    rw [exec_stepv_open (phase_of_phaseTable_finalizer (.inr rfl) hph),
      stepvResult_of_ne (finalize_sessionTag Config.params s.ses ▸ htag)]
    exact ⟨_, rfl⟩
  | unwrap kl =>
    simp only [TagEqual, not_forall] at htag
    obtain ⟨n, hn, hne⟩ := htag
    exact ⟨_, exec_unwrap_of_tag_ne hn hv hne⟩
  | start kl | stepi | stepe | stepd | stepa | stepg | wrap kl | zeroize => exact absurd trivial htag

/-- A command that passes every check ends OK (R214). -/
theorem exec_of_checks (hph : phaseTable i s.ses.phase s.regs.cnt1.toNat ≠ none) (hv : OperandsValid i s)
    (htag : TagEqual i s) : ∃ u, exec i s = .next (finish .ok u) := by
  have stream (hi : i = .stepe ∨ i = .stepd) (hr : InSpace s.regs.src1.toNat s.regs.cnt1.toNat) :
      ∃ u, exec i s = .next (finish .ok u) := by
    rw [exec_stream hi, streamXor_valid (phase_of_phaseTable_stream hi hph) hr]
    exact ⟨_, rfl⟩
  cases i with
  | start kl =>
    obtain ⟨n, hn⟩ := size?_isSome hv
    exact ⟨_, exec_next_iff.2 (cmdStart_of_size hn).symm⟩
  | stepi => exact ⟨_, exec_stepi_valid (phase_of_phaseTable_stepi hph) hv⟩
  | stepa => exact ⟨_, exec_stepa_valid (phase_of_phaseTable_stepa hph) hv⟩
  | stepe => exact stream (.inl rfl) hv
  | stepd => exact stream (.inr rfl) hv
  | stepg => exact ⟨_, exec_stepg_open (phase_of_phaseTable_finalizer (.inl rfl) hph)⟩
  | stepv =>
    rw [exec_stepv_open (phase_of_phaseTable_finalizer (.inr rfl) hph),
      stepvResult_of_eq ((finalize_sessionTag Config.params s.ses).trans htag)]
    exact ⟨_, rfl⟩
  | wrap kl =>
    obtain ⟨n, hn⟩ := size?_isSome hv.1
    exact ⟨_, exec_wrap_valid hn hv⟩
  | unwrap kl =>
    obtain ⟨n, hn⟩ := size?_isSome hv.1
    exact ⟨_, exec_unwrap_of_tag_eq hn hv (htag n hn)⟩
  | zeroize => exact ⟨_, exec_eq .zeroize s⟩

/-! ### Refusals -/

/-- A command is refused as a whole, or it runs to BAD_MAC or OK. -/
theorem exec_refused_or_ran (i : Instr) (s : State) :
    (∃ e, exec i s = .next (finish e s)) ∨ ∃ e u, (e = .badMac ∨ e = .ok) ∧ exec i s = .next (finish e u) := by
  by_cases hph : phaseTable i s.ses.phase s.regs.cnt1.toNat = none
  · exact .inl ⟨_, exec_of_order hph⟩
  · by_cases hv : OperandsValid i s
    · by_cases htag : TagEqual i s
      · obtain ⟨u, hu⟩ := exec_of_checks hph hv htag
        exact .inr ⟨_, u, .inr rfl, hu⟩
      · obtain ⟨u, hu⟩ := exec_of_tag_ne hph hv htag
        exact .inr ⟨_, u, .inl rfl, hu⟩
    · exact .inl ⟨_, exec_of_invalid hph hv⟩

/-- BAD_INPUT, BAD_ORDER and BAD_CMD mark a command that changed nothing but ERR and BUSY (R212). -/
theorem eq_finish_of_refusal {t : State} (h : exec i s = .next t)
    (herr : t.err = .badInput ∨ t.err = .badOrder ∨ t.err = .badCmd) : t = finish t.err s := by
  rcases exec_refused_or_ran i s with ⟨e, he⟩ | ⟨e, u, hran, he⟩
  · obtain rfl := Host.Outcome.next.inj (he.symm.trans h)
    rfl
  · obtain rfl := Host.Outcome.next.inj (he.symm.trans h)
    rw [finish_err] at herr
    rcases hran with rfl | rfl <;> simp at herr

/-! ### The statements -/

/-- Settles O5: a malformed word does not decode (`decode_error_of_malformed`), and the core's step on it is
`finish .badCmd`. -/
theorem badCmdChangesNothing : Obligations.BadCmdChangesNothing := by
  intro s ts hcore hbusy hlate hword
  obtain ⟨e, he⟩ := decode_error_of_malformed hword
  rw [step_core_of_no_late hcore hbusy hlate, latched_of_error (s := setTurns ts s) he]
  rfl

/-- Settles O9: a refusal is a bare `finish` (`eq_finish_of_refusal`, `runLatched_of_error`), while STEPV has finalized and
UNWRAP has wiped the session when the tag is found to differ. -/
theorem refusalHasNoEffect : Obligations.RefusalHasNoEffect := by
  refine ⟨fun i s t h herr => eq_finish_of_refusal h herr, fun e s he => runLatched_of_error he, fun s t h hmac => ?_,
    fun kl s t h hmac => ?_⟩
  · obtain rfl := exec_next_iff.1 h
    exact cmdStepv_phase (ne_of_eq_of_ne hmac (by decide))
  · have hv : EnvelopeValid kl s.regs := by
      by_contra hv
      have hinput := err_of_exec_finish (exec_envelope_invalid (.inr rfl) hv) h
      exact absurd (hmac.symm.trans hinput) (by decide)
    rw [exec_next_iff.1 h]
    exact envelope_ses_of_valid (.inr rfl) hv

/-- Settles O10: one outcome for each check that is the first to fail (`runLatched_of_error`, `exec_of_order`,
`exec_of_invalid`, `exec_of_tag_ne`), and one for none (`exec_of_checks`). -/
theorem checkOrder : Obligations.CheckOrder := by
  refine ⟨fun s e he => ⟨_, runLatched_of_error he, rfl⟩, fun s i hi => ⟨_, runLatched_exec s, ?_⟩⟩
  rw [latched_of_ok hi]
  have code {e : ResultCode} {u : State} (h : exec i s = .next (finish e u)) :
      (command Config.params i s).err = e :=
    congrArg State.err (exec_next_iff.1 h).symm
  refine ⟨fun hph => code (exec_of_order hph), fun hph hv => code (exec_of_invalid hph hv),
    fun hph hv htag => ?_, fun hph hv htag => ?_⟩
  · obtain ⟨u, hu⟩ := exec_of_tag_ne hph hv htag
    exact code hu
  · obtain ⟨u, hu⟩ := exec_of_checks hph hv htag
    exact code hu

end Sys2Proof.Machine
end

section
/-! Register writes and OVR (spec/70_reset_and_hazards.md R252): a register write while BUSY = 1 sets OVR and is ignored, only
an accepted CMD write or a reset clears OVR, and the operand registers are kept while a command stays pending. -/

namespace Sys2Proof.Machine

/-- The CMD register is at offset 0 and at no other (R20). -/
theorem eq_zero_of_regAt_cmd {off : Nat} (h : regAt off = some .cmd) : off = 0x00 := by
  unfold regAt at h
  split at h
  · rfl
  all_goals cases h

/-- A write to any register but CMD keeps OVR. -/
theorem writeReg_ovr {r : Reg} (h : r ≠ .cmd) (v : Word) (s : State) : (writeReg r v s).ovr = s.ovr := by
  cases r with
  | cmd => exact absurd rfl h
  | _ => rfl

/-- A register write that clears OVR finds BUSY = 0, goes to CMD, and launches a command (R21). -/
theorem hostWriteReg_ovr_cleared {off : Nat} {v : Word} {s : State} (hs : s.ovr = true)
    (ht : (hostWriteReg off v s).ovr = false) :
    off = 0x00 ∧ s.busy = false ∧ (hostWriteReg off v s).busy = true := by
  cases hb : s.busy with
  | true =>
    rw [hostWriteReg_busy hb] at ht
    cases ht
  | false =>
    have not_kept {u : State} (hu : u.ovr = false) : u.ovr ≠ s.ovr := by simp [hu, hs]
    rw [hostWriteReg_idle hb] at ht ⊢
    split at ht
    case h_1 r hr =>
      obtain rfl : r = .cmd := by_contra fun hne => not_kept ht (writeReg_ovr hne v s)
      obtain rfl := eq_zero_of_regAt_cmd hr
      exact ⟨rfl, rfl, rfl⟩
    case h_2 => exact absurd rfl (not_kept ht)

/-- A register read keeps the operand registers and OVR (R69, R253). -/
theorem hostReadReg_regs_ovr (p : Params) (off : Nat) (s : State) :
    (hostReadReg p off s).regs = s.regs ∧ (hostReadReg p off s).ovr = s.ovr := by
  unfold hostReadReg
  split <;> exact ⟨rfl, rfl⟩

/-- A host action is a register write, or it keeps the operand registers and OVR. -/
theorem hostAct_regWrite_or_kept {p : Params} {x : HostAction} {s t : State} (h : hostAct p x s = .next t) :
    (∃ off v, x = .regWrite off 8 v ∧ t = hostWriteReg off v s) ∨ (t.regs = s.regs ∧ t.ovr = s.ovr) := by
  rcases hostAct_cases h with ⟨off, v, hx, -, -, ht⟩ | ⟨off, -, -, -, rfl⟩ | ⟨a, v, -, -, rfl⟩ | ⟨a, -, -, rfl⟩
  · exact .inl ⟨off, v, hx, ht⟩
  · exact .inr (hostReadReg_regs_ovr p off s)
  · unfold hostWriteBuf
    split <;> exact .inr ⟨rfl, rfl⟩
  · unfold hostReadBuf
    split <;> exact .inr ⟨rfl, rfl⟩

/-- What can happen to OVR in a step that clears it (R252). -/
theorem step_ovr_cleared {s t : State} (h : step s = .next t) (hs : s.ovr = true) (ht : t.ovr = false) :
    (∃ v ts, s.host.turns = .host (.regWrite 0x00 8 v) :: ts ∧ s.busy = false ∧ t.busy = true) ∨
      ∃ ts, s.host.turns = .reset :: ts := by
  have kept (hk : t.ovr = s.ovr) : False := absurd (hs.symm.trans (hk.symm.trans ht)) (by decide)
  rcases step_cases h with ⟨-, ts, rfl⟩ | ⟨-, ts, rfl⟩ | ⟨x, ts, hx, ha⟩ | ⟨ts, rfl⟩ | ⟨ts, hx, -⟩
  · exact (kept (latched_frame Config.params (setTurns ts s)).ovr).elim
  · exact (kept rfl).elim
  · rcases hostAct_regWrite_or_kept ha with ⟨off, v, rfl, rfl⟩ | ⟨-, hovr⟩
    · obtain ⟨rfl, hidle, hlaunched⟩ := hostWriteReg_ovr_cleared (s := setTurns ts s) hs ht
      exact .inl ⟨v, ts, hx, hidle, hlaunched⟩
    · exact (kept hovr).elim
  · exact (kept (hostReadReg_regs_ovr Config.params Reg.status.offset (setTurns ts s)).2).elim
  · exact .inr ⟨ts, hx⟩

/-- A command ends with BUSY = 0 and so does a reset; every other step from BUSY = 1 keeps the operand registers. -/
theorem step_regs_of_pending {s t : State} (h : step s = .next t) (hs : s.busy = true) (ht : t.busy = true) :
    t.regs = s.regs := by
  rcases step_cases h with ⟨-, ts, rfl⟩ | ⟨-, ts, rfl⟩ | ⟨x, ts, -, ha⟩ | ⟨ts, rfl⟩ | ⟨ts, -, rfl⟩
  · have hended := (latched_frame Config.params (setTurns ts s)).busy
    exact absurd (hended.symm.trans ht) (by decide)
  · rfl
  · rcases hostAct_regWrite_or_kept ha with ⟨off, v, -, rfl⟩ | ⟨hregs, -⟩
    · rw [hostWriteReg_busy (s := setTurns ts s) hs]
      rfl
    · exact hregs
  · exact (hostReadReg_regs_ovr Config.params Reg.status.offset (setTurns ts s)).1
  · cases ht

/-- Settles O44: an aligned write goes to `hostWriteReg`, which with BUSY = 1 only sets OVR (`hostWriteReg_busy`); the other
two clauses are `step_ovr_cleared` and `step_regs_of_pending`. -/
theorem writesWhileBusyIgnored : Obligations.WritesWhileBusyIgnored := by
  refine ⟨fun s off v ts h hoff hal hb => ?_, fun _ _ => step_ovr_cleared, fun _ _ => step_regs_of_pending⟩
  rw [step_regWrite h hoff hal, hostWriteReg_busy (s := setTurns ts s) hb]
  rfl

end Sys2Proof.Machine
end

section
/-! The decoder inverts the encoder on every word and every command, and it rejects exactly the words whose bits are
malformed (spec/30_encoding.md R90 to R97). -/

namespace Sys2Proof

/-- An operation without a key length decodes under KL = 0 alone (R95). -/
theorem withoutKeyCode_eq_ok_iff {kl : BitVec 2} {i j : Instr} : withoutKeyCode kl i = .ok j ↔ kl = 0 ∧ i = j := by
  unfold withoutKeyCode
  split <;> simp_all

/-- The operation map answers a command only to that command's own two fields (R91). -/
theorem fields_of_decodeOp {op : BitVec 4} {kl : BitVec 2} {i : Instr} (h : decodeOp op kl = .ok i) :
    op = i.op ∧ kl = i.kl := by
  have keyed {kl : BitVec 2} : kl = (keyCodeOf kl).field := (field_keyCodeOf kl).symm
  unfold decodeOp at h
  split at h
  -- Branches 1, 8 and 9 are the entries with a key length, branch 11 is the default.
  case h_1 hop | h_8 hop | h_9 hop =>
    obtain rfl := Except.ok.inj h
    exact ⟨BitVec.eq_of_toNat_eq hop, keyed⟩
  case h_11 => cases h
  all_goals
    rename_i hop
    obtain ⟨rfl, rfl⟩ := withoutKeyCode_eq_ok_iff.1 h
    exact ⟨BitVec.eq_of_toNat_eq hop, rfl⟩

/-- The operation map takes a command's fields back to it. -/
theorem decodeOp_fields (i : Instr) : decodeOp i.op i.kl = .ok i := by
  cases i with
  | start kl => exact congrArg (Except.ok ∘ Instr.start) (keyCodeOf_field kl)
  | wrap kl => exact congrArg (Except.ok ∘ Instr.wrap) (keyCodeOf_field kl)
  | unwrap kl => exact congrArg (Except.ok ∘ Instr.unwrap) (keyCodeOf_field kl)
  | stepi | stepe | stepd | stepa | stepg | stepv | zeroize => rfl

theorem decode_encode (i : Instr) : decode (encode i) = .ok i := by
  obtain ⟨hres, hkl, hop⟩ := encode_fields i
  rw [decode_of_res hres, hkl, hop, decodeOp_fields]

theorem eq_encode_of_decode {v : Word} {i : Instr} (h : decode v = .ok i) : v = encode i := by
  obtain ⟨hres, hkl, hop⟩ := encode_fields i
  by_cases hv : resField v = 0
  · rw [decode_of_res hv] at h
    obtain ⟨vop, vkl⟩ := fields_of_decodeOp h
    exact word_eq_of_fields (hv.trans hres.symm) (vkl.trans hkl.symm) (vop.trans hop.symm)
  · rw [decode_of_res_ne hv] at h
    cases h

/-- Settles O1: a command's word has its fields and decodes by them (`decode_encode`), and a word that decodes has the three
fields of that command's word, which are all of it (`eq_encode_of_decode`). -/
theorem decodeInvertsEncode : Obligations.DecodeInvertsEncode := by
  intro v i
  exact ⟨eq_encode_of_decode, fun h => h ▸ decode_encode i⟩

/-- What the operation map rejects: a reserved OP, or a key length where there is none. -/
theorem fields_of_decodeOp_error {op : BitVec 4} {kl : BitVec 2} {e : DecodeError} (h : decodeOp op kl = .error e) :
    op.toNat = 0 ∨ 0xB ≤ op.toNat ∨ (op.toNat ≠ 1 ∧ op.toNat ≠ 8 ∧ op.toNat ≠ 9 ∧ kl.toNat ≠ 0) := by
  have no_key {i : Instr} (hi : withoutKeyCode kl i = .error e) : kl.toNat ≠ 0 := fun h0 => by
    rw [withoutKeyCode, if_pos (BitVec.eq_of_toNat_eq h0)] at hi
    cases hi
  unfold decodeOp at h
  split at h
  case h_1 | h_8 | h_9 => cases h
  case h_11 =>
    simp only [imp_false] at *
    omega
  all_goals
    have := no_key h
    omega

/-- A word with a RES bit set is 64 or more. -/
theorem le_toNat_of_resField_ne_zero {v : Word} (h : resField v ≠ 0) : 64 ≤ v.toNat := by
  by_contra hlt
  refine h (BitVec.eq_of_toNat_eq ?_)
  simp only [resField, BitVec.extractLsb'_toNat, Nat.shiftRight_eq_div_pow]
  rw [Nat.div_eq_of_lt (by omega)]
  rfl

/-- Settles O2: `decode_error_of_malformed`, and a rejected word has a RES bit or fields that the operation map rejects
(`fields_of_decodeOp_error`). -/
theorem malformedWords : Obligations.MalformedWords := by
  refine fun v => ⟨fun ⟨e, he⟩ => ?_, decode_error_of_malformed⟩
  by_cases hv : resField v = 0
  · rw [decode_of_res hv] at he
    rw [← opField_toNat, ← klField_toNat]
    exact .inr (fields_of_decodeOp_error he)
  · exact .inl (le_toNat_of_resField_ne_zero hv)

/-- Settles O3: each word of the table is the encoding of its command, so it decodes to it (`decode_encode`). -/
theorem specWordsDecode : Obligations.SpecWordsDecode :=
  ⟨decode_encode (.start .k16), decode_encode (.start .k24), decode_encode (.start .k32),
    decode_encode (.start .illegal), decode_encode .stepi, decode_encode .stepe, decode_encode .stepd,
    decode_encode .stepa, decode_encode .stepg, decode_encode .stepv, decode_encode (.wrap .k16),
    decode_encode (.wrap .k24), decode_encode (.wrap .k32), decode_encode (.wrap .illegal),
    decode_encode (.unwrap .k16), decode_encode (.unwrap .k24), decode_encode (.unwrap .k32),
    decode_encode (.unwrap .illegal), decode_encode .zeroize⟩

end Sys2Proof
end

section
/-! Every way a command runs that is not refused (`Ran`), and the invariant `Sound` (spec/10_state.md R40): it holds after
reset, every command keeps the session's part of it and BUF inside the buffer space, and every step keeps the whole. -/

namespace Sys2Proof.Machine

open Sys2Proof.Safety

variable {i : Instr} {s t : State} {q : Session}

/-! ### What a command that is not refused leaves -/

/-- `Ran i s t`: command `i` passed its checks on `s` and left `t`; one constructor for each way a command runs. -/
inductive Ran : Instr → State → State → Prop where
  | start {kl : KeyCode} {n : KeySize} {s : State} (hn : kl.size? = some n) :
      Ran (.start kl) s (finish .ok (setSes (startBody Config.params n (s.regs.key n) s.regs.iv) s))
  | stepi {s : State} (had : s.ses.phase = .ad) (hv : OperandsValid .stepi s) :
      Ran .stepi s (finish .ok (setSes (absorbAD Config.params s.regs.cnt1.toNat (srcOctets s) s.ses) s))
  | stepa {s : State} (hopen : s.ses.phase = .ad ∨ s.ses.phase = .ct) (hv : OperandsValid .stepa s) :
      Ran .stepa s (finish .ok (setSes (absorbCT Config.params s.regs.cnt1.toNat (srcOctets s) s.ses) s))
  | stream {i : Instr} {s : State} (hi : i = .stepe ∨ i = .stepd) (hph : s.ses.phase ≠ .idle)
      (hr : InSpace s.regs.src1.toNat s.regs.cnt1.toNat) :
      Ran i s (finish .ok (setBuf (streamResult Config.params s).1 (setSes (streamResult Config.params s).2 s)))
  | stepg {s : State} (hopen : s.ses.phase = .ad ∨ s.ses.phase = .ct) :
      Ran .stepg s (finish .ok (setMacOut ((finalize Config.params s.ses).t.extractLsb' 0 64)
        (setSes (finalize Config.params s.ses) s)))
  | stepv {s : State} (hopen : s.ses.phase = .ad ∨ s.ses.phase = .ct) :
      Ran .stepv s (finish (stepvResult Config.params s) (setSes (finalize Config.params s.ses) s))
  | wrap {kl : KeyCode} {n : KeySize} {s : State} (hn : kl.size? = some n) (hv : EnvelopeValid kl s.regs) :
      Ran (.wrap kl) s (finish .ok (wipe (setMacOut (envelopeTag Config.params n s
        ((wrapEncrypt Config.params n s).1.readRange s.regs.dest.toNat s.regs.cnt1.toNat))
        (setBuf (wrapEncrypt Config.params n s).1 s))))
  | unwrapOk {kl : KeyCode} {n : KeySize} {s : State} (hn : kl.size? = some n) (hv : EnvelopeValid kl s.regs) :
      Ran (.unwrap kl) s (finish .ok (wipe (setBuf (unwrapDecrypt Config.params n s) s)))
  | unwrapBadMac {kl : KeyCode} {s : State} (hv : EnvelopeValid kl s.regs) :
      Ran (.unwrap kl) s (finish .badMac (wipe s))
  | zeroize {s : State} : Ran .zeroize s (cmdZeroize s)

/-- A command that its phase and its operands permit runs. -/
theorem ran_of_checks (hph : phaseTable i s.ses.phase s.regs.cnt1.toNat ≠ none) (hv : OperandsValid i s) :
    ∃ t, exec i s = .next t ∧ Ran i s t := by
  have stream (hi : i = .stepe ∨ i = .stepd) (hr : InSpace s.regs.src1.toNat s.regs.cnt1.toNat) :
      ∃ t, exec i s = .next t ∧ Ran i s t := by
    have hopen := phase_of_phaseTable_stream hi hph
    exact ⟨_, (exec_stream hi s).trans (congrArg _ (streamXor_valid hopen hr)), .stream hi hopen hr⟩
  cases i with
  | start kl =>
    obtain ⟨n, hn⟩ := size?_isSome hv
    exact ⟨_, exec_next_iff.2 (cmdStart_of_size hn).symm, .start hn⟩
  | stepi =>
    have had := phase_of_phaseTable_stepi hph
    exact ⟨_, exec_stepi_valid had hv, .stepi had hv⟩
  | stepa =>
    have hopen := phase_of_phaseTable_stepa hph
    exact ⟨_, exec_stepa_valid hopen hv, .stepa hopen hv⟩
  | stepe => exact stream (.inl rfl) hv
  | stepd => exact stream (.inr rfl) hv
  | stepg =>
    have hopen := phase_of_phaseTable_finalizer (.inl rfl) hph
    exact ⟨_, exec_stepg_open hopen, .stepg hopen⟩
  | stepv =>
    have hopen := phase_of_phaseTable_finalizer (.inr rfl) hph
    exact ⟨_, exec_stepv_open hopen, .stepv hopen⟩
  | wrap kl =>
    obtain ⟨n, hn⟩ := size?_isSome hv.1
    exact ⟨_, exec_wrap_valid hn hv, .wrap hn hv⟩
  | unwrap kl =>
    obtain ⟨n, hn⟩ := size?_isSome hv.1
    by_cases htag : envelopeTag Config.params n s (srcOctets s) = s.regs.macIn
    · exact ⟨_, exec_unwrap_of_tag_eq hn hv htag, .unwrapOk hn hv⟩
    · exact ⟨_, exec_unwrap_of_tag_ne hn hv htag, .unwrapBadMac hv⟩
  | zeroize => exact ⟨_, exec_eq .zeroize s, .zeroize⟩

/-- Every command is refused for its phase or for its operands, or it runs. -/
theorem exec_cases (h : exec i s = .next t) :
    (phaseTable i s.ses.phase s.regs.cnt1.toNat = none ∧ t = finish .badOrder s) ∨
      (phaseTable i s.ses.phase s.regs.cnt1.toNat ≠ none ∧ t = finish .badInput s) ∨ Ran i s t := by
  have answer {u : State} (hu : exec i s = .next u) : t = u := Host.Outcome.next.inj (h.symm.trans hu)
  by_cases hph : phaseTable i s.ses.phase s.regs.cnt1.toNat = none
  · exact .inl ⟨hph, answer (exec_of_order hph)⟩
  · by_cases hv : OperandsValid i s
    · obtain ⟨u, hu, hran⟩ := ran_of_checks hph hv
      exact .inr (.inr (answer hu ▸ hran))
    · exact .inr (.inl ⟨hph, answer (exec_of_invalid hph hv)⟩)

/-! ### Sound sessions -/

theorem sessionSound_reset : SessionSound Session.reset where
  idle := fun _ => rfl
  ad := fun h => by cases h
  final := fun h => by cases h
  ladOctets := rfl
  lctOctets := rfl

theorem sessionSound_of_ad (h : q.phase = .ad) (hlct : q.lct = 0) (hks : q.ksAvail = 0) (hlad : q.lad.toNat % 8 = 0) :
    SessionSound q where
  idle := fun h' => by simp [h] at h'
  ad := fun _ => ⟨hlct, hks⟩
  final := fun h' => by simp [h] at h'
  ladOctets := hlad
  lctOctets := by rw [hlct]; rfl

theorem sessionSound_of_ct (h : q.phase = .ct) (hlad : q.lad.toNat % 8 = 0) (hlct : q.lct.toNat % 8 = 0) :
    SessionSound q where
  idle := fun h' => by simp [h] at h'
  ad := fun h' => by simp [h] at h'
  final := fun h' => by simp [h] at h'
  ladOctets := hlad
  lctOctets := hlct

theorem sessionSound_of_final (h : q.phase = .final) (hfilled : q.filled = 0) (hlad : q.lad.toNat % 8 = 0)
    (hlct : q.lct.toNat % 8 = 0) : SessionSound q where
  idle := fun h' => by simp [h] at h'
  ad := fun h' => by simp [h] at h'
  final := fun _ => hfilled
  ladOctets := hlad
  lctOctets := hlct

/-- A counter of whole octets still counts whole octets after `n` more. -/
theorem addBits_octets {c : Word} {n : Nat} (hc : c.toNat % 8 = 0) (hfit : c.toNat + 8 * n ≤ 2 ^ 64 - 1) :
    (addBits c n).toNat % 8 = 0 := by
  rw [addBits_toNat (lengthOK_iff.2 hfit)]
  omega

/-! ### Every command keeps the session sound -/

theorem sessionSound_startBody (p : Params) (n : KeySize) (key : Octets n.octets) (iv : Octets 16) :
    SessionSound (startBody p n key iv) := sessionSound_of_ad rfl rfl rfl rfl

theorem sessionSound_absorbAD {p : Params} {n : Nat} {xs : List Byte} (hq : SessionSound q) (h : q.phase = .ad)
    (hfit : q.lad.toNat + 8 * n ≤ 2 ^ 64 - 1) : SessionSound (absorbAD p n xs q) := by
  have hA := absorbAll_same p xs (setLad (addBits q.lad n) q)
  obtain ⟨hlct, hks⟩ := hq.ad h
  refine sessionSound_of_ad ((absorbAll_phase p xs _).trans h) (hA.lct.trans hlct) (hA.ksAvail.trans hks) ?_
  rw [absorbAD_lad]
  exact addBits_octets hq.ladOctets hfit

/-- STEPA with an octet ends in CT; without one it changes nothing. -/
theorem sessionSound_absorbCT {p : Params} {n : Nat} {xs : List Byte} (hq : SessionSound q) (hlen : xs.length = n)
    (h : q.phase = .ad ∨ q.phase = .ct) (hfit : q.lct.toNat + 8 * n ≤ 2 ^ 64 - 1) :
    SessionSound (absorbCT p n xs q) := by
  by_cases hn : n = 0
  · obtain rfl : xs = [] := List.length_eq_zero_iff.1 (hlen.trans hn)
    rw [hn, absorbCT_zero]
    exact hq
  · have hphase : (absorbCT p n xs q).phase = .ct := h.elim (fun had => (absorbCT_of_ad p hn xs had).1)
      fun hct => (absorbCT_of_ct p n xs hct).1
    refine sessionSound_of_ct hphase ?_ ?_
    · rw [absorbCT_frame]
      exact hq.ladOctets
    · rw [absorbCT_lct]
      exact addBits_octets hq.lctOctets hfit

theorem sessionSound_finalize {p : Params} (hq : SessionSound q) : SessionSound (finalize p q) := by
  have hF := finalize_same p q
  refine sessionSound_of_final rfl (finalize_filled p q) ?_ ?_
  · rw [hF.lad]
    exact hq.ladOctets
  · rw [hF.lct]
    exact hq.lctOctets

/-- STEPE and STEPD count nothing; with an octet they leave AD for CT, and in CT and FINAL they keep the hash fields. -/
theorem sessionSound_streamResult {p : Params} (hs : SessionSound s.ses) (h : s.ses.phase ≠ .idle) :
    SessionSound (streamResult p s).2 := by
  by_cases hn : s.regs.cnt1.toNat = 0
  · rw [streamResult_empty p hn]
    exact hs
  · have hframe := streamResult_frame p s
    have hlad : (streamResult p s).2.lad.toNat % 8 = 0 := by rw [hframe]; exact hs.ladOctets
    have hlct : (streamResult p s).2.lct.toNat % 8 = 0 := by rw [hframe]; exact hs.lctOctets
    cases hph : s.ses.phase with
    | idle => exact absurd hph h
    | ad => exact sessionSound_of_ct (streamResult_of_ad p hn hph).1 hlad hlct
    | ct =>
      obtain ⟨hphase, -⟩ := streamResult_of_not_ad p (s := s) (by simp [hph])
      exact sessionSound_of_ct (hphase.trans hph) hlad hlct
    | final =>
      obtain ⟨hphase, hfilled, -⟩ := streamResult_of_not_ad p (s := s) (by simp [hph])
      exact sessionSound_of_final (hphase.trans hph) (hfilled.trans (hs.final hph)) hlad hlct

/-- A command is refused and keeps the session, or runs and leaves a sound one (R40, R158). -/
theorem sessionSound_of_exec (h : exec i s = .next t) (hs : SessionSound s.ses) : SessionSound t.ses := by
  rcases exec_cases h with ⟨-, rfl⟩ | ⟨-, rfl⟩ | hran
  · exact hs
  · exact hs
  · cases hran with
    | start => exact sessionSound_startBody _ _ _ _
    | stepi had hv => exact sessionSound_absorbAD hs had hv.2
    | stepa hopen hv => exact sessionSound_absorbCT hs (length_srcOctets s) hopen hv.2
    | stream _ hph _ => exact sessionSound_streamResult hs hph
    | stepg | stepv => exact sessionSound_finalize hs
    | wrap | unwrapOk | unwrapBadMac | zeroize => exact sessionSound_reset

/-! ### Every command keeps BUF inside the buffer space -/

/-- The XOR loop over a valid range. -/
theorem xorRange_within_of_inSpace {n a : Nat} {m : Memory} (hm : m.Within (bufSize Config.params)) (hr : InSpace a n)
    (q : Session) : (xorRange Config.params n a m q).1.Within (bufSize Config.params) := by
  rcases hr with rfl | hr
  · exact hm
  · exact xorRange_within Config.params n a hm hr q

/-- A command writes inside the ranges that its checks let pass (R160, R190). -/
theorem within_of_exec (h : exec i s = .next t) (hm : s.buf.Within (bufSize Config.params)) :
    t.buf.Within (bufSize Config.params) := by
  have envelope {kl : KeyCode} (hv : EnvelopeValid kl s.regs) (q : Session) :
      (xorRange Config.params s.regs.cnt1.toNat s.regs.dest.toNat (copyPayload s.buf s.regs) q).1.Within
        (bufSize Config.params) := by
    obtain ⟨-, -, -, hdest, -⟩ := hv
    exact xorRange_within_of_inSpace (copyPayload_within hm hdest) hdest q
  rcases exec_cases h with ⟨-, rfl⟩ | ⟨-, rfl⟩ | hran
  · exact hm
  · exact hm
  · cases hran with
    | stream _ _ hr => exact xorRange_within_of_inSpace hm hr _
    | wrap _ hv => exact envelope hv _
    | unwrapOk _ hv => exact envelope hv _
    | _ => exact hm

/-- Raced writes that land inside the space. -/
theorem within_landLate {k : Nat} (hm : s.buf.Within k) (hlate : ∀ c ∈ s.host.late, c.1 < k) :
    (landLate s).buf.Within k := by
  rw [landLate_buf]
  generalize s.buf = m at hm
  generalize s.host.late = l at hlate
  induction l generalizing m with
  | nil => exact hm
  | cons c l ih =>
    exact ih _ (Memory.within_write hm (hlate c (List.mem_cons_self ..)) _)
      fun c' hc' => hlate c' (List.mem_cons_of_mem _ hc')

/-! ### Every step keeps the invariant -/

/-- The invariant does not read the registers, OVR, the latched word, the turns or what the host has seen. -/
theorem sound_congr (h : Sound s) (hses : t.ses = s.ses) (hbuf : t.buf = s.buf) (herr : t.err = s.err)
    (hbusy : s.busy = true → t.busy = true) (hfaults : t.faults = s.faults) (hlate : t.host.late = s.host.late) :
    Sound t where
  session := hses ▸ h.session
  bufWf := hbuf ▸ h.bufWf
  bufInSpace := hbuf ▸ h.bufInSpace
  errWritten := herr ▸ h.errWritten
  lateInSpace := hlate ▸ h.lateInSpace
  lateBusy := fun hl => hbusy (h.lateBusy (hlate ▸ hl))
  lateRaced := fun hl => hfaults ▸ h.lateRaced (hlate ▸ hl)

theorem sound_setTurns (ts : List Turn) (h : Sound s) : Sound (setTurns ts s) := sound_congr h rfl rfl rfl id rfl rfl

/-- The latched word, run on a sound state, leaves the session, BUF and ERR sound. -/
theorem sound_latched (h : Sound s) :
    SessionSound (latched Config.params s).ses ∧ (latched Config.params s).buf.wf = true ∧
      (latched Config.params s).buf.Within (bufSize Config.params) ∧
      (latched Config.params s).err ≠ .outOfMemory := by
  cases hd : decode s.cmdl with
  | ok i =>
    rw [latched_of_ok hd]
    exact ⟨sessionSound_of_exec (exec_eq i s) h.session, (command_buf Config.params s i h.bufWf).1,
      within_of_exec (exec_eq i s) h.bufInSpace, command_err_ne_outOfMemory _ i s⟩
  | error e =>
    rw [latched_of_error hd]
    exact ⟨h.session, h.bufWf, h.bufInSpace, by rw [finish_err]; decide⟩

/-- The core's step: the raced writes land, and none waits any more. -/
theorem sound_coreStep (h : Sound s) : Sound (landLate (latched Config.params s)) := by
  obtain ⟨hses, hwf, hin, herr⟩ := sound_latched h
  have hlate : ∀ c ∈ (latched Config.params s).host.late, c.1 < bufSize Config.params := by
    rw [(latched_frame Config.params s).host]
    exact h.lateInSpace
  exact
    { session := hses
      bufWf := wf_landLate hwf
      bufInSpace := within_landLate hin hlate
      errWritten := herr
      lateInSpace := fun c hc => by cases hc
      lateBusy := fun hl => absurd rfl hl
      lateRaced := fun hl => absurd rfl hl }

theorem sound_resetBlock (h : Sound s) : Sound (resetBlock s) where
  session := sessionSound_reset
  bufWf := h.bufWf
  bufInSpace := h.bufInSpace
  errWritten := by rw [resetBlock_err]; decide
  lateInSpace := fun c hc => by cases hc
  lateBusy := fun hl => absurd rfl hl
  lateRaced := fun hl => absurd rfl hl

theorem sound_writeReg (r : Reg) (v : Word) (h : Sound s) : Sound (writeReg r v s) := by
  cases r with
  | cmd => exact sound_congr h rfl rfl rfl (fun _ => rfl) rfl rfl
  | status | macOut | lad | lct => exact h
  | _ => exact sound_congr h rfl rfl rfl id rfl rfl

theorem sound_hostWriteReg (off : Nat) (v : Word) (h : Sound s) : Sound (hostWriteReg off v s) := by
  unfold hostWriteReg
  split
  · exact sound_congr h rfl rfl rfl id rfl rfl
  · split
    · exact sound_writeReg _ v h
    · exact h

theorem sound_hostReadReg (p : Params) (off : Nat) (h : Sound s) : Sound (hostReadReg p off s) := by
  unfold hostReadReg
  split <;> exact sound_congr h rfl rfl rfl id rfl rfl

/-- A fault recorded beside the invariant. -/
theorem sound_addFault (f : ModelFault) (h : Sound s) : Sound (addFault f s) where
  session := h.session
  bufWf := h.bufWf
  bufInSpace := h.bufInSpace
  errWritten := h.errWritten
  lateInSpace := h.lateInSpace
  lateBusy := h.lateBusy
  lateRaced := fun hl => mem_addFault.2 (.inr (h.lateRaced hl))

theorem sound_hostReadBuf (p : Params) (a : Nat) (h : Sound s) : Sound (hostReadBuf p a s) := by
  unfold hostReadBuf
  split
  · exact sound_addFault _ (sound_congr h rfl rfl rfl id rfl rfl)
  · exact sound_congr h rfl rfl rfl id rfl rfl

/-- BUF with one octet of the space written. -/
theorem sound_write {a : Nat} (v : Byte) (ha : a < bufSize Config.params) (h : Sound s) :
    Sound { s with buf := s.buf.write a v } where
  session := h.session
  bufWf := Memory.wf_write h.bufWf a v
  bufInSpace := Memory.within_write h.bufInSpace ha v
  errWritten := h.errWritten
  lateInSpace := h.lateInSpace
  lateBusy := h.lateBusy
  lateRaced := h.lateRaced

/-- A raced BUF write is in BUF at once or waits, in the space, under a pending command and a recorded race (R68). -/
theorem sound_hostWriteBuf (p : Params) {a : Nat} (v : Byte) (ha : a < bufSize Config.params) (h : Sound s) :
    Sound (hostWriteBuf p a v s) := by
  cases hb : s.busy with
  | false =>
    rw [hostWriteBuf_idle hb]
    exact sound_write v ha h
  | true =>
    rw [hostWriteBuf, if_pos hb]
    cases p.drawSeen s.host.draws with
    | true => exact sound_addFault _ (sound_congr (sound_write v ha h) rfl rfl rfl id rfl rfl)
    | false =>
      exact
        { session := h.session
          bufWf := h.bufWf
          bufInSpace := h.bufInSpace
          errWritten := h.errWritten
          lateInSpace := fun c hc => (List.mem_append.1 hc).elim (h.lateInSpace c) fun hc' => by
            rw [List.mem_singleton.1 hc']
            exact ha
          lateBusy := fun _ => hb
          lateRaced := fun _ => mem_addFault.2 (.inl rfl) }

theorem sound_hostAct {x : HostAction} (h : hostAct Config.params x s = .next t) (hs : Sound s) : Sound t := by
  rcases hostAct_cases h with ⟨off, v, -, -, -, rfl⟩ | ⟨off, -, -, -, rfl⟩ | ⟨a, v, -, ha, rfl⟩ | ⟨a, -, -, rfl⟩
  · exact sound_hostWriteReg off v hs
  · exact sound_hostReadReg _ off hs
  · exact sound_hostWriteBuf _ v ha hs
  · exact sound_hostReadBuf _ a hs

/-! ### The statements -/

/-- Settles O51: the launch image is in canonical form inside the space (`wf_launch`, `within_launch`), and nothing
waits. -/
theorem soundAtReset : Obligations.SoundAtReset where
  session := sessionSound_reset
  bufWf := wf_reset
  bufInSpace := Memory.within_launch
  errWritten := by decide
  lateInSpace := fun c hc => by cases hc
  lateBusy := fun hl => absurd rfl hl
  lateRaced := fun hl => absurd rfl hl

/-- Settles O52: each kind of step keeps the invariant (`step_cases`): the core's step by `sessionSound_of_exec` and
`within_of_exec`, the host's by `sound_hostAct`. -/
theorem soundKept : Obligations.SoundKept := by
  intro s t hs h
  rcases step_cases h with ⟨-, ts, rfl⟩ | ⟨-, ts, rfl⟩ | ⟨x, ts, -, ha⟩ | ⟨ts, rfl⟩ | ⟨ts, -, rfl⟩
  · exact sound_coreStep (sound_setTurns ts hs)
  · exact sound_setTurns ts hs
  · exact sound_hostAct ha (sound_setTurns ts hs)
  · exact sound_hostReadReg _ _ (sound_setTurns ts hs)
  · exact sound_resetBlock (sound_setTurns ts hs)

end Sys2Proof.Machine
end

section
/-! What a command that ran left in the phase (spec/41_session.md R158) and in the interface registers (spec/10_state.md R23 to
R28), and how every command ends (spec/93_implementation_defined.md section 1). -/

namespace Sys2Proof.Machine

open Sys2Proof.Safety

variable {i : Instr} {s t : State}

/-! ### The phase -/

theorem Ran.err (h : Ran i s t) : t.err = .ok ∨ t.err = .badMac := by
  cases h with
  | stepv => exact ite_eq_or_eq _ _ _
  | unwrapBadMac => exact .inr rfl
  | _ => exact .inl rfl

/-- STEPA enters CT with an octet and keeps the phase without one (R164). -/
theorem absorbCT_srcOctets_phase (hopen : s.ses.phase = .ad ∨ s.ses.phase = .ct) :
    phaseTable .stepa s.ses.phase s.regs.cnt1.toNat
      = some (absorbCT Config.params s.regs.cnt1.toNat (srcOctets s) s.ses).phase := by
  rcases hopen with had | hct
  · by_cases hn : s.regs.cnt1.toNat = 0
    · rw [hn, srcOctets_of_empty hn, absorbCT_zero, had]
      rfl
    · rw [had, (absorbCT_of_ad _ hn _ had).1]
      exact congrArg some (if_neg hn)
  · rw [hct, (absorbCT_of_ct _ _ _ hct).1]
    rfl

/-- STEPE and STEPD enter CT from AD with an octet, and keep the phase otherwise (R166). -/
theorem streamResult_phase (hi : i = .stepe ∨ i = .stepd) (hph : s.ses.phase ≠ .idle) :
    phaseTable i s.ses.phase s.regs.cnt1.toNat = some (streamResult Config.params s).2.phase := by
  cases h : s.ses.phase with
  | idle => exact absurd h hph
  | ad =>
    by_cases hn : s.regs.cnt1.toNat = 0
    · rw [streamResult_empty _ hn, h, hn]
      rcases hi with rfl | rfl <;> rfl
    · rw [(streamResult_of_ad _ hn h).1]
      rcases hi with rfl | rfl <;> exact congrArg some (if_neg hn)
  | ct | final =>
    rw [(streamResult_of_not_ad _ (by simp [h])).1, h]
    rcases hi with rfl | rfl <;> rfl

/-- A command that ran leaves the phase of the table (R158). -/
theorem Ran.phase (h : Ran i s t) : phaseTable i s.ses.phase s.regs.cnt1.toNat = some t.ses.phase := by
  cases h with
  | stepi had =>
    rw [finish_ses, setSes_ses, absorbAD_frame, had]
    rfl
  | stepa hopen => exact absorbCT_srcOctets_phase hopen
  | stream hi hph => exact streamResult_phase hi hph
  | stepg hopen => rcases hopen with h | h <;> rw [h] <;> rfl
  | stepv hopen => rcases hopen with h | h <;> rw [h] <;> rfl
  | start | wrap | unwrapOk | unwrapBadMac | zeroize => rfl

/-- Settles O11: a command is refused at an ORDER entry, refused for its operands, or runs (`exec_cases`), and then
leaves the phase of the table (`Ran.phase`). -/
theorem phaseTransitions : Obligations.PhaseTransitions := by
  intro i s t h
  rcases exec_cases h with ⟨horder, rfl⟩ | ⟨hpermit, rfl⟩ | hran
  · exact ⟨⟨fun _ => horder, fun _ => rfl⟩, fun _ => rfl, fun herr => by simp at herr⟩
  · exact ⟨⟨fun herr => by simp at herr, fun horder => absurd horder hpermit⟩, fun _ => rfl,
      fun herr => by simp at herr⟩
  · have hphase := hran.phase
    refine ⟨⟨fun herr => ?_, fun horder => ?_⟩, fun herr => ?_, fun _ => hphase⟩
    · rcases hran.err with h' | h' <;> simp [h'] at herr
    · simp [horder] at hphase
    · rcases hran.err with h' | h' <;> simp [h'] at herr

/-! ### The registers -/

/-- A command that ran wrote ZEROIZE's registers, MAC_OUT by STEPG or WRAP, or none. -/
theorem Ran.regs (h : Ran i s t) :
    (i = .zeroize ∧ t.regs = s.regs.zeroized) ∨
      ((i = .stepg ∨ ∃ kl, i = .wrap kl) ∧ t.regs = { s.regs with macOut := t.regs.macOut }) ∨ t.regs = s.regs := by
  cases h with
  | zeroize => exact .inl ⟨rfl, rfl⟩
  | stepg => exact .inr (.inl ⟨.inl rfl, rfl⟩)
  | wrap => exact .inr (.inl ⟨.inr ⟨_, rfl⟩, rfl⟩)
  | _ => exact .inr (.inr rfl)

/-- Settles O36: a refused command writes no register, and one that ran writes those of `Ran.regs`. -/
theorem operandRegistersKept : Obligations.OperandRegistersKept := by
  intro i s t h
  have none_written (hregs : t.regs = s.regs) : (t.regs.src1 = s.regs.src1 ∧ t.regs.cnt1 = s.regs.cnt1 ∧
      t.regs.src2 = s.regs.src2 ∧ t.regs.cnt2 = s.regs.cnt2 ∧ t.regs.dest = s.regs.dest) ∧
      (i ≠ .zeroize → t.regs = { s.regs with macOut := t.regs.macOut }) ∧
      (i ≠ .zeroize → i ≠ .stepg → (∀ kl, i ≠ .wrap kl) → t.regs.macOut = s.regs.macOut) := by
    rw [hregs]
    exact ⟨⟨rfl, rfl, rfl, rfl, rfl⟩, fun _ => rfl, fun _ _ _ => rfl⟩
  rcases exec_cases h with ⟨-, rfl⟩ | ⟨-, rfl⟩ | hran
  · exact none_written rfl
  · exact none_written rfl
  · rcases hran.regs with ⟨rfl, hregs⟩ | ⟨hi, hregs⟩ | hregs
    · rw [hregs]
      exact ⟨⟨rfl, rfl, rfl, rfl, rfl⟩, fun hne => absurd rfl hne, fun hne => absurd rfl hne⟩
    · refine ⟨?_, fun _ => hregs, fun _ hg hw => ?_⟩
      · rw [hregs]
        exact ⟨rfl, rfl, rfl, rfl, rfl⟩
      · rcases hi with hi | ⟨kl, hi⟩
        · exact absurd hi hg
        · exact absurd hi (hw kl)
    · exact none_written hregs

/-! ### The end of a command -/

/-- Settles O6: every command answers (`exec_eq`), inside the frame of `command_frame`. -/
theorem everyCommandEnds : Obligations.EveryCommandEnds := by
  intro i s
  have hframe := command_frame Config.params i s
  exact ⟨_, exec_eq i s, hframe.busy, hframe.cmdl, hframe.ovr, hframe.faults, hframe.host,
    command_err_ne_outOfMemory _ i s⟩

/-- Settles O24: both commands are `streamXor` (`exec_stream`), under the words of their encodings. -/
theorem stepdIsStepe : Obligations.StepdIsStepe := by
  intro s
  exact ⟨(exec_stream (.inr rfl) s).trans (exec_stream (.inl rfl) s).symm, rfl, rfl⟩

end Sys2Proof.Machine
end

section
/-! The key, IV and tag registers as octets (spec/10_state.md R25 to R27), what START, WRAP and UNWRAP read of the key
(spec/41_session.md R150, R151), ZEROIZE against a reset (spec/70_reset_and_hazards.md R242), and UNWRAP after WRAP
(spec/44_envelope.md R197). -/

namespace Sys2Proof.Machine

open Sys2Proof.Safety

variable {s : State}

/-! ### The registers as octets -/

theorem keySize_octets_le (n : KeySize) : n.octets ≤ 32 := by cases n <;> decide

theorem toList_key (g : Regs) (n : KeySize) :
    (g.key n).toList = List.ofFn fun i : Fin n.octets => g.keyOctet i.val := Vector.toList_ofFn

theorem getD_key (g : Regs) {n : KeySize} {j : Nat} (hj : j < n.octets) :
    (g.key n).toList.getD j 0 = g.keyOctet j := by
  rw [toList_key, List.getD_eq_getElem _ _ (by simpa using hj), List.getElem_ofFn]

theorem toList_key_take (g : Regs) (n : KeySize) :
    (g.key n).toList = (g.key .k32).toList.take n.octets := by
  have hn : n.octets ≤ KeySize.k32.octets := keySize_octets_le n
  rw [toList_key, toList_key]
  apply List.ext_getElem
  · rw [List.length_take, List.length_ofFn, List.length_ofFn, Nat.min_eq_left hn]
  · intro j h1 h2
    rw [List.getElem_take, List.getElem_ofFn, List.getElem_ofFn]

/-- Settles O18: octet `8·k + j` of a packed array is octet `j` of register `k`. -/
theorem registersPackOctets : Obligations.RegistersPackOctets := by
  intro g
  refine ⟨fun k j hk hj => ?_, fun k j hk hj => ?_, fun j hj => ?_, toList_key_take g⟩
  · have hdiv : (8 * k + j) / 8 = k := by omega
    have hmod : (8 * k + j) % 8 = j := by omega
    rw [getD_key g (n := .k32) (show 8 * k + j < 32 by omega), Regs.keyOctet, hdiv, hmod]
    match k, hk with
    | 0, _ | 1, _ | 2, _ | 3, _ => rfl
  · have hmod : (8 * k + j) % 8 = j := by omega
    rw [List.getD_eq_getElem _ _ (by simp; omega)]
    simp only [Regs.iv, Vector.getElem_toList, Vector.getElem_ofFn, hmod]
    match k, hk with
    | 0, _ => simp [octetOf, hj]
    | 1, _ => simp [octetOf]
  · rw [List.getD_eq_getElem _ _ (by simpa using hj)]
    simp [Regs.macInOctets, oct64, octetOf]

/-! ### The key -/

/-- Settles O16: the session of START is `startBody`, whose hash key `deriveR` gives by R_DERIV. -/
theorem hashKeyDerivation : Obligations.HashKeyDerivation := by
  intro kl n s t hn h
  obtain rfl := Host.Outcome.next.inj ((exec_next_iff.2 (cmdStart_of_size hn).symm).symm.trans h)
  refine ⟨fun hd => ?_, fun hd => ?_, rfl⟩
  · simp only [finish_ses, setSes_ses, startBody, deriveR, hd]
  · simp only [finish_ses, setSes_ses, startBody, deriveR, hd, encVal]

/-- The state with other key registers. -/
def withKeys (k0 k1 k2 k3 : Word) (s : State) : State :=
  { s with regs := { s.regs with key0 := k0, key1 := k1, key2 := k2, key3 := k3 } }

section
variable (p : Params) {n : KeySize} {k0 k1 k2 k3 : Word}

theorem key_withKeys
    (hkey : ∀ j, j < n.octets → (withKeys k0 k1 k2 k3 s).regs.keyOctet j = s.regs.keyOctet j) :
    (withKeys k0 k1 k2 k3 s).regs.key n = s.regs.key n :=
  congrArg Vector.ofFn (funext fun j => hkey j.val j.isLt)

variable (hkey : (withKeys k0 k1 k2 k3 s).regs.key n = s.regs.key n)
include hkey

theorem envelopeAD_withKeys : envelopeAD p n (withKeys k0 k1 k2 k3 s) = envelopeAD p n s := by
  rw [envelopeAD, hkey]
  rfl

theorem wrapEncrypt_withKeys : wrapEncrypt p n (withKeys k0 k1 k2 k3 s) = wrapEncrypt p n s := by
  rw [wrapEncrypt, envelopeAD_withKeys p hkey]
  rfl

theorem wrapFinal_withKeys : wrapFinal p n (withKeys k0 k1 k2 k3 s) = wrapFinal p n s := by
  rw [wrapFinal, wrapEncrypt_withKeys p hkey]
  rfl

theorem unwrapFinal_withKeys : unwrapFinal p n (withKeys k0 k1 k2 k3 s) = unwrapFinal p n s := by
  rw [unwrapFinal, envelopeAD_withKeys p hkey]
  rfl

theorem unwrapDecrypt_withKeys : unwrapDecrypt p n (withKeys k0 k1 k2 k3 s) = unwrapDecrypt p n s := by
  rw [unwrapDecrypt, unwrapFinal_withKeys p hkey]
  rfl

theorem cmdStart_withKeys {kl : KeyCode} (hn : kl.size? = some n) :
    cmdStart p kl (withKeys k0 k1 k2 k3 s) = withKeys k0 k1 k2 k3 (cmdStart p kl s) := by
  rw [cmdStart_of_size hn, cmdStart_of_size hn, hkey]
  rfl

theorem cmdWrap_withKeys {kl : KeyCode} (hn : kl.size? = some n) :
    cmdWrap p kl (withKeys k0 k1 k2 k3 s) = withKeys k0 k1 k2 k3 (cmdWrap p kl s) := by
  have hok : envelopeOK p kl (withKeys k0 k1 k2 k3 s).regs = envelopeOK p kl s.regs := rfl
  cases h : envelopeOK p kl s.regs with
  | false =>
    rw [cmdWrap_of_invalid h, cmdWrap_of_invalid (hok.trans h)]
    rfl
  | true =>
    rw [cmdWrap_of_valid hn h, cmdWrap_of_valid hn (hok.trans h), wrapFinal_withKeys p hkey,
      wrapEncrypt_withKeys p hkey]
    rfl

theorem cmdUnwrap_withKeys {kl : KeyCode} (hn : kl.size? = some n) :
    cmdUnwrap p kl (withKeys k0 k1 k2 k3 s) = withKeys k0 k1 k2 k3 (cmdUnwrap p kl s) := by
  have hok : envelopeOK p kl (withKeys k0 k1 k2 k3 s).regs = envelopeOK p kl s.regs := rfl
  cases h : envelopeOK p kl s.regs with
  | false =>
    rw [cmdUnwrap_of_invalid h, cmdUnwrap_of_invalid (hok.trans h)]
    rfl
  | true =>
    rw [cmdUnwrap_of_valid hn h, cmdUnwrap_of_valid hn (hok.trans h), unwrapFinal_withKeys p hkey,
      unwrapDecrypt_withKeys p hkey, apply_ite (withKeys k0 k1 k2 k3)]
    rfl

end

/-- Settles O17: each of the three commands reads the key registers through `KEY[0..n)` alone, and writes none. -/
theorem unusedKeyOctetsIgnored : Obligations.UnusedKeyOctetsIgnored := by
  intro kl n i s k0 k1 k2 k3 hn hi hoctets
  have hkey : (withKeys k0 k1 k2 k3 s).regs.key n = s.regs.key n := key_withKeys hoctets
  refine ⟨_, _, exec_eq i s, exec_eq i (withKeys k0 k1 k2 k3 s), ?_⟩
  rcases hi with rfl | rfl | rfl
  · exact cmdStart_withKeys _ hkey hn
  · exact cmdWrap_withKeys _ hkey hn
  · exact cmdUnwrap_withKeys _ hkey hn

/-! ### ZEROIZE -/

/-- Settles O20: the two states agree field by field; the reset keeps BUF, the fault record and the host's side as ZEROIZE
does, with no raced write waiting. -/
theorem zeroizeAgainstReset : Obligations.ZeroizeAgainstReset := by
  intro s ts hturns hlate
  refine ⟨_, _, exec_eq .zeroize s, step_reset hturns, ?_⟩
  obtain ⟨_, _, _, _, _, _, _, _, ⟨turns, reads, draws, late⟩⟩ := s
  obtain rfl : turns = _ := hturns
  obtain rfl : late = _ := hlate
  rfl

/-! ### UNWRAP after WRAP -/

/-- The tag of an envelope reads the key octets, the IV and the associated data (R134). -/
theorem envelopeTag_congr (p : Params) (n : KeySize) {u : State} (hkey : u.regs.key n = s.regs.key n)
    (hiv : u.regs.iv = s.regs.iv) (had : adOctets u = adOctets s) (ct : List Byte) :
    envelopeTag p n u ct = envelopeTag p n s ct := by
  simp only [envelopeTag, sessionKey, hashKey, firstCounter, hkey, hiv, had]

/-- Settles O34: WRAP's closed forms (`wrapSeals`) meet UNWRAP's (`unwrapOpens`): the tags are one, and the keystream
XORed twice cancels. -/
theorem roundTrip : Obligations.RoundTrip := by
  intro kl s t u hs hm h hu hmu hkey hiv had hct hmac
  obtain ⟨n, hn⟩ := size?_isSome hs.1
  obtain ⟨t', ht, -, htag, hsealed, -⟩ := (wrapSeals kl s).2 n hn hs hm
  obtain rfl : t' = t := Host.Outcome.next.inj (ht.symm.trans h)
  have hlen : u.regs.cnt1.toNat = s.regs.cnt1.toNat := by
    simpa using congrArg List.length hct
  have hmatch : envelopeTag Config.params n u (srcOctets u) = u.regs.macIn := by
    rw [envelopeTag_congr _ n (hkey n) hiv had, hct, ← htag, hmac]
  obtain ⟨v, hv, hok, hopened, -⟩ := (unwrapOpens kl u).2.2 n hn hu hmatch hmu
  refine ⟨v, hv, by rw [hok], ?_⟩
  have hkeystream : sessionKey Config.params n u.regs = sessionKey Config.params n s.regs ∧
      firstCounter Config.params n u.regs = firstCounter Config.params n s.regs := by
    simp only [firstCounter, sessionKey, hkey n, hiv, and_self]
  rw [srcOctets, ← hlen]
  refine Memory.readRange_congr fun k hk => ?_
  have hsrc : u.buf.read (u.regs.src1.toNat + k) = t'.buf.read (s.regs.dest.toNat + k) :=
    Memory.read_of_readRange_eq (n := s.regs.cnt1.toNat) (hlen ▸ hct) k (hlen ▸ hk)
  rw [hopened k hk, hsrc, hsealed k (hlen ▸ hk), hkeystream.1, hkeystream.2, BitVec.xor_assoc, BitVec.xor_self,
    BitVec.xor_zero]

end Sys2Proof.Machine
end

section
/-! The core step and a `wait` (spec/70_reset_and_hazards.md R250, R251; spec/30_encoding.md R98), what a step keeps of a
pending command, and which steps write an octet of BUF (spec/20_memory.md R67). -/

namespace Sys2Proof.Machine

open Sys2Proof.Safety

variable {s t : State}

/-! ### The core step -/

/-- The core's step ends with BUSY = 0 and keeps OVR and the latched word (R250). -/
theorem coreStep_frame (p : Params) (s : State) :
    (landLate (latched p s)).busy = false ∧ (landLate (latched p s)).ovr = s.ovr ∧
      (landLate (latched p s)).cmdl = s.cmdl := by
  have hframe := latched_frame p s
  exact ⟨hframe.busy, hframe.ovr, hframe.cmdl⟩

theorem afterCommand_exec {i : Instr} (h : decode s.cmdl = .ok i) :
    afterCommand (exec i s) = .next (landLate (latched Config.params s)) := by
  rw [exec_eq, latched_of_ok h]
  rfl

/-- Settles O4: the step is `step_core` or `step_core_idle`, with the latched word decoded or not. -/
theorem stepRunsDecodedCommand : Obligations.StepRunsDecodedCommand := by
  intro s ts hcore
  refine ⟨fun hb => step_core_idle hcore hb, fun hb i hi => ⟨?_, fun hl => ?_⟩, fun hb e he hl => ?_, fun hb => ?_⟩
  · rw [step_core hcore hb, afterCommand_exec (s := setTurns ts s) hi]
  · rw [step_core_of_no_late hcore hb hl, latched_of_ok (s := setTurns ts s) hi, exec_eq]
  · rw [step_core_of_no_late hcore hb hl, latched_of_error (s := setTurns ts s) he]
    rfl
  · obtain ⟨hbusy, hovr, -⟩ := coreStep_frame Config.params (setTurns ts s)
    exact ⟨_, step_core hcore hb, hbusy, hovr⟩

/-! ### A `wait` -/

/-- BUSY and OVR as STATUS shows them while BUSY = 1 (R253). -/
theorem busyStatusWord_low (s : State) (draw : Word) :
    (busyStatusWord s draw).getLsbD 0 = s.busy ∧ (busyStatusWord s draw).getLsbD 1 = s.ovr := by
  simp only [busyStatusWord, BitVec.getLsbD_append, BitVec.getLsbD_ofBool]
  exact ⟨by simp, by simp⟩

theorem step_wait_idle {k : Nat} {ts : List Turn} (h : s.host.turns = .wait k :: ts) (hb : s.busy = false) :
    step s = .next (noteRead (.reg 0x08 (statusWord s)) (setTurns ts s)) := by
  simp only [step, nextTurn, h, takeTurn, waitTurn, setTurns_busy, hb]
  exact congrArg _ (hostReadReg_idle (s := setTurns ts s) hb)

theorem step_wait_poll {k : Nat} {ts : List Turn} (h : s.host.turns = .wait (k + 1) :: ts) (hb : s.busy = true) :
    step s = .next (countDraw (noteRead (.reg 0x08 (busyStatusWord s (Config.params.drawWord s.host.draws)))
      (setTurns (.wait k :: ts) s))) := by
  simp only [step, nextTurn, h, takeTurn, waitTurn, setTurns_busy, hb, setTurns_setTurns]
  exact congrArg _ (if_pos hb)

theorem step_wait_core {ts : List Turn} (h : s.host.turns = .wait 0 :: ts) (hb : s.busy = true) :
    step s = .next (landLate (latched Config.params (setTurns (.wait 0 :: ts) s))) := by
  simp only [step, nextTurn, h, takeTurn, waitTurn, setTurns_busy, hb, setTurns_setTurns]
  exact coreStep_exec _

/-- Settles O8: the three kinds of a `wait` turn (`step_wait_idle`, `step_wait_poll`, `step_wait_core`). -/
theorem waitPollsStatus : Obligations.WaitPollsStatus := by
  intro s k ts h
  refine ⟨fun hb => ⟨_, step_wait_idle h hb, rfl⟩, fun hb j hk => ?_, fun hb hk => ?_⟩
  · obtain ⟨hbusy, hovr⟩ := busyStatusWord_low s (Config.params.drawWord s.host.draws)
    exact ⟨_, hbusy.trans hb, hovr, step_wait_poll (hk ▸ h) hb⟩
  · have hframe := latched_frame Config.params (setTurns (.wait 0 :: ts) s)
    exact ⟨_, step_wait_core (hk ▸ h) hb, hframe.busy, congrArg HostSide.turns hframe.host⟩

/-! ### What a step keeps of a pending command -/

/-- What a step that leaves a command pending keeps of the block. -/
structure PendingKept (s t : State) : Prop where
  busy : t.busy = true
  regs : t.regs = s.regs
  cmdl : t.cmdl = s.cmdl
  ses : t.ses = s.ses
  err : t.err = s.err

theorem hostReadReg_pending (p : Params) (off : Nat) (hb : s.busy = true) : PendingKept s (hostReadReg p off s) := by
  rw [hostReadReg, if_pos hb]
  exact ⟨hb, rfl, rfl, rfl, rfl⟩

/-- No host action ends or changes a pending command (R252, R253, R68), nor the turns to come. -/
theorem hostAct_pending {p : Params} {x : HostAction} (h : hostAct p x s = .next t) (hb : s.busy = true) :
    PendingKept s t ∧ t.host.turns = s.host.turns := by
  rcases hostAct_cases h with ⟨off, v, -, -, -, rfl⟩ | ⟨off, -, -, -, rfl⟩ | ⟨a, v, -, -, rfl⟩ | ⟨a, -, -, rfl⟩
  · rw [hostWriteReg_busy hb]
    exact ⟨⟨hb, rfl, rfl, rfl, rfl⟩, rfl⟩
  · refine ⟨hostReadReg_pending p off hb, ?_⟩
    rw [hostReadReg, if_pos hb]
    rfl
  · rw [hostWriteBuf, if_pos hb]
    exact ⟨⟨hb, rfl, rfl, rfl, rfl⟩, rfl⟩
  · rw [hostReadBuf, if_pos hb]
    exact ⟨⟨hb, rfl, rfl, rfl, rfl⟩, rfl⟩

theorem PendingKept.of_setTurns {ts : List Turn} (h : PendingKept (setTurns ts s) t) : PendingKept s t :=
  ⟨h.busy, h.regs, h.cmdl, h.ses, h.err⟩

/-- A step from BUSY = 1 leaves the command pending, resets the block, or runs the latched word. -/
theorem step_pending_cases (h : step s = .next t) (hb : s.busy = true) :
    PendingKept s t ∨ (t.busy = false ∧ ∃ ts, s.host.turns = .reset :: ts) ∨
      (t.busy = false ∧ t.cmdl = s.cmdl ∧ ∃ ts, t = landLate (latched Config.params (setTurns ts s))) := by
  rcases step_cases h with ⟨-, ts, rfl⟩ | ⟨hidle, -⟩ | ⟨x, ts, -, ha⟩ | ⟨ts, rfl⟩ | ⟨ts, hx, rfl⟩
  · obtain ⟨hbusy, -, hcmdl⟩ := coreStep_frame Config.params (setTurns ts s)
    exact .inr (.inr ⟨hbusy, hcmdl, ts, rfl⟩)
  · exact absurd (hb.symm.trans hidle) (by decide)
  · exact .inl (hostAct_pending ha hb).1.of_setTurns
  · exact .inl (hostReadReg_pending (s := setTurns ts s) _ _ hb).of_setTurns
  · exact .inr (.inl ⟨rfl, ts, hx⟩)

/-- Settles O38: a step that leaves BUSY = 1 keeps what `PendingKept` says, any other is a reset or the core's
(`step_pending_cases`). -/
theorem operandsStableWhileBusy : Obligations.OperandsStableWhileBusy := by
  intro s t h hb
  rcases step_pending_cases h hb with ⟨hbusy, hregs, hcmdl, hses, herr⟩ | ⟨hbusy, hreset⟩ | ⟨hbusy, hcmdl, ts, ht⟩
  · exact ⟨fun _ => ⟨hregs, hcmdl, hses, herr⟩, fun hidle => absurd (hbusy.symm.trans hidle) (by decide)⟩
  · exact ⟨fun hpend => absurd (hbusy.symm.trans hpend) (by decide), fun _ => .inl hreset⟩
  · exact ⟨fun hpend => absurd (hbusy.symm.trans hpend) (by decide),
      fun _ => .inr ⟨hcmdl, ts, _, runLatched_exec _, ht⟩⟩

/-! ### A pending command ends -/

/-- From BUSY = 1 a step ends the command or uses up a part of the listed turns. -/
theorem turnBound_of_step_pending (hb : s.busy = true) (h : step s = .next t) :
    t.busy = false ∨ turnBound t.host.turns < turnBound s.host.turns := by
  have core {ts : List Turn} (hcore : CoreMoves s ts) : t.busy = false := by
    obtain rfl := Host.Outcome.next.inj ((step_core hcore hb).symm.trans h)
    exact (coreStep_frame _ _).1
  cases ht : s.host.turns with
  | nil => exact .inl (core (.inl ⟨ht, rfl⟩))
  | cons x ts =>
    cases x with
    | core => exact .inl (core (.inr ht))
    | reset =>
      obtain rfl := Host.Outcome.next.inj ((step_reset ht).symm.trans h)
      exact .inl rfl
    | host x =>
      have hturns := (hostAct_pending (s := setTurns ts s) ((step_host ht).symm.trans h) hb).2
      rw [hturns]
      exact .inr (Nat.lt_add_of_pos_left Nat.one_pos)
    | wait polls =>
      cases polls with
      | zero =>
        obtain rfl := Host.Outcome.next.inj ((step_wait_core ht hb).symm.trans h)
        exact .inl (coreStep_frame _ _).1
      | succ k =>
        obtain rfl := Host.Outcome.next.inj ((step_wait_poll ht hb).symm.trans h)
        refine .inr ?_
        simp only [countDraw_host, noteRead_host, setTurns_host, turnBound]
        omega

theorem steps_succ_of_next (h : step s = .next t) (k : Nat) : steps (k + 1) s = steps k t := by
  simp only [steps, h]

/-- One step answers what `step` answers, if that is a next state. -/
theorem step_of_steps_one (h : steps 1 s = some t) : step s = .next t := by
  cases hstep : step s with
  | next u =>
    rw [steps_succ_of_next hstep] at h
    exact congrArg _ (Option.some.inj h)
  | fault | refused => simp [steps, hstep] at h

/-- Settles O7, by induction on the bound of the listed turns: a step that does not end the command lowers it
(`turnBound_of_step_pending`). -/
theorem pendingCommandEnds : Obligations.PendingCommandEnds := by
  intro s hb
  induction hn : turnBound s.host.turns using Nat.strong_induction_on generalizing s with
  | _ n ih =>
    by_cases hgoes : ∃ t, step s = .next t ∧ t.busy = true
    · obtain ⟨t, ht, htb⟩ := hgoes
      have hless := (turnBound_of_step_pending hb ht).resolve_left (by simp [htb])
      obtain ⟨k, hk, hend⟩ := ih _ (hn ▸ hless) t htb rfl
      exact ⟨k + 1, by omega, fun u hu => hend u (steps_succ_of_next ht k ▸ hu)⟩
    · refine ⟨1, by omega, fun t ht => ?_⟩
      by_contra htb
      exact hgoes ⟨t, step_of_steps_one ht, Bool.eq_true_of_not_eq_false htb⟩

/-! ### The octets of BUF -/

@[simp] theorem hostWriteReg_buf (off : Nat) (v : Word) (s : State) : (hostWriteReg off v s).buf = s.buf := by
  unfold hostWriteReg
  split
  · rfl
  · split
    case h_1 r _ => cases r <;> rfl
    case h_2 => rfl

@[simp] theorem hostReadReg_buf (p : Params) (off : Nat) (s : State) : (hostReadReg p off s).buf = s.buf := by
  unfold hostReadReg
  split <;> rfl

@[simp] theorem hostReadBuf_buf (p : Params) (a : Nat) (s : State) : (hostReadBuf p a s).buf = s.buf := by
  unfold hostReadBuf
  split <;> rfl

/-- A BUF write is in BUF at once, or waits (R68). -/
theorem hostWriteBuf_buf_cases (p : Params) (a : Nat) (v : Byte) (s : State) :
    (hostWriteBuf p a v s).buf = s.buf.write a v ∨ (hostWriteBuf p a v s).buf = s.buf := by
  unfold hostWriteBuf
  split
  · exact ite_eq_or_eq _ _ _
  · exact .inl rfl

/-- A host action that changes an octet writes it. -/
theorem hostAct_octet {p : Params} {x : HostAction} {a : Nat} (hm : s.buf.wf = true) (h : hostAct p x s = .next t)
    (ha : t.buf.read a ≠ s.buf.read a) : ∃ v, x = .bufWrite a v := by
  have same {u : State} (hu : u.buf = s.buf) (ht : t = u) : ∃ v, x = .bufWrite a v := absurd (by rw [ht, hu]) ha
  rcases hostAct_cases h with ⟨off, v, -, -, -, ht⟩ | ⟨off, -, -, -, ht⟩ | ⟨b, v, rfl, -, ht⟩ | ⟨b, -, -, ht⟩
  · exact same (hostWriteReg_buf off v s) ht
  · exact same (hostReadReg_buf p off s) ht
  · have hwritten : t.buf = s.buf.write b v ∨ t.buf = s.buf := ht ▸ hostWriteBuf_buf_cases p b v s
    rcases hwritten with hw | hk
    · by_cases hab : a = b
      · exact ⟨v, by rw [hab]⟩
      · exact absurd (by rw [hw, Memory.read_write_other hm v hab]) ha
    · exact absurd (by rw [hk]) ha
  · exact same (hostReadBuf_buf p b s) ht

/-- An octet that the core's step changes is written by a raced host write or by the command. -/
theorem coreStep_octet {a : Nat} (hm : s.buf.wf = true)
    (ha : (landLate (latched Config.params s)).buf.read a ≠ s.buf.read a) :
    (∃ v, (a, v) ∈ s.host.late) ∨ ∃ i, decode s.cmdl = .ok i ∧ Writes i s.regs a := by
  by_contra hnot
  obtain ⟨hlate, hcmd⟩ := not_or.1 hnot
  have hrun : (latched Config.params s).buf.wf = true ∧
      (latched Config.params s).buf.read a = s.buf.read a := by
    cases hd : decode s.cmdl with
    | ok i =>
      obtain ⟨hwf, hkept⟩ := command_buf Config.params s i hm
      rw [latched_of_ok hd]
      exact ⟨hwf, hkept a fun hw => hcmd ⟨i, hd, hw⟩⟩
    | error e =>
      rw [latched_of_error hd]
      exact ⟨hm, rfl⟩
  refine ha ((landLate_outside hrun.1 fun v hv => hlate ⟨v, ?_⟩).trans hrun.2)
  rwa [(latched_frame Config.params s).host] at hv

/-- Settles O54: only the core's step and a host action touch BUF (`step_buf`), each only the octets it writes
(`coreStep_octet`, `hostAct_octet`). -/
theorem octetsKeptUnlessWritten : Obligations.OctetsKeptUnlessWritten := by
  intro s t x hm h hx
  rcases step_buf h with hruns | ⟨y, ts, hy, ha⟩ | hkept
  · refine .inr ⟨hruns, ?_⟩
    obtain ⟨-, ts, u, -, hu, rfl⟩ := hruns
    obtain rfl := Host.Outcome.next.inj ((runLatched_exec _).symm.trans hu)
    exact coreStep_octet (s := setTurns ts s) hm hx
  · obtain ⟨v, rfl⟩ := hostAct_octet (s := setTurns ts s) hm ha hx
    exact .inl ⟨v, ts, hy⟩
  · exact absurd (by rw [hkept]) hx

end Sys2Proof.Machine
end

section
/-! The host port: register accesses by offset (spec/10_state.md R20 to R29; spec/20_memory.md R64), reads while BUSY = 1
(spec/70_reset_and_hazards.md R253), BUF accesses while BUSY = 0 (spec/20_memory.md R61), the bits of STATUS
(spec/10_state.md R22), and what no read shows (spec/10_state.md R44). -/

namespace Sys2Proof.Machine

open Sys2Proof.Safety

variable {s t : State}

/-! ### The register map -/

@[simp] theorem regAt_offset (r : Reg) : regAt r.offset = some r := by cases r <;> rfl

theorem Reg.offset_lt (r : Reg) : r.offset < 0x100 := by cases r <;> decide

theorem Reg.offset_aligned (r : Reg) : r.offset % 8 = 0 := by cases r <;> rfl

/-- The reserved offsets hold no register (R20, R64). -/
theorem regAt_of_reserved {off : Nat} (h : off = 0x38 ∨ 0x90 ≤ off) : regAt off = none := by
  unfold regAt
  split
  case h_18 => rfl
  all_goals omega

/-- A register at its offset is the one `regAt` gives. -/
theorem regAt_of_eq {off : Nat} {r : Reg} (h : off = r.offset) : regAt off = some r := h ▸ regAt_offset r

/-- The write-only key registers are at 0x40 to 0x58. -/
theorem regAt_of_key {off : Nat} (hlo : 0x40 ≤ off) (hhi : off < 0x60) (hal : off % 8 = 0) :
    ∃ r, regAt off = some r ∧ ∀ s, readReg r s = 0 := by
  obtain rfl | rfl | rfl | rfl : off = 0x40 ∨ off = 0x48 ∨ off = 0x50 ∨ off = 0x58 := by omega
  · exact ⟨.key0, rfl, fun _ => rfl⟩
  · exact ⟨.key1, rfl, fun _ => rfl⟩
  · exact ⟨.key2, rfl, fun _ => rfl⟩
  · exact ⟨.key3, rfl, fun _ => rfl⟩

/-! ### Writes while BUSY = 0 -/

theorem step_regWrite_idle {r : Reg} {off : Nat} {v : Word} {ts : List Turn} (hb : s.busy = false)
    (h : s.host.turns = .host (.regWrite off 8 v) :: ts) (hr : off = r.offset) :
    step s = .next (writeReg r v (setTurns ts s)) := by
  rw [step_regWrite h (hr ▸ r.offset_lt) (hr ▸ r.offset_aligned), hostWriteReg_idle (s := setTurns ts s) hb,
    regAt_of_eq hr]

/-- Settles O40: the step is `writeReg` of the register at the offset (`step_regWrite_idle`). -/
theorem registerWrites : Obligations.RegisterWrites := by
  intro s off v ts hb h
  have write (r : Reg) (hr : off = r.offset) : step s = .next (writeReg r v (setTurns ts s)) :=
    step_regWrite_idle hb h hr
  exact ⟨write .src1, write .cnt1, write .src2, write .cnt2, write .dest, write .key0, write .key1, write .key2,
    write .key3, write .iv0, write .iv1, write .macIn⟩

/-! ### Reads while BUSY = 0 -/

theorem step_regRead_idle {off : Nat} {ts : List Turn} (hb : s.busy = false)
    (h : s.host.turns = .host (.regRead off 8) :: ts) (hoff : off < 0x100) (hal : off % 8 = 0) :
    step s = .next (noteRead (.reg off (idleReadValue off (setTurns ts s))) (setTurns ts s)) := by
  rw [step_regRead h hoff hal, hostReadReg_idle (s := setTurns ts s) hb]

theorem idleReadValue_of_some {off : Nat} {r : Reg} (h : regAt off = some r) (s : State) :
    idleReadValue off s = readReg r s := by
  simp only [idleReadValue, h]

theorem idleReadValue_of_none {off : Nat} (h : regAt off = none) (s : State) : idleReadValue off s = 0 := by
  simp only [idleReadValue, h]

theorem idleReadValue_of_key {off : Nat} (hlo : 0x40 ≤ off) (hhi : off < 0x60) (hal : off % 8 = 0) (s : State) :
    idleReadValue off s = 0 := by
  obtain ⟨r, hr, hzero⟩ := regAt_of_key hlo hhi hal
  rw [idleReadValue_of_some hr, hzero]

/-- Settles O41: the value is `readReg` of the register at the offset. -/
theorem registerReads : Obligations.RegisterReads := by
  intro s off ts hb h hoff hal
  have read (r : Reg) (hr : off = r.offset) : idleReadValue off (setTurns ts s) = readReg r (setTurns ts s) :=
    idleReadValue_of_some (regAt_of_eq hr) _
  exact ⟨_, step_regRead_idle hb h hoff hal, read .status, read .src1, read .cnt1, read .src2, read .cnt2, read .dest,
    read .iv0, read .iv1, read .macIn, read .macOut, read .lad, read .lct,
    fun hlo hhi => idleReadValue_of_key hlo hhi hal _⟩

/-! ### Reserved offsets and access rights -/

/-- A write to a reserved offset or to a read-only register changes nothing while BUSY = 0 (R64). -/
theorem hostWriteReg_ignored {off : Nat} (v : Word) (hb : s.busy = false)
    (h : off = 0x38 ∨ 0x90 ≤ off ∨ off = 0x08 ∨ off = 0x78 ∨ off = 0x80 ∨ off = 0x88) : hostWriteReg off v s = s := by
  rw [hostWriteReg_idle hb]
  rcases h with h | h | rfl | rfl | rfl | rfl
  · rw [regAt_of_reserved (.inl h)]
  · rw [regAt_of_reserved (.inr h)]
  · rfl
  · rfl
  · rfl
  · rfl

/-- A reserved offset and a write-only register read 0 while BUSY = 0 (R64). -/
theorem idleReadValue_zero {off : Nat} (hal : off % 8 = 0)
    (h : off = 0x38 ∨ 0x90 ≤ off ∨ off = 0x00 ∨ (0x40 ≤ off ∧ off < 0x60)) (s : State) : idleReadValue off s = 0 := by
  rcases h with h | h | rfl | ⟨hlo, hhi⟩
  · exact idleReadValue_of_none (regAt_of_reserved (.inl h)) s
  · exact idleReadValue_of_none (regAt_of_reserved (.inr h)) s
  · rfl
  · exact idleReadValue_of_key hlo hhi hal s

/-- Settles O42: such a write is ignored (`hostWriteReg_ignored`) or only sets OVR (`hostWriteReg_busy`), and such a read
returns 0 (`idleReadValue_zero`). -/
theorem reservedAndReadOnlyOffsets : Obligations.ReservedAndReadOnlyOffsets := by
  intro s off v ts hoff hal
  refine ⟨fun hro h => ?_, fun hwo h hb => ?_⟩
  · rw [step_regWrite h hoff hal]
    rcases Bool.eq_false_or_eq_true s.busy with hb | hb
    · have hovr : (s.busy || s.ovr) = true := by rw [hb, Bool.true_or]
      rw [hostWriteReg_busy (s := setTurns ts s) hb, hovr]
      rfl
    · have hovr : (s.busy || s.ovr) = s.ovr := by rw [hb, Bool.false_or]
      rw [hostWriteReg_ignored (s := setTurns ts s) v hb hro, hovr]
      rfl
  · rw [step_regRead_idle hb h hoff hal, idleReadValue_zero hal hwo]
    rfl

/-! ### Reads while BUSY = 1 -/

/-- Settles O45: the read draws one value and changes nothing in the block; STATUS shows BUSY and OVR
(`busyStatusWord_low`). -/
theorem readsWhileBusy : Obligations.ReadsWhileBusy := by
  intro s r ts h hb
  refine ⟨busyReadValue Config.params r.offset (setTurns ts s), ?_, ?_⟩
  · rw [step_regRead h r.offset_lt r.offset_aligned, hostReadReg, if_pos (show (setTurns ts s).busy = true from hb)]
    rfl
  · rintro rfl
    obtain ⟨hbusy, hovr⟩ := busyStatusWord_low (setTurns ts s) (Config.params.drawWord s.host.draws)
    exact ⟨hbusy.trans hb, hovr⟩

/-! ### BUF accesses while BUSY = 0 -/

theorem bufAccess_inside {p : Params} {a : Nat} (h : a < bufSize p) (s : State) : bufAccess p a s = .next s := if_pos h

theorem bufAccess_outside {p : Params} {a : Nat} (h : bufSize p ≤ a) (s : State) :
    bufAccess p a s = .fault .bufOutsideSpace := if_neg (Nat.not_lt.2 h)

/-- Settles O47: inside the space the access is `Memory.write` or `Memory.read`, outside it `bufAccess` stops. -/
theorem hostBufAccess : Obligations.HostBufAccess := by
  intro s a v ts hb
  refine ⟨fun ha hm h => ?_, fun ha h => ?_, fun ha h => ?_⟩
  · refine ⟨_, (step_host h).trans (bufAccess_inside ha _), ?_, ?_, fun x hx => ?_⟩
    all_goals rw [hostWriteBuf_idle (s := setTurns ts s) hb]
    · rfl
    · exact Memory.read_write_self hm a v
    · exact Memory.read_write_other hm v hx
  · refine (step_host h).trans ((bufAccess_inside ha _).trans ?_)
    rw [hostReadBuf_idle (s := setTurns ts s) hb]
    rfl
  · rcases h with h | h
    · exact (step_host h).trans (bufAccess_outside ha _)
    · exact (step_host h).trans (bufAccess_outside ha _)

/-! ### STATUS -/

/-- The number of two fields, the first on top. -/
theorem toNat_append_fields {m n : Nat} (x : BitVec m) (y : BitVec n) :
    (x ++ y).toNat = 2 ^ n * x.toNat + y.toNat := by
  rw [BitVec.toNat_append, ← Nat.shiftLeft_add_eq_or_of_lt y.isLt, Nat.shiftLeft_eq, Nat.mul_comm]

theorem toNat_phaseCode (ph : Phase) : ph.code.toNat = phaseNumber ph := by cases ph <;> rfl

theorem toNat_resultCode (e : ResultCode) : e.code.toNat = resultNumber e := by cases e <;> rfl

/-- Settles O43: STATUS is the concatenation of its fields (`toNat_append_fields`), each the number the spec gives it. -/
theorem statusLayout : Obligations.StatusLayout := by
  intro s
  simp only [readReg, statusWord, toNat_append_fields, toNat_phaseCode, toNat_resultCode, BitVec.toNat_ofBool,
    BitVec.toNat_ofFin, BitVec.ofNat_eq_ofNat, BitVec.toNat_zero]
  omega

/-! ### What no read shows -/

theorem statusWord_of_sameToHost (h : SameToHost s t) : statusWord t = statusWord s := by
  simp only [statusWord, h.ksAvail, h.filled, h.phase, h.err, h.ovr, h.busy]

theorem readReg_of_sameToHost (h : SameToHost s t) (r : Reg) : readReg r t = readReg r s := by
  cases r with
  | cmd | key0 | key1 | key2 | key3 => rfl
  | status => exact statusWord_of_sameToHost h
  | src1 => exact h.src1
  | cnt1 => exact h.cnt1
  | src2 => exact h.src2
  | cnt2 => exact h.cnt2
  | dest => exact h.dest
  | iv0 => exact h.iv0
  | iv1 => exact h.iv1
  | macIn => exact h.macIn
  | macOut => exact h.macOut
  | lad => exact h.lad
  | lct => exact h.lct

theorem idleReadValue_of_sameToHost (h : SameToHost s t) (off : Nat) : idleReadValue off t = idleReadValue off s := by
  cases hr : regAt off with
  | none => rw [idleReadValue_of_none hr, idleReadValue_of_none hr]
  | some r => rw [idleReadValue_of_some hr, idleReadValue_of_some hr, readReg_of_sameToHost h r]

theorem sameToHost_setTurns (h : SameToHost s t) (ts : List Turn) : SameToHost (setTurns ts s) (setTurns ts t) :=
  { h with host := by rw [setTurns_host, setTurns_host, h.host] }

/-- A read while BUSY = 0 shows the host one value in both states, so they stay the same to it. -/
theorem sameToHost_hostReadReg (p : Params) (off : Nat) (h : SameToHost s t) (hb : s.busy = false) :
    SameToHost (hostReadReg p off s) (hostReadReg p off t) := by
  rw [hostReadReg_idle hb, hostReadReg_idle (h.busy.trans hb), idleReadValue_of_sameToHost h]
  exact { h with host := by rw [noteRead_host, noteRead_host, h.host] }

/-- Settles O49: both steps are the same read, of states that are the same to the host (`sameToHost_hostReadReg`). -/
theorem secretsUnreadable : Obligations.SecretsUnreadable := by
  intro s s' off size ts hsame hb h t ht
  rw [step_host h] at ht
  rcases hostAct_cases ht with ⟨_, _, hx, -⟩ | ⟨_, hx, hoff, hal, rfl⟩ | ⟨_, _, hx, -⟩ | ⟨_, hx, -⟩
  · cases hx
  · cases hx
    have hread := sameToHost_hostReadReg Config.params off (sameToHost_setTurns hsame ts) hb
    exact ⟨_, step_regRead (hsame.host ▸ h) hoff hal, hread.host, hread⟩
  · cases hx
  · cases hx

end Sys2Proof.Machine
end

section
/-! The latched word of an idle core is unseen (spec/10_state.md R21, R38), and ZEROIZE reaches the reset state up to it
(spec/70_reset_and_hazards.md R242). -/

namespace Sys2Proof.Machine

open Sys2Proof.Safety

variable {s t : State}

/-! ### States alike but for the latched word of an idle core -/

theorem sameButLatch_of_idle (hb : s.busy = false) (h : t = { s with cmdl := t.cmdl }) : SameButLatch s t :=
  ⟨h, fun hp => absurd (hp.symm.trans hb) (by decide)⟩

theorem sameButLatch_refl (s : State) : SameButLatch s s := ⟨rfl, fun _ => rfl⟩

/-- Alike under a pending command is equal. -/
theorem eq_of_sameButLatch (h : SameButLatch s t) (hb : s.busy = true) : t = s := by
  rw [h.rest, h.pending hb]

/-- Two outcomes alike: the same stop, or next states that differ at most in an idle core's latched word. -/
def AlikeOutcome (o o' : Host.Outcome State Fault Refusal) : Prop :=
  (∀ t, o = .next t → ∃ t', o' = .next t' ∧ SameButLatch t t') ∧ (∀ f, o = .fault f → o' = .fault f) ∧
    (∀ r, o = .refused r → o' = .refused r)

theorem alikeOutcome_next (h : SameButLatch s t) : AlikeOutcome (.next s) (.next t) :=
  ⟨fun _ hu => Host.Outcome.next.inj hu ▸ ⟨t, rfl, h⟩, fun _ hf => (by cases hf), fun _ hr => (by cases hr)⟩

theorem alikeOutcome_refl (o : Host.Outcome State Fault Refusal) : AlikeOutcome o o :=
  ⟨fun t ht => ⟨t, ht, sameButLatch_refl t⟩, fun _ hf => hf, fun _ hr => hr⟩

theorem alikeOutcome_regAccess (off size : Nat) (h : SameButLatch s t) :
    AlikeOutcome (regAccess off size s) (regAccess off size t) := by
  unfold regAccess
  split
  · split
    · exact alikeOutcome_next h
    · exact alikeOutcome_refl _
  · exact alikeOutcome_refl _

theorem alikeOutcome_bufAccess (p : Params) (a : Nat) (h : SameButLatch s t) :
    AlikeOutcome (bufAccess p a s) (bufAccess p a t) := by
  unfold bufAccess
  split
  · exact alikeOutcome_next h
  · exact alikeOutcome_refl _

/-! ### Host accesses to an idle core -/

/-- A CMD write overwrites the latched word, and no other write reads it (R21, R38). -/
theorem writeReg_latch (r : Reg) (v w : Word) (hb : s.busy = false) :
    SameButLatch (writeReg r v s) (writeReg r v { s with cmdl := w }) := by
  cases r with
  | cmd => exact sameButLatch_refl _
  | _ => exact sameButLatch_of_idle hb rfl

theorem hostWriteReg_latch (off : Nat) (v w : Word) (hb : s.busy = false) :
    SameButLatch (hostWriteReg off v s) (hostWriteReg off v { s with cmdl := w }) := by
  rw [hostWriteReg_idle hb, hostWriteReg_idle (s := { s with cmdl := w }) hb]
  cases regAt off with
  | none => exact sameButLatch_of_idle hb rfl
  | some r => exact writeReg_latch r v w hb

/-- No register shows the latched word (R21). -/
theorem idleReadValue_latch (off : Nat) (w : Word) (s : State) :
    idleReadValue off { s with cmdl := w } = idleReadValue off s :=
  idleReadValue_of_sameToHost
    ⟨rfl, rfl, rfl, rfl, rfl, rfl, rfl, rfl, rfl, rfl, rfl, rfl, rfl, rfl, rfl, rfl, rfl, rfl, rfl⟩ off

theorem hostReadReg_latch (p : Params) (off : Nat) (w : Word) (hb : s.busy = false) :
    SameButLatch (hostReadReg p off s) (hostReadReg p off { s with cmdl := w }) := by
  rw [hostReadReg_idle hb, hostReadReg_idle (s := { s with cmdl := w }) hb, idleReadValue_latch]
  exact sameButLatch_of_idle hb rfl

theorem hostAct_latch (p : Params) (x : HostAction) (w : Word) (hb : s.busy = false) :
    AlikeOutcome (hostAct p x s) (hostAct p x { s with cmdl := w }) := by
  cases x with
  | regWrite off size v => exact alikeOutcome_regAccess off size (hostWriteReg_latch off v w hb)
  | regRead off size => exact alikeOutcome_regAccess off size (hostReadReg_latch p off w hb)
  | bufWrite a v =>
    refine alikeOutcome_bufAccess p a ?_
    rw [hostWriteBuf_idle hb, hostWriteBuf_idle (s := { s with cmdl := w }) hb]
    exact sameButLatch_of_idle hb rfl
  | bufRead a =>
    refine alikeOutcome_bufAccess p a ?_
    rw [hostReadBuf_idle hb, hostReadBuf_idle (s := { s with cmdl := w }) hb]
    exact sameButLatch_of_idle hb rfl

/-! ### Every step -/

/-- No turn of an idle core reads the latched word. -/
theorem step_latch (w : Word) (hb : s.busy = false) : AlikeOutcome (step s) (step { s with cmdl := w }) := by
  have core {ts : List Turn} (h : CoreMoves s ts) : AlikeOutcome (step s) (step { s with cmdl := w }) := by
    rw [step_core_idle h hb, step_core_idle (s := { s with cmdl := w }) h hb]
    exact alikeOutcome_next (sameButLatch_of_idle hb rfl)
  cases ht : s.host.turns with
  | nil => exact core (.inl ⟨ht, rfl⟩)
  | cons x ts =>
    cases x with
    | core => exact core (.inr ht)
    | host x =>
      rw [step_host ht, step_host (s := { s with cmdl := w }) ht]
      exact hostAct_latch (s := setTurns ts s) _ x w hb
    | wait polls =>
      rw [step_wait_idle ht hb, step_wait_idle (s := { s with cmdl := w }) ht hb]
      exact alikeOutcome_next (sameButLatch_of_idle hb rfl)
    | reset =>
      rw [step_reset ht, step_reset (s := { s with cmdl := w }) ht]
      exact alikeOutcome_refl _

/-- Settles O53: under a pending command the two states are one, and no turn of an idle core reads the latched word
(`step_latch`); ZEROIZE and a reset differ in it as `zeroizeAgainstReset` says. -/
theorem idleLatchUnseen : Obligations.IdleLatchUnseen := by
  refine ⟨fun s s' h => ?_, fun s ts hturns hlate => ?_⟩
  · cases hb : s.busy with
    | true =>
      rw [eq_of_sameButLatch h hb]
      exact alikeOutcome_refl _
    | false =>
      rw [h.rest]
      exact step_latch _ hb
  · obtain ⟨z, r, hz, hr, hzr⟩ := zeroizeAgainstReset s ts hturns hlate
    obtain rfl := Host.Outcome.next.inj ((step_reset hturns).symm.trans hr)
    subst hzr
    exact ⟨_, _, hz, hr, sameButLatch_of_idle rfl rfl⟩

end Sys2Proof.Machine
end

section
/-! Streaming in chunks against WRAP (spec/42_stream.md R168, spec/44_envelope.md R192): the commands run over consecutive
chunks have the effect of one command over the whole range, and START, STEPI, STEPE, STEPA and STEPG over whole ranges are
the steps of WRAP. -/

namespace Sys2Proof.Machine

open Sys2Proof.Safety

variable {s : State} {q : Session} {a n : Nat}

/-! ### A streaming command over chunks -/

/-- The part of the state that the streaming commands work on. -/
def datapath (s : State) : Memory × Session := (s.buf, s.ses)

/-- A command that, run over `n` octets from address `a` of a datapath that is ready for it, has an effect that adds up over
consecutive ranges. -/
structure ChunkLaw (i : Instr) (ready : Nat → Nat → Memory × Session → Prop)
    (effect : Nat → Nat → Memory × Session → Memory × Session) : Prop where
  run : ∀ a n s, ready a n (datapath s) → ∃ t,
    exec i (withRange (BitVec.ofNat 64 a) (BitVec.ofNat 64 n) s) = .next t ∧ datapath t = effect a n (datapath s)
  zero : ∀ a x, effect a 0 x = x
  add : ∀ a n k x, effect a (n + k) x = effect (a + n) k (effect a n x)
  ready_add : ∀ a n k x, ready a (n + k) x → ready a n x ∧ ready (a + n) k (effect a n x)

/-- Chunks in a row have the effect of their whole range, by induction on the list of chunks. -/
theorem datapath_chunked {i : Instr} {ready : Nat → Nat → Memory × Session → Prop}
    {effect : Nat → Nat → Memory × Session → Memory × Session} (law : ChunkLaw i ready effect) (ns : List Nat)
    (h : ready a ns.sum (datapath s)) : datapath (chunked i a ns s) = effect a ns.sum (datapath s) := by
  induction ns generalizing a s with
  | nil => exact (law.zero a _).symm
  | cons n ns ih =>
    rw [List.sum_cons] at h ⊢
    obtain ⟨hfirst, hrest⟩ := law.ready_add a n ns.sum _ h
    obtain ⟨t, ht, heffect⟩ := law.run a n s hfirst
    rw [← heffect] at hrest
    rw [law.add, ← heffect, ← ih hrest]
    simp only [chunked, ht]

/-! ### The range of one chunk -/

theorem inSpace_add {k : Nat} (h : InSpace a (n + k)) : InSpace a n ∧ InSpace (a + n) k := by
  unfold InSpace at h ⊢
  omega

/-- The registers hold a chunk's range; the address of an empty chunk may lie past the last register value. -/
theorem withRange_regs (hr : InSpace a n) (hn : n < 2 ^ 64) (s : State) :
    (withRange (BitVec.ofNat 64 a) (BitVec.ofNat 64 n) s).regs.cnt1.toNat = n ∧
      (n = 0 ∨ (withRange (BitVec.ofNat 64 a) (BitVec.ofNat 64 n) s).regs.src1.toNat = a) := by
  have hspace : 2 ^ Config.params.bufAddrW ≤ 2 ^ 64 :=
    Nat.pow_le_pow_right (by decide) Config.params.bufAddrW_le
  refine ⟨(BitVec.toNat_ofNat ..).trans (Nat.mod_eq_of_lt hn), ?_⟩
  by_cases h0 : n = 0
  · exact .inl h0
  · have hend := hr.resolve_left h0
    exact .inr ((BitVec.toNat_ofNat ..).trans (Nat.mod_eq_of_lt (by omega)))

theorem inSpace_withRange (hr : InSpace a n) (hn : n < 2 ^ 64) (s : State) :
    InSpace (withRange (BitVec.ofNat 64 a) (BitVec.ofNat 64 n) s).regs.src1.toNat
      (withRange (BitVec.ofNat 64 a) (BitVec.ofNat 64 n) s).regs.cnt1.toNat := by
  obtain ⟨hcnt, hsrc⟩ := withRange_regs hr hn s
  rw [hcnt]
  rcases hsrc with h0 | hsrc
  · exact .inl h0
  · rw [hsrc]
    exact hr

theorem srcOctets_withRange (hr : InSpace a n) (hn : n < 2 ^ 64) (s : State) :
    srcOctets (withRange (BitVec.ofNat 64 a) (BitVec.ofNat 64 n) s) = s.buf.readRange a n := by
  obtain ⟨hcnt, hsrc⟩ := withRange_regs hr hn s
  rw [srcOctets, hcnt]
  rcases hsrc with rfl | hsrc
  · rfl
  · rw [hsrc]
    rfl

/-! ### STEPI -/

theorem addBits_addBits (c : Word) (n k : Nat) : addBits (addBits c n) k = addBits c (n + k) := by
  apply BitVec.eq_of_toNat_eq
  simp only [addBits, BitVec.toNat_ofNat]
  omega

theorem absorbAD_append (p : Params) (n k : Nat) (xs ys : List Byte) (q : Session) :
    absorbAD p (n + k) (xs ++ ys) q = absorbAD p k ys (absorbAD p n xs q) := by
  rw [absorbAD, absorbAD, absorbAD_lad, addBits_addBits, absorbAD, absorbAll_append, absorbAll_setLad,
    absorbAll_setLad, absorbAll_setLad, absorbAll_setLad, absorbAll_setLad]
  rfl

/-- STEPI over a range, on BUF and the session. -/
def adEffect (p : Params) (a n : Nat) (x : Memory × Session) : Memory × Session :=
  (x.1, absorbAD p n (x.1.readRange a n) x.2)

/-- STEPI is not refused (R162). -/
def AdReady (a n : Nat) (x : Memory × Session) : Prop :=
  x.2.phase = .ad ∧ InSpace a n ∧ x.2.lad.toNat + 8 * n ≤ 2 ^ 64 - 1

theorem chunkLaw_stepi : ChunkLaw .stepi AdReady (adEffect Config.params) where
  run := fun a n s ⟨had, hr, hlen⟩ => by
    have hn : n < 2 ^ 64 := by omega
    obtain ⟨hcnt, -⟩ := withRange_regs hr hn s
    refine ⟨_, exec_stepi_valid (s := withRange _ _ s) had ⟨inSpace_withRange hr hn s, hcnt.symm ▸ hlen⟩, ?_⟩
    rw [hcnt, srcOctets_withRange hr hn]
    rfl
  zero := fun a x => by
    rw [adEffect, Memory.readRange, absorbAD_zero]
  add := fun a n k x => by
    rw [adEffect, Memory.readRange_append, absorbAD_append]
    rfl
  ready_add := fun a n k x ⟨had, hr, hlen⟩ => by
    obtain ⟨hr1, hr2⟩ := inSpace_add hr
    have hlen1 : x.2.lad.toNat + 8 * n ≤ 2 ^ 64 - 1 := by omega
    refine ⟨⟨had, hr1, hlen1⟩, ?_, hr2, ?_⟩
    · exact (absorbAll_phase _ _ _).trans had
    · rw [adEffect, absorbAD_lad, addBits_toNat (lengthOK_iff.2 hlen1)]
      omega

/-! ### STEPE -/

theorem enterCT_phase_ne_ad (p : Params) (q : Session) : (enterCT p q).phase ≠ .ad := by
  unfold enterCT
  split
  · simp
  · assumption

/-- "if n > 0: EnterCT()" keeps the phase or makes it CT. -/
theorem enterCTIf_phase_cases (p : Params) (n : Nat) (q : Session) :
    (enterCTIf p n q).phase = q.phase ∨ (enterCTIf p n q).phase = .ct := by
  unfold enterCTIf enterCT
  split
  · exact .inl rfl
  · split
    · exact .inr rfl
    · exact .inl rfl

/-- STEPE over a range, on BUF and the session. -/
def xorEffect (p : Params) (a n : Nat) (x : Memory × Session) : Memory × Session :=
  xorRange p n a x.1 (enterCTIf p n x.2)

/-- STEPE is not refused (R166), and CNT1 can hold the count. -/
def XorReady (a n : Nat) (x : Memory × Session) : Prop := x.2.phase ≠ .idle ∧ InSpace a n ∧ n < 2 ^ 64

theorem streamResult_withRange (p : Params) (hr : InSpace a n) (hn : n < 2 ^ 64) (s : State) :
    streamResult p (withRange (BitVec.ofNat 64 a) (BitVec.ofNat 64 n) s) = xorEffect p a n (datapath s) := by
  obtain ⟨hcnt, hsrc⟩ := withRange_regs hr hn s
  rw [streamResult, hcnt]
  rcases hsrc with rfl | hsrc
  · rfl
  · rw [hsrc]
    rfl

/-- The first octet enters CT for all that follow. -/
theorem xorEffect_add (p : Params) (a n k : Nat) (x : Memory × Session) :
    xorEffect p a (n + k) x = xorEffect p (a + n) k (xorEffect p a n x) := by
  by_cases hn : n = 0
  · subst hn
    rw [Nat.zero_add, Nat.add_zero]
    rfl
  · have hphase := (xorRange_same p n a x.1 (enterCT p x.2)).phase
    have hct : (xorRange p n a x.1 (enterCT p x.2)).2.phase ≠ .ad := hphase ▸ enterCT_phase_ne_ad p x.2
    rw [xorEffect, xorEffect, xorEffect, enterCTIf_pos p hn, enterCTIf_pos p (by omega), xorRange_append,
      enterCTIf_of_not_ad p k hct]

theorem chunkLaw_stepe : ChunkLaw .stepe XorReady (xorEffect Config.params) where
  run := fun a n s ⟨hph, hr, hn⟩ => by
    refine ⟨_, (exec_stream (.inl rfl) _).trans (congrArg _ (streamXor_valid hph (inSpace_withRange hr hn s))), ?_⟩
    rw [streamResult_withRange _ hr hn]
    rfl
  zero := fun a x => rfl
  add := xorEffect_add Config.params
  ready_add := fun a n k x ⟨hph, hr, hn⟩ => by
    obtain ⟨hr1, hr2⟩ := inSpace_add hr
    refine ⟨⟨hph, hr1, by omega⟩, ?_, hr2, by omega⟩
    rw [xorEffect, (xorRange_same _ _ _ _ _).phase]
    rcases enterCTIf_phase_cases Config.params n x.2 with h | h
    · rw [h]
      exact hph
    · simp [h]

/-! ### STEPA -/

theorem absorbCT_eq (p : Params) (n : Nat) (xs : List Byte) (q : Session) :
    absorbCT p n xs q = setLct (addBits q.lct n) (absorbAll p xs (enterCTIf p n q)) := by
  rw [absorbCT, absorbAll_setLct]

/-- The first octet enters CT for all that follow. -/
theorem absorbCT_append (p : Params) (k : Nat) {xs : List Byte} (ys : List Byte) (q : Session) (hx : xs.length = n) :
    absorbCT p (n + k) (xs ++ ys) q = absorbCT p k ys (absorbCT p n xs q) := by
  by_cases hn : n = 0
  · subst hn
    obtain rfl := List.length_eq_zero_iff.1 hx
    rw [Nat.zero_add, List.nil_append, absorbCT_zero]
  · have hct : (absorbCT p n xs q).phase ≠ .ad := by
      rw [absorbCT, enterCTIf_pos p hn, absorbAll_phase]
      exact enterCT_phase_ne_ad p q
    rw [absorbCT_eq p k, absorbCT_lct, addBits_addBits, enterCTIf_of_not_ad p k hct, absorbCT_eq, absorbCT_eq,
      enterCTIf_pos p hn, enterCTIf_pos p (by omega), absorbAll_append, absorbAll_setLct]
    rfl

/-- STEPA over a range, on BUF and the session. -/
def ctEffect (p : Params) (a n : Nat) (x : Memory × Session) : Memory × Session :=
  (x.1, absorbCT p n (x.1.readRange a n) x.2)

/-- STEPA is not refused (R164). -/
def CtReady (a n : Nat) (x : Memory × Session) : Prop :=
  (x.2.phase = .ad ∨ x.2.phase = .ct) ∧ InSpace a n ∧ x.2.lct.toNat + 8 * n ≤ 2 ^ 64 - 1

/-- STEPA keeps a session in AD or CT (R164). -/
theorem ctEffect_open (p : Params) {x : Memory × Session} (hopen : x.2.phase = .ad ∨ x.2.phase = .ct) :
    (ctEffect p a n x).2.phase = .ad ∨ (ctEffect p a n x).2.phase = .ct := by
  rw [ctEffect, absorbCT, absorbAll_phase, setLct_phase]
  rcases enterCTIf_phase_cases p n x.2 with h | h
  · rw [h]
    exact hopen
  · exact .inr h

theorem chunkLaw_stepa : ChunkLaw .stepa CtReady (ctEffect Config.params) where
  run := fun a n s ⟨hopen, hr, hlen⟩ => by
    have hn : n < 2 ^ 64 := by omega
    obtain ⟨hcnt, -⟩ := withRange_regs hr hn s
    refine ⟨_, exec_stepa_valid (s := withRange _ _ s) hopen ⟨inSpace_withRange hr hn s, hcnt.symm ▸ hlen⟩, ?_⟩
    rw [hcnt, srcOctets_withRange hr hn]
    rfl
  zero := fun a x => by
    rw [ctEffect, Memory.readRange, absorbCT_zero]
  add := fun a n k x => by
    rw [ctEffect, Memory.readRange_append, absorbCT_append _ _ _ _ (Memory.length_readRange _ _ _)]
    rfl
  ready_add := fun a n k x ⟨hopen, hr, hlen⟩ => by
    obtain ⟨hr1, hr2⟩ := inSpace_add hr
    have hlen1 : x.2.lct.toNat + 8 * n ≤ 2 ^ 64 - 1 := by omega
    refine ⟨⟨hopen, hr1, hlen1⟩, ctEffect_open _ hopen, hr2, ?_⟩
    rw [ctEffect, absorbCT_lct, addBits_toNat (lengthOK_iff.2 hlen1)]
    omega

/-! ### The steps of WRAP -/

/-- START and STEPI over the associated data leave the session of `envelopeAD` (R191). -/
theorem adEffect_startBody (p : Params) (n : KeySize) (s : State) :
    adEffect p s.regs.src2.toNat s.regs.cnt2.toNat (s.buf, startBody p n (s.regs.key n) s.regs.iv)
      = (s.buf, envelopeAD p n s) := rfl

/-- The keystream does not read BUF. -/
theorem xorRange_snd_congr (p : Params) (n a : Nat) (m m' : Memory) (q : Session) :
    (xorRange p n a m q).2 = (xorRange p n a m' q).2 := by
  induction n generalizing a m m' q with
  | zero => rfl
  | succ n ih => exact ih _ _ _ _

/-- STEPE over a payload at DEST, in any BUF, leaves WRAP's ciphertext there and WRAP's session (R191). -/
theorem xorEffect_envelopeAD {kl : KeyCode} (n : KeySize) {m : Memory} (hv : EnvelopeValid kl s.regs)
    (hs : s.buf.wf = true) (hm : m.wf = true)
    (hpayload : m.readRange s.regs.dest.toNat s.regs.cnt1.toNat = srcOctets s) :
    (xorEffect Config.params s.regs.dest.toNat s.regs.cnt1.toNat (m, envelopeAD Config.params n s)).2
        = (wrapEncrypt Config.params n s).2 ∧
      (xorEffect Config.params s.regs.dest.toNat s.regs.cnt1.toNat (m, envelopeAD Config.params n s)).1.readRange
          s.regs.dest.toNat s.regs.cnt1.toNat
        = (wrapEncrypt Config.params n s).1.readRange s.regs.dest.toNat s.regs.cnt1.toNat := by
  refine ⟨xorRange_snd_congr _ _ _ _ _ _, Memory.readRange_congr fun k hk => ?_⟩
  have hread := Memory.read_of_readRange_eq hpayload k hk
  rw [xorEffect, wrapEncrypt, xorRange_inside _ _ _ hm _ hk, xorRange_inside _ _ _ (copyPayload_wf hs) _ hk,
    copyPayload_inside hs (aliasOK_of_valid hv) hk, hread]

/-- The session in which WRAP absorbs its ciphertext: CT, or AD without an octet, and no ciphertext counted. -/
theorem wrapEncrypt_session (p : Params) (n : KeySize) (s : State) :
    ((wrapEncrypt p n s).2.phase = .ad ∨ (wrapEncrypt p n s).2.phase = .ct) ∧ (wrapEncrypt p n s).2.lct = 0 ∧
      enterCTIf p s.regs.cnt1.toNat (wrapEncrypt p n s).2 = (wrapEncrypt p n s).2 := by
  have hX := xorRange_same p s.regs.cnt1.toNat s.regs.dest.toNat (copyPayload s.buf s.regs)
    (enterCTIf p s.regs.cnt1.toNat (envelopeAD p n s))
  have had := (envelopeAD_spec p n s).1
  have hlct : (envelopeAD p n s).lct = 0 := (absorbAll_same p _ _).lct
  refine ⟨?_, hX.lct.trans ((enterCTIf_same p _ _).lct.trans hlct), ?_⟩
  · rcases enterCTIf_phase_cases p s.regs.cnt1.toNat (envelopeAD p n s) with h | h
    · exact .inl (hX.phase.trans (h.trans had))
    · exact .inr (hX.phase.trans h)
  · by_cases hn : s.regs.cnt1.toNat = 0
    · rw [hn]
      rfl
    · refine enterCTIf_of_not_ad p _ ?_
      rw [wrapEncrypt, hX.phase, enterCTIf_pos p hn]
      exact enterCT_phase_ne_ad p _

/-- STEPA over WRAP's ciphertext and the finalization leave WRAP's final session (R191). -/
theorem finalize_absorbCT_wrapEncrypt (p : Params) (n : KeySize) (s : State) :
    finalize p (absorbCT p s.regs.cnt1.toNat
      ((wrapEncrypt p n s).1.readRange s.regs.dest.toNat s.regs.cnt1.toNat) (wrapEncrypt p n s).2)
      = wrapFinal p n s := by
  obtain ⟨-, hlct, henter⟩ := wrapEncrypt_session p n s
  rw [absorbCT, henter, hlct, wrapFinal]

/-! ### The stages of the streamed envelope -/

theorem datapath_stepi_chunks {kl : KeyCode} {n : KeySize} {ads : List Nat} (hv : EnvelopeValid kl s.regs)
    (hads : ads.sum = s.regs.cnt2.toNat) :
    datapath (chunked .stepi s.regs.src2.toNat ads
        (finish .ok (setSes (startBody Config.params n (s.regs.key n) s.regs.iv) s)))
      = (s.buf, envelopeAD Config.params n s) := by
  obtain ⟨-, -, hsrc2, -, -, hlen2, -⟩ := hv
  rw [← adEffect_startBody, ← hads]
  refine datapath_chunked chunkLaw_stepi ads ⟨rfl, hads.symm ▸ hsrc2, ?_⟩
  rw [hads]
  exact (Nat.zero_add _).symm ▸ hlen2

/-- The payload at DEST, streamed through STEPE: WRAP's session and WRAP's ciphertext. -/
theorem stepe_chunks {kl : KeyCode} {n : KeySize} {ps : List Nat} {u : State} (hv : EnvelopeValid kl s.regs)
    (hs : s.buf.wf = true) (hm : u.buf.wf = true)
    (hpayload : u.buf.readRange s.regs.dest.toNat s.regs.cnt1.toNat = srcOctets s)
    (hses : u.ses = envelopeAD Config.params n s) (hps : ps.sum = s.regs.cnt1.toNat) :
    (chunked .stepe s.regs.dest.toNat ps u).ses = (wrapEncrypt Config.params n s).2 ∧
      (chunked .stepe s.regs.dest.toNat ps u).buf.readRange s.regs.dest.toNat s.regs.cnt1.toNat
        = (wrapEncrypt Config.params n s).1.readRange s.regs.dest.toNat s.regs.cnt1.toNat := by
  have hready : XorReady s.regs.dest.toNat ps.sum (datapath u) := by
    obtain ⟨-, -, -, hdest, -, -, -⟩ := hv
    rw [hps]
    refine ⟨?_, hdest, s.regs.cnt1.isLt⟩
    rw [datapath, hses, (envelopeAD_spec _ n s).1]
    decide
  have heffect := datapath_chunked chunkLaw_stepe ps hready
  have hdata : datapath u = (u.buf, envelopeAD Config.params n s) := by rw [datapath, hses]
  obtain ⟨hsession, hcipher⟩ := xorEffect_envelopeAD n hv hs hm hpayload
  rw [hps, hdata] at heffect
  rw [← heffect] at hsession hcipher
  exact ⟨hsession, hcipher⟩

/-- WRAP's ciphertext at DEST, streamed through STEPA: WRAP's session before its finalization, and BUF kept. -/
theorem stepa_chunks {kl : KeyCode} {n : KeySize} {cs : List Nat} {u : State} (hv : EnvelopeValid kl s.regs)
    (hses : u.ses = (wrapEncrypt Config.params n s).2)
    (hcipher : u.buf.readRange s.regs.dest.toNat s.regs.cnt1.toNat
      = (wrapEncrypt Config.params n s).1.readRange s.regs.dest.toNat s.regs.cnt1.toNat)
    (hcs : cs.sum = s.regs.cnt1.toNat) :
    (chunked .stepa s.regs.dest.toNat cs u).buf = u.buf ∧
      ((chunked .stepa s.regs.dest.toNat cs u).ses.phase = .ad ∨
        (chunked .stepa s.regs.dest.toNat cs u).ses.phase = .ct) ∧
      finalize Config.params (chunked .stepa s.regs.dest.toNat cs u).ses = wrapFinal Config.params n s := by
  obtain ⟨hopen, hlct, -⟩ := wrapEncrypt_session Config.params n s
  have hready : CtReady s.regs.dest.toNat cs.sum (datapath u) := by
    obtain ⟨-, -, -, hdest, hlen1, -, -⟩ := hv
    rw [hcs, datapath, hses]
    exact ⟨hopen, hdest, by rw [hlct]; exact (Nat.zero_add _).symm ▸ hlen1⟩
  have heffect := datapath_chunked chunkLaw_stepa cs hready
  have hclosed := ctEffect_open Config.params hready.1 (a := s.regs.dest.toNat) (n := cs.sum)
  rw [← heffect] at hclosed
  refine ⟨congrArg Prod.fst heffect, hclosed, ?_⟩
  have hlast := congrArg Prod.snd heffect
  simp only [datapath, ctEffect] at hlast
  rw [hlast, hcs, hcipher, hses, finalize_absorbCT_wrapEncrypt]

/-- Settles O35: chunks add up to whole ranges (`datapath_chunked`), and over whole ranges the commands are the steps of
WRAP (`datapath_stepi_chunks`, `stepe_chunks`, `stepa_chunks`). -/
theorem streamingEqualsWrap : Obligations.StreamingEqualsWrap := by
  intro kl s w t0 m ads ps cs hv hs hw ht0 hads hps hcs hm hpayload
  obtain ⟨n, hn⟩ := size?_isSome hv.1
  obtain rfl := Host.Outcome.next.inj ((exec_next_iff.2 (cmdWrap_of_valid hn (envelopeOK_iff.2 hv)).symm).symm.trans hw)
  obtain rfl := Host.Outcome.next.inj ((exec_next_iff.2 (cmdStart_of_size hn).symm).symm.trans ht0)
  have hAD := congrArg Prod.snd (datapath_stepi_chunks (n := n) hv hads)
  obtain ⟨hses, hcipher⟩ := stepe_chunks (u := setBuf m _) hv hs hm hpayload hAD hps
  obtain ⟨hbuf, hopen, hfinal⟩ := stepa_chunks hv hses hcipher hcs
  refine ⟨_, exec_stepg_open hopen, rfl, ?_, ?_⟩
  · rw [finish_regs, setMacOut_regs, hfinal, ← val64_tagOctets]
    rfl
  · rw [finish_buf, setMacOut_buf, setSes_buf, hbuf, hcipher]
    rfl

end Sys2Proof.Machine
end
